-- ==== Sys2Proof/Word.lean ====
section
/-! DEFINITION. The block's byte, its 16-bit address, and the packets a host presents.
The bits of a packet are numbered as spec/opcode_table.json numbers them, bit 0 the least significant. -/

namespace Sys2Proof

/-- A logical or physical byte (00_scope.md section 6). -/
abbrev Byte := BitVec 8

/-- A display memory address, the width of the cursor (10_state.md R20). -/
abbrev Addr := BitVec 16

/-- The three formats of 30_encoding.md: `T` a transaction (R90), `C` a bus cycle (R91), `OP` an operation request (R94). -/
inductive Format where
  | t | c | op
  deriving DecidableEq, Repr

/-- One statement of the host as bits: its format says at which of the block's levels (00_scope.md R11) it is presented. -/
structure Packet where
  fmt  : Format
  bits : Nat
  deriving DecidableEq, Repr

end Sys2Proof
end

