-- ==== Sys2Proof/Config.lean ====
section
/-! DEFINITION. The parameters of 00_scope.md R8, the names of the twelve commands, and the free values.
The parameters are plain data and stand in State, so that a statement about every state is one about every
parameter value. The free values have no body: nothing can be proved of them. -/

namespace Sys2Proof

/-- The implementation parameters (00_scope.md R6, R8). No step changes them. -/
structure Params where
  /-- WIDTH, in pixels. -/
  width        : Nat
  /-- HEIGHT, in pixels. -/
  height       : Nat
  /-- REVERSED: data line N is wired to bus position 7-N. -/
  reversed     : Bool
  /-- BITOP_ADVANCE: set-bit and clear-bit advance the cursor (OPEN, D8). -/
  bitopAdvance : Bool
  /-- INIT_MODE, INIT_PITCH, INIT_TDIV: operands of INIT (OPEN, D19). -/
  initMode     : Byte
  initPitch    : Byte
  initTdiv     : Byte
  deriving DecidableEq, Repr

/-- The twelve commands the document names (30_encoding.md R92). Their numbers are data, `commandTable`. -/
inductive Command where
  | mode | pitch | nchr | tdiv | startLo | startHi | curLo | curHi | write | read | clearBit | setBit
  deriving DecidableEq, Repr

/-- `any8` (00_scope.md section 5): the n-th byte no rule constrains. FREE VALUE, log 7. -/
opaque Config.any8 : Nat → Byte

/-- The bits 6:0 of the n-th status byte sampled (30_encoding.md R106); bit 7 of the byte is not used. FREE VALUE, log 7. -/
opaque Config.statusBits : Nat → Byte

/-- The part of `MEM_MAP` the spec leaves open (20_memory.md R69): the cell an off-surface address selects.
FREE VALUE, log 6. -/
opaque Config.offSurfaceCell : Addr → Nat

end Sys2Proof
end

