-- ==== Sys2Proof/Syntax.lean ====
section
/-! DEFINITION. The instructions: one constructor per row of spec/opcode_table.json, at the three levels of
00_scope.md R11. -/

namespace Sys2Proof

/-- An instruction. Transaction rows carry the operand `d` of 30_encoding.md R90 (READ has none); the bus cycles
that write carry the logical byte SEQ drives (log 12); operation rows carry every field of the request word, used or
not, because the latches take them all (30_encoding.md R94, log 18). -/
inductive Instr where
  /-- MODE d (R150). -/
  | mode (d : Byte)
  /-- PITCH d (R151). -/
  | pitch (d : Byte)
  /-- NCHR d (R152). -/
  | nchr (d : Byte)
  /-- TDIV d (R153). -/
  | tdiv (d : Byte)
  /-- START_LO d (R154). -/
  | startLo (d : Byte)
  /-- START_HI d (R155). -/
  | startHi (d : Byte)
  /-- CUR_LO d (R156). -/
  | curLo (d : Byte)
  /-- CUR_HI d (R157). -/
  | curHi (d : Byte)
  /-- WRITE d (R158). -/
  | write (d : Byte)
  /-- READ (R159). -/
  | read
  /-- CLEAR_BIT d (R160). -/
  | clearBit (d : Byte)
  /-- SET_BIT d (R161). -/
  | setBit (d : Byte)
  /-- Command code 0x4, reserved (R99, R162). -/
  | reservedCmd4 (d : Byte)
  /-- Command code 0x5, reserved (R99, R162). -/
  | reservedCmd5 (d : Byte)
  /-- Command code 0x6, reserved (R99, R162). -/
  | reservedCmd6 (d : Byte)
  /-- Command code 0x7, reserved (R99, R162). -/
  | reservedCmd7 (d : Byte)
  /-- IRW, instruction write cycle (R127). -/
  | irw (db : Byte)
  /-- STR, status read cycle (R128). -/
  | str
  /-- DWR, data write cycle (R129). -/
  | dwr (db : Byte)
  /-- DRD, data read cycle (R130). -/
  | drd
  /-- INIT (R195). -/
  | init (x y : BitVec 16) (d : Byte)
  /-- MOVE x, y (R180). -/
  | move (x y : BitVec 16) (d : Byte)
  /-- DRAW_BYTE b (R190). -/
  | drawByte (x y : BitVec 16) (d : Byte)
  /-- PLOT_BYTE x, y, b (R192). -/
  | plotByte (x y : BitVec 16) (d : Byte)
  /-- PLOT_PIXEL x, y, s (R193). -/
  | plotPixel (x y : BitVec 16) (d : Byte)
  /-- CLEAR (R194). -/
  | clear (x y : BitVec 16) (d : Byte)
  /-- READ_BYTE (R191). -/
  | readByte (x y : BitVec 16) (d : Byte)
  /-- SCROLL_UP n, n in the y field (R210). -/
  | scrollUp (x y : BitVec 16) (d : Byte)
  /-- Operation code 0x8, reserved (R100). -/
  | reservedOp8 (x y : BitVec 16) (d : Byte)
  /-- Operation code 0x9, reserved (R100). -/
  | reservedOp9 (x y : BitVec 16) (d : Byte)
  /-- Operation code 0xA, reserved (R100). -/
  | reservedOpA (x y : BitVec 16) (d : Byte)
  /-- Operation code 0xB, reserved (R100). -/
  | reservedOpB (x y : BitVec 16) (d : Byte)
  /-- Operation code 0xC, reserved (R100). -/
  | reservedOpC (x y : BitVec 16) (d : Byte)
  /-- Operation code 0xD, reserved (R100). -/
  | reservedOpD (x y : BitVec 16) (d : Byte)
  /-- Operation code 0xE, reserved (R100). -/
  | reservedOpE (x y : BitVec 16) (d : Byte)
  /-- Operation code 0xF, reserved (R100). -/
  | reservedOpF (x y : BitVec 16) (d : Byte)
  deriving DecidableEq, Repr

end Sys2Proof
end

