-- ==== Sys2Proof/WellFormed.lean ====
section
/-! DEFINITION. Which instructions the spec gives a meaning: no reserved code, no undefined pixel state.
Operand widths are in the types of Syntax, so these are the only checks. The others are instructions too (the
decoder reads them, the machine stops on them by name, as 30_encoding.md R99 to R101 say). -/

namespace Sys2Proof

/-- The command code is one the document names (30_encoding.md R99). -/
def Instr.namedCommand : Instr → Bool
  | .reservedCmd4 _ | .reservedCmd5 _ | .reservedCmd6 _ | .reservedCmd7 _ => false
  | _ => true

/-- The operation code is one the document names (30_encoding.md R100). -/
def Instr.namedOperation : Instr → Bool
  | .reservedOp8 .. | .reservedOp9 .. | .reservedOpA .. | .reservedOpB .. => false
  | .reservedOpC .. | .reservedOpD .. | .reservedOpE .. | .reservedOpF .. => false
  | _ => true

/-- A pixel state is one of the two recognised values (30_encoding.md R101). -/
def Instr.pixelStateDefined : Instr → Bool
  | .plotPixel _ _ d => d == 0 || d == 1
  | _ => true

/-- The spec gives the instruction a meaning. -/
def Instr.wellFormed (i : Instr) : Bool :=
  i.namedCommand && i.namedOperation && i.pixelStateDefined

/-- The instruction is an operation request, the only thing a host of the spec presents (30_encoding.md R94, R95). -/
def Instr.isOperation : Instr → Bool
  | .init .. | .move .. | .drawByte .. | .plotByte .. | .plotPixel .. | .clear .. | .readByte .. | .scrollUp .. => true
  | .reservedOp8 .. | .reservedOp9 .. | .reservedOpA .. | .reservedOpB .. => true
  | .reservedOpC .. | .reservedOpD .. | .reservedOpE .. | .reservedOpF .. => true
  | _ => false

/-- The instruction is a bus cycle on its own (30_encoding.md R91). -/
def Instr.isBusCycle : Instr → Bool
  | .irw _ | .str | .dwr _ | .drd => true
  | _ => false

end Sys2Proof
end

