-- ==== Sys2Proof/Decode.lean ====
section
/-! DEFINITION. The command code table (30_encoding.md R92) as data, the decoder of the three formats, total on any
packet and rejecting by name, and the encoder written from the same tables. -/

namespace Sys2Proof

/-- The command codes of 30_encoding.md R92, as data. Codes not listed are reserved (R99). -/
def commandTable : List (BitVec 4 × Command) :=
  [(0x0, .mode), (0x1, .pitch), (0x2, .nchr), (0x3, .tdiv), (0x8, .startLo), (0x9, .startHi),
   (0xA, .curLo), (0xB, .curHi), (0xC, .write), (0xD, .read), (0xE, .clearBit), (0xF, .setBit)]

/-- The command a 4-bit code names; none where the code is reserved (30_encoding.md R92, R99). -/
def commandOf (c : BitVec 4) : Option Command := (commandTable.find? (·.1 == c)).map (·.2)

/-- The code of a command (30_encoding.md R92). -/
def codeOf (k : Command) : BitVec 4 := ((commandTable.find? (·.2 == k)).map (·.1)).getD 0

/-- Why a packet is no word of its format. -/
inductive DecodeError where
  /-- A bit is set above the format's width (12 for T, 2 and an operand byte for C, 44 for OP). -/
  | overlong (f : Format)
  /-- A bit is set between the two bits {RS, RW} of a bus cycle and its operand byte (log 12). -/
  | padding
  /-- A read cycle carries an operand byte (log 12). -/
  | operandOnRead
  deriving DecidableEq, Repr

/-- `v[lo+n-1 : lo]` as an unsigned number (00_scope.md section 5). -/
def field (v lo n : Nat) : Nat := v / 2 ^ lo % 2 ^ n

/-- The instruction a command code and its operand stand for (30_encoding.md R92, R99). -/
def transactionOf (c : BitVec 4) (d : Byte) : Instr :=
  match commandOf c with
  | some .mode => .mode d
  | some .pitch => .pitch d
  | some .nchr => .nchr d
  | some .tdiv => .tdiv d
  | some .startLo => .startLo d
  | some .startHi => .startHi d
  | some .curLo => .curLo d
  | some .curHi => .curHi d
  | some .write => .write d
  | some .read => .read
  | some .clearBit => .clearBit d
  | some .setBit => .setBit d
  | none =>
    if c = 4 then .reservedCmd4 d else if c = 5 then .reservedCmd5 d
    else if c = 6 then .reservedCmd6 d else .reservedCmd7 d

/-- Format T (30_encoding.md R90): `{c[3:0], d[7:0]}`. READ ignores its d field. -/
def decodeT (v : Nat) : Except DecodeError Instr :=
  if v < 2 ^ 12 then .ok (transactionOf (BitVec.ofNat 4 (field v 8 4)) (BitVec.ofNat 8 (field v 0 8)))
  else .error (.overlong .t)

/-- Format C (30_encoding.md R91): bits 1:0 are `{RS, RW}`; bits 15:8 the byte a write cycle drives (log 12). -/
def decodeC (v : Nat) : Except DecodeError Instr :=
  let db := BitVec.ofNat 8 (field v 8 8)
  if 2 ^ 16 ≤ v then .error (.overlong .c)
  else if field v 2 6 ≠ 0 then .error .padding
  else match field v 0 2 with
    | 0 => .ok (.dwr db)
    | 1 => if field v 8 8 = 0 then .ok .drd else .error .operandOnRead
    | 2 => .ok (.irw db)
    | _ => if field v 8 8 = 0 then .ok .str else .error .operandOnRead

/-- The instruction an operation code and its fields stand for (30_encoding.md R95, R100). -/
def operationOf (opc : Nat) (x y : BitVec 16) (d : Byte) : Instr :=
  match opc with
  | 0x0 => .init x y d
  | 0x1 => .move x y d
  | 0x2 => .drawByte x y d
  | 0x3 => .plotByte x y d
  | 0x4 => .plotPixel x y d
  | 0x5 => .clear x y d
  | 0x6 => .readByte x y d
  | 0x7 => .scrollUp x y d
  | 0x8 => .reservedOp8 x y d
  | 0x9 => .reservedOp9 x y d
  | 0xA => .reservedOpA x y d
  | 0xB => .reservedOpB x y d
  | 0xC => .reservedOpC x y d
  | 0xD => .reservedOpD x y d
  | 0xE => .reservedOpE x y d
  | _ => .reservedOpF x y d

/-- Format OP (30_encoding.md R94): `{opc[3:0], x[15:0], y[15:0], d[7:0]}`. -/
def decodeOp (v : Nat) : Except DecodeError Instr :=
  if v < 2 ^ 44 then
    .ok (operationOf (field v 40 4) (BitVec.ofNat 16 (field v 24 16)) (BitVec.ofNat 16 (field v 8 16))
      (BitVec.ofNat 8 (field v 0 8)))
  else .error (.overlong .op)

/-- The decoder: total on any packet. -/
def decode (p : Packet) : Except DecodeError Instr :=
  match p.fmt with
  | .t => decodeT p.bits
  | .c => decodeC p.bits
  | .op => decodeOp p.bits

/-- The packet that carries bits laid out in the host's opcode table, by the table's own length of the row: 2 bits in
one byte, 12 in two, 44 in six. -/
def packetOf (nbits w : Nat) : Packet :=
  if nbits ≤ 8 then ⟨.c, w⟩ else if nbits ≤ 16 then ⟨.t, w⟩ else ⟨.op, w⟩

/-- The instruction the decoder reads from a row's bits; none where it refuses. -/
def decodeTableWord (nbits w : Nat) : Option Instr := (decode (packetOf nbits w)).toOption

/-- A word of format T (30_encoding.md R90). -/
def wordT (c : BitVec 4) (d : Byte) : Packet := ⟨.t, c.toNat * 2 ^ 8 + d.toNat⟩

/-- A word of format C with the byte driven (30_encoding.md R91, log 12). -/
def wordC (rsrw : Nat) (db : Byte) : Packet := ⟨.c, db.toNat * 2 ^ 8 + rsrw⟩

/-- A word of format OP (30_encoding.md R94). -/
def wordOp (opc : Nat) (x y : BitVec 16) (d : Byte) : Packet :=
  ⟨.op, opc * 2 ^ 40 + x.toNat * 2 ^ 24 + y.toNat * 2 ^ 8 + d.toNat⟩

/-- The encoder (30_encoding.md R91, R92, R95, R99, R100). READ's ignored field is written as zero. -/
def encode : Instr → Packet
  | .mode d => wordT (codeOf .mode) d
  | .pitch d => wordT (codeOf .pitch) d
  | .nchr d => wordT (codeOf .nchr) d
  | .tdiv d => wordT (codeOf .tdiv) d
  | .startLo d => wordT (codeOf .startLo) d
  | .startHi d => wordT (codeOf .startHi) d
  | .curLo d => wordT (codeOf .curLo) d
  | .curHi d => wordT (codeOf .curHi) d
  | .write d => wordT (codeOf .write) d
  | .read => wordT (codeOf .read) 0
  | .clearBit d => wordT (codeOf .clearBit) d
  | .setBit d => wordT (codeOf .setBit) d
  | .reservedCmd4 d => wordT 4 d
  | .reservedCmd5 d => wordT 5 d
  | .reservedCmd6 d => wordT 6 d
  | .reservedCmd7 d => wordT 7 d
  | .irw db => wordC 2 db
  | .str => wordC 3 0
  | .dwr db => wordC 0 db
  | .drd => wordC 1 0
  | .init x y d => wordOp 0x0 x y d
  | .move x y d => wordOp 0x1 x y d
  | .drawByte x y d => wordOp 0x2 x y d
  | .plotByte x y d => wordOp 0x3 x y d
  | .plotPixel x y d => wordOp 0x4 x y d
  | .clear x y d => wordOp 0x5 x y d
  | .readByte x y d => wordOp 0x6 x y d
  | .scrollUp x y d => wordOp 0x7 x y d
  | .reservedOp8 x y d => wordOp 0x8 x y d
  | .reservedOp9 x y d => wordOp 0x9 x y d
  | .reservedOpA x y d => wordOp 0xA x y d
  | .reservedOpB x y d => wordOp 0xB x y d
  | .reservedOpC x y d => wordOp 0xC x y d
  | .reservedOpD x y d => wordOp 0xD x y d
  | .reservedOpE x y d => wordOp 0xE x y d
  | .reservedOpF x y d => wordOp 0xF x y d

end Sys2Proof
end

