-- ==== Sys2Proof/Machine/State.lean ====
section
/-! DEFINITION. The state of the block as plain data: CTL (10_state.md section 1), SEQ (section 2), the parameters
(00_scope.md R6, R8), and the model's own fields; the reasons a step stops; the state after power-on reset (section 4). -/

namespace Sys2Proof.Machine

/-- Direction of SEQ's data-line drivers (10_state.md R31). -/
inductive Dir where
  | out | inp
  deriving DecidableEq, Repr

/-- SEQST (10_state.md R35): `running i` holds the index of the next transaction of the list in execution. -/
inductive SeqState where
  | idle
  | running (i : Nat)
  deriving DecidableEq, Repr

/-- One entry of a transaction list (44_scroll_engine.md R220): what SEQ sends, or where it puts what it receives. -/
inductive Tx where
  /-- `send(c, d)` (40_bus_transport.md R123). -/
  | send (c : BitVec 4) (d : Byte)
  /-- `draw_byte(LB[k])` (44_scroll_engine.md R211). -/
  | sendLb (k : Nat)
  /-- `receive()` as a statement of its own (30_encoding.md R104): the byte is in `smp`. -/
  | recv
  /-- `LB[k] <- receive()` (44_scroll_engine.md R211). -/
  | recvLb (k : Nat)
  /-- `RES <- receive()` (43_framebuffer_ops.md R191). -/
  | recvRes
  deriving DecidableEq, Repr

/-- A transaction statement in execution (log 13): one `send` or one `receive` (30_encoding.md R104). -/
inductive RawTx where
  | send (c : BitVec 4) (d : Byte)
  | recv
  deriving DecidableEq, Repr

/-- The agent a step belongs to (00_scope.md R10, log 8): the host and SEQ, of which one alone can move (10_state.md R35),
or CTL with its completion step. -/
inductive Turn where
  | seq
  | ctl
  deriving DecidableEq, Repr

/-- Display memory: the cells something has written, by rising cell number (log 5). -/
abbrev Memory := List Host.Cell

/-- The canonical form: cell numbers strictly rising. A cell that is not listed has no fixed value (10_state.md R40),
so no listed byte can equal what it would read as. -/
abbrev Memory.wf (m : Memory) : Prop := m.Pairwise (fun a b => a.1 < b.1)

/-- CTL, the controller core (10_state.md R20 to R29). -/
structure Ctl where
  /-- CUR (R20). -/
  cur       : Addr
  /-- MEM (R21). -/
  mem       : Memory
  /-- IR (R22). -/
  ir        : BitVec 4
  /-- BF (R23). -/
  bf        : Bool
  /-- MODE (R24). -/
  mode      : Byte
  /-- PITCH (R25). -/
  pitch     : Byte
  /-- NCHR (R26). -/
  nchr      : Byte
  /-- TDIV (R27). -/
  tdiv      : Byte
  /-- START (R28). -/
  start     : BitVec 16
  /-- The model's own (log 16): a data phase has happened and no command phase since (40_bus_transport.md R133). -/
  phaseDone : Bool
  /-- The model's own (log 17): a MODE command has been executed since reset (43_framebuffer_ops.md R196). -/
  modeSeen  : Bool
  deriving DecidableEq, Repr

/-- The lines SEQ drives (10_state.md R30 to R32). -/
structure Pins where
  rs   : Bool
  rw   : Bool
  e    : Bool
  dir  : Dir
  dout : Byte
  deriving DecidableEq, Repr

/-- The operand latches OPC, X, Y, D (10_state.md R33). -/
structure Latches where
  opc : BitVec 4
  x   : BitVec 16
  y   : BitVec 16
  d   : Byte
  deriving DecidableEq, Repr

/-- The whole state. -/
structure State where
  params     : Params
  ctl        : Ctl
  pins       : Pins
  latch      : Latches
  /-- LB (10_state.md R34). -/
  lb         : List Byte
  /-- SEQST (10_state.md R35). -/
  seqst      : SeqState
  /-- RES (10_state.md R36). -/
  res        : Byte
  /-- The model's own (log 14): the last logical byte SEQ sampled. -/
  smp        : Byte
  /-- The model's own (log 13): the transaction statement in execution. -/
  rawTx      : Option RawTx
  /-- The host agent (00_scope.md R10, log 11): its statements still to be presented. -/
  program    : List Packet
  /-- Free values (log 8): whose each coming step is (00_scope.md R10). A step taken at such a turn is one agent's atomic
  step (00_scope.md R11, log 9); with no turn listed, a step is all the atomic steps a request takes. -/
  turns      : List Turn
  /-- Free value (log 8): whether CTL completes whenever it is polled after the turns listed, or never again (60_exceptions.md
  R231). -/
  responsive : Bool
  /-- The counter `Config.any8` is drawn with (log 7). -/
  draws      : Nat
  /-- The counter `Config.statusBits` is drawn with: the status bytes sampled (log 7). -/
  samples    : Nat
  deriving DecidableEq, Repr

/-- Protocol faults: CTL was driven outside the protocol, nothing after it is specified (60_exceptions.md R230, log 25).
Stopping is safe: the spec gives no state after any of them. -/
inductive Fault where
  /-- An IRW, DWR or DRD cycle with BF = 1 (40_bus_transport.md R132). Raised by the bus cycle instructions. Safe. -/
  | transferWhileBusy
  /-- A DWR cycle with IR reserved (R129, 30_encoding.md R99). Raised by RESERVED_CMD_4 to 7 and DWR. Safe. -/
  | reservedCommand
  /-- A DWR cycle with IR = READ (R129). Raised by DWR. Safe. -/
  | writePhaseAfterRead
  /-- A DRD cycle with IR other than READ (R130). Raised by DRD. Safe. -/
  | readPhaseWithoutReadCommand
  /-- A second data phase with no IRW between (R133). Raised by DWR and DRD. Safe. -/
  | burstNotSupported
  deriving DecidableEq, Repr

/-- Refusals: the request has no meaning and no state changes (60_exceptions.md R230). -/
inductive Refusal where
  /-- An arm of exec without a meaning; no arm of this model is one. Safe. -/
  | notModelled (mnemonic : String)
  /-- Parameters that break 00_scope.md R6 or R7. Raised by step. Safe. -/
  | badConfiguration
  /-- A request with SEQST not IDLE (R238). Raised by every meaning. Safe. -/
  | busySequencer
  /-- An operation code 0x8 to 0xF (30_encoding.md R100). Raised by the reserved operations. Safe. -/
  | reservedOperation
  /-- A pixel state other than 0 and 1 (30_encoding.md R101). Raised by PLOT_PIXEL. Safe. -/
  | undefinedPixelState
  /-- A packet that is no word of its format. Raised by step (log 12). Safe. -/
  | undecodable (e : DecodeError)
  deriving DecidableEq, Repr

/-- The answer of a meaning. -/
abbrev Answer := Host.Outcome State Fault Refusal

/-- The idle condition of the lines (40_bus_transport.md R125, 10_state.md R41), DOUT as given. -/
def Pins.idle (dout : Byte) : Pins := ⟨false, false, false, .out, dout⟩

/-- Power-on reset (10_state.md R41, R42). SEQST, DIR, RS, RW, E are the spec's; every other register is a named zero
(log 3, log 4), memory lists nothing (log 5), the parameters are the geometry G1 of 95_test_vectors.md with the spec's
informative defaults (log 1, log 2), the free-value fields are named in log 7 and log 8. -/
def State.reset : State where
  params     := { width := 16, height := 4, reversed := false, bitopAdvance := true,
                  initMode := 0x32, initPitch := 0x07, initTdiv := 0x03 }
  ctl        := { cur := 0, mem := [], ir := 0, bf := false, mode := 0, pitch := 0, nchr := 0, tdiv := 0, start := 0,
                  phaseDone := false, modeSeen := false }
  pins       := Pins.idle 0
  latch      := { opc := 0, x := 0, y := 0, d := 0 }
  lb         := [0, 0]
  seqst      := .idle
  res        := 0
  smp        := 0
  rawTx      := none
  program    := []
  turns      := []
  responsive := true
  draws      := 0
  samples    := 0

end Sys2Proof.Machine
end

