-- ==== Sys2Proof/Machine/Operands.lean ====
section
/-! DEFINITION. Derived constants (00_scope.md R7), operand assembly (30_encoding.md section 3), the bit and half-word
arithmetic of the commands (41_controller_commands.md), and the transaction lists of the operations (42, 43, 44).
The block has one addressing mode, the cursor; every operand of a transaction is assembled here. -/

namespace Sys2Proof.Machine

/-- BPR (00_scope.md R7). -/
def bpr (p : Params) : Nat := p.width / 8

/-- SURFACE_BYTES (00_scope.md R7). -/
def surfaceBytes (p : Params) : Nat := p.width * p.height / 8

/-- The parameters meet 00_scope.md R6 and R7. -/
def paramsOk (p : Params) : Bool :=
  0 < p.width && p.width % 8 == 0 && 0 < p.height && bpr p - 1 ≤ 255 && surfaceBytes p ≤ 65536

/-- `rev8` (40_bus_transport.md R120): bit i of the result is bit 7-i. -/
def rev8 (b : Byte) : Byte :=
  BitVec.ofBool (b.getLsbD 0) ++ BitVec.ofBool (b.getLsbD 1) ++ BitVec.ofBool (b.getLsbD 2) ++ BitVec.ofBool (b.getLsbD 3) ++
  BitVec.ofBool (b.getLsbD 4) ++ BitVec.ofBool (b.getLsbD 5) ++ BitVec.ofBool (b.getLsbD 6) ++ BitVec.ofBool (b.getLsbD 7)

/-- `wire` (40_bus_transport.md R120). -/
def wire (p : Params) (b : Byte) : Byte := if p.reversed then rev8 b else b

/-- The command byte on the lines (30_encoding.md R93): the upper four bits are 0. -/
def commandByte (c : BitVec 4) : Byte := c.setWidth 8

/-- What CTL latches of it (40_bus_transport.md R127): bits 3:0. -/
def commandBits (b : Byte) : BitVec 4 := b.setWidth 4

/-- The high half `v[15:8]`. -/
def hiByte (v : BitVec 16) : Byte := v.extractLsb' 8 8

/-- The low half `v[7:0]`. -/
def loByte (v : BitVec 16) : Byte := v.extractLsb' 0 8

/-- Replace the low half, keep the high half (41_controller_commands.md R154, R156). -/
def setLo (v : BitVec 16) (d : Byte) : BitVec 16 := hiByte v ++ d

/-- Replace the high half, keep the low half (41_controller_commands.md R155, R157). -/
def setHi (v : BitVec 16) (d : Byte) : BitVec 16 := d ++ loByte v

/-- Cursor advance (41_controller_commands.md R163). -/
def advance (a : Addr) : Addr := a + 1

/-- The bit number of CLEAR_BIT and SET_BIT: `d[2:0]`, bits 7:3 ignored (30_encoding.md R97). -/
def bitNumber (d : Byte) : Nat := d.toNat % 8

/-- `b | (1 << k)` (41_controller_commands.md R161). -/
def withBitSet (b : Byte) (k : Nat) : Byte := b ||| ((1 : Byte) <<< k)

/-- `b & ~(1 << k)` (41_controller_commands.md R160). -/
def withBitClear (b : Byte) (k : Nat) : Byte := b &&& ~~~((1 : Byte) <<< k)

/-- `MEM_MAP` (20_memory.md R69): the identity on the surface, open above it. -/
def memMap (p : Params) (a : Addr) : Nat := if a.toNat < surfaceBytes p then a.toNat else Config.offSurfaceCell a

/-- `pos` (42_cursor_addressing.md R180, R181), over the naturals. -/
def pos (p : Params) (x y : Nat) : Nat := (y * p.width + x) / 8

/-- The operand of CUR_LO (30_encoding.md R96). -/
def posLo (n : Nat) : Byte := BitVec.ofNat 8 n

/-- The operand of CUR_HI (30_encoding.md R96). -/
def posHi (n : Nat) : Byte := BitVec.ofNat 8 (n / 256)

/-- The bit operand `x mod 8` (30_encoding.md R97). -/
def bitOperand (x : Nat) : Byte := BitVec.ofNat 8 (x % 8)

/-- The operand BPR - 1 of NCHR in INIT (30_encoding.md R98). -/
def nchrOperand (p : Params) : Byte := BitVec.ofNat 8 (bpr p - 1)

/-- A `send` of a named command. -/
def sendOf (k : Command) (d : Byte) : Tx := .send (codeOf k) d

/-- The transaction of a transaction statement. -/
def RawTx.tx : RawTx → Tx
  | .send c d => .send c d
  | .recv => .recv

/-- `move(x, y)` (42_cursor_addressing.md R180): low half, then high half. -/
def moveTxs (p : Params) (x y : Nat) : List Tx :=
  [sendOf .curLo (posLo (pos p x y)), sendOf .curHi (posHi (pos p x y))]

/-- `draw_byte(b)` (43_framebuffer_ops.md R190). -/
def drawByteTxs (b : Byte) : List Tx := [sendOf .write b]

/-- `read_byte()` (43_framebuffer_ops.md R191). -/
def readByteTxs : List Tx := [.recvRes]

/-- `plot_byte(x, y, b)` (43_framebuffer_ops.md R192). -/
def plotByteTxs (p : Params) (x y : Nat) (b : Byte) : List Tx := moveTxs p x y ++ drawByteTxs b

/-- `plot_pixel(x, y, s)` for a recognised state (43_framebuffer_ops.md R193). -/
def plotPixelTxs (p : Params) (x y : Nat) (s : Byte) : List Tx :=
  moveTxs p x y ++ [sendOf (if s = 1 then .setBit else .clearBit) (bitOperand x)]

/-- `draw_byte(0)`, n times. -/
def zeroTxs (n : Nat) : List Tx := List.replicate n (sendOf .write 0)

/-- `clear()` (43_framebuffer_ops.md R194). -/
def clearTxs (p : Params) : List Tx := moveTxs p 0 0 ++ zeroTxs (surfaceBytes p)

/-- `init()` (43_framebuffer_ops.md R195). -/
def initTxs (p : Params) : List Tx :=
  [sendOf .mode p.initMode, sendOf .pitch p.initPitch, sendOf .nchr (nchrOperand p), sendOf .tdiv p.initTdiv,
   sendOf .startLo 0, sendOf .startHi 0, sendOf .curLo 0, sendOf .curHi 0]

/-- One iteration of the relocation pass (44_scroll_engine.md R211): row j + n into LB, LB to row j. -/
def relocateRowTxs (p : Params) (n j : Nat) : List Tx :=
  moveTxs p 0 (j + n) ++ (List.range (bpr p)).map .recvLb ++ moveTxs p 0 j ++ (List.range (bpr p)).map .sendLb

/-- The relocation pass (44_scroll_engine.md R211): rows ascending, the bound saturating (R214). -/
def relocateTxs (p : Params) (n : Nat) : List Tx := (List.range (p.height - n)).flatMap (relocateRowTxs p n)

/-- The blank pass (44_scroll_engine.md R212). -/
def blankTxs (p : Params) (n : Nat) : List Tx :=
  moveTxs p 0 (p.height - min n p.height) ++ zeroTxs (min n p.height * bpr p)

/-- `scroll_up(n)` (44_scroll_engine.md R210); the test for 0 comes first (R213). -/
def scrollUpTxs (p : Params) (n : Nat) : List Tx := if n = 0 then [] else relocateTxs p n ++ blankTxs p n

/-- The transaction list of the operation in the latches (10_state.md R35, 44_scroll_engine.md R220). A reserved code
has none (30_encoding.md R100); it is never latched. -/
def operationTxs (p : Params) (l : Latches) : List Tx :=
  match l.opc.toNat with
  | 0x0 => initTxs p
  | 0x1 => moveTxs p l.x.toNat l.y.toNat
  | 0x2 => drawByteTxs l.d
  | 0x3 => plotByteTxs p l.x.toNat l.y.toNat l.d
  | 0x4 => plotPixelTxs p l.x.toNat l.y.toNat l.d
  | 0x5 => clearTxs p
  | 0x6 => readByteTxs
  | 0x7 => scrollUpTxs p l.y.toNat
  | _ => []

/-- The list in execution: the transaction statement if there is one, else the latched operation's (log 13). -/
def currentTxs (s : State) : List Tx :=
  match s.rawTx with
  | some r => [r.tx]
  | none => operationTxs s.params s.latch

end Sys2Proof.Machine
end

