-- ==== Sys2Proof/Machine/Flags.lean ====
section
/-! DEFINITION. The block's one flag, BF (10_state.md R23): when it sets, when it clears, and how it reads. -/

namespace Sys2Proof.Machine

/-- The end of a data phase (40_bus_transport.md R131): BF <- 1. The model notes that a data phase has happened (log 16). -/
def endDataPhase (c : Ctl) : Ctl := { c with bf := true, phaseDone := true }

/-- The status byte (30_encoding.md R106): bit 7 is BF, bits 6:0 are those of a free byte. -/
def statusByte (bf : Bool) (free : Byte) : Byte := BitVec.ofBool bf ++ free.extractLsb' 0 7

/-- CTL's completion step (40_bus_transport.md R131): BF <- 0, and nothing else; where BF is 0 already it is no step. -/
def ctlCompletion (s : State) : State := { s with ctl := { s.ctl with bf := false } }

/-- What CTL has done when the host next acts (log 10): with turns listed it moves at its own turns alone; with none, a
responsive CTL has completed. -/
def settled (s : State) : State := if s.turns = [] ∧ s.responsive = true then ctlCompletion s else s

end Sys2Proof.Machine
end

