-- ==== Sys2Proof/Machine/Ops.lean ====
section
/-! DEFINITION. The named operations over memory and registers: sequencing of answers, the free bytes, the memory
primitives (20_memory.md R63), the data lines (10_state.md R32), and configuration stores.
The block takes no exception and returns from none (60_exceptions.md R230, R234, R235): there is no such operation. -/

namespace Sys2Proof.Machine

/-- Go on from a next state; a fault or a refusal stays. -/
def andThen (o : Answer) (f : State → Answer) : Answer :=
  match o with
  | .next s => f s
  | .fault r => .fault r
  | .refused r => .refused r

/-- An answer with a function applied to its next state. -/
def mapNext (f : State → State) (o : Answer) : Answer := andThen o fun s => .next (f s)

/-- `any8` (00_scope.md section 5): a fresh free byte, and the state with the draw counted (log 7). -/
def any8 (s : State) : Byte × State := (Config.any8 s.draws, { s with draws := s.draws + 1 })

/-- The byte of a cell; none where nothing has written it. -/
def Memory.get (m : Memory) (a : Nat) : Option Byte := (m.find? (·.1 == a)).map (·.2)

/-- Store a byte in a cell, keeping the cells in rising order. -/
def Memory.put : Memory → Nat → Byte → Memory
  | [], a, v => [(a, v)]
  | c :: m, a, v => if a < c.1 then (a, v) :: c :: m else if a = c.1 then (a, v) :: m else c :: Memory.put m a v

/-- `MemRead(a, 1)` (20_memory.md R63): a cell nothing has written reads as a fresh free byte (10_state.md R40, log 5). -/
def memRead (s : State) (a : Addr) : Byte × State :=
  match s.ctl.mem.get (memMap s.params a) with
  | some v => (v, s)
  | none => any8 s

/-- `MemWrite(a, 1, v)` (20_memory.md R63). -/
def memWrite (s : State) (a : Addr) (v : Byte) : State :=
  { s with ctl := { s.ctl with mem := s.ctl.mem.put (memMap s.params a) v } }

/-- `CUR <- CUR + 1 mod 2^16` (41_controller_commands.md R163). -/
def advanceCur (s : State) : State := { s with ctl := { s.ctl with cur := advance s.ctl.cur } }

/-- The byte on the data lines (10_state.md R32): SEQ's while DIR = OUT, CTL's while SEQ reads with E asserted,
otherwise undriven and any value. -/
def dataLines (driven : Byte) (s : State) : Byte × State :=
  match s.pins.dir with
  | .out => (s.pins.dout, s)
  | .inp => if s.pins.e && s.pins.rw then (driven, s) else any8 s

/-- After geometry before MODE the configuration is unspecified (43_framebuffer_ops.md R196): every configuration
register takes a free byte (log 17). -/
def unspecifiedConfiguration (s : State) : State :=
  let n := s.draws
  { s with
    ctl := { s.ctl with
      mode := Config.any8 n, pitch := Config.any8 (n + 1), nchr := Config.any8 (n + 2), tdiv := Config.any8 (n + 3),
      start := Config.any8 (n + 4) ++ Config.any8 (n + 5) }
    draws := n + 6 }

/-- A geometry command (PITCH, NCHR, TDIV): its store if MODE has come first, else the unspecified configuration
(43_framebuffer_ops.md R196). -/
def geometryStore (s : State) (store : Ctl → Ctl) : State :=
  if s.ctl.modeSeen then { s with ctl := store s.ctl } else unspecifiedConfiguration s

end Sys2Proof.Machine
end

