-- ==== Sys2Proof/Machine/Ctl.lean ====
section
/-! DEFINITION. What CTL does for each command (41_controller_commands.md), and its response to each bus cycle
(40_bus_transport.md section 2). -/

namespace Sys2Proof.Machine

/-- MODE (R150). -/
def ctlMode (d : Byte) (s : State) : State := { s with ctl := { s.ctl with mode := d, modeSeen := true } }

/-- PITCH (R151). -/
def ctlPitch (d : Byte) (s : State) : State := geometryStore s fun c => { c with pitch := d }

/-- NCHR (R152). -/
def ctlNchr (d : Byte) (s : State) : State := geometryStore s fun c => { c with nchr := d }

/-- TDIV (R153). -/
def ctlTdiv (d : Byte) (s : State) : State := geometryStore s fun c => { c with tdiv := d }

/-- START_LO (R154). -/
def ctlStartLo (d : Byte) (s : State) : State := { s with ctl := { s.ctl with start := setLo s.ctl.start d } }

/-- START_HI (R155). -/
def ctlStartHi (d : Byte) (s : State) : State := { s with ctl := { s.ctl with start := setHi s.ctl.start d } }

/-- CUR_LO (R156). -/
def ctlCurLo (d : Byte) (s : State) : State := { s with ctl := { s.ctl with cur := setLo s.ctl.cur d } }

/-- CUR_HI (R157). -/
def ctlCurHi (d : Byte) (s : State) : State := { s with ctl := { s.ctl with cur := setHi s.ctl.cur d } }

/-- WRITE (R158). -/
def ctlWrite (d : Byte) (s : State) : State := advanceCur (memWrite s s.ctl.cur d)

/-- A bit command: read, change, write in one step, then advance if BITOP_ADVANCE (R160, R161, 20_memory.md R75).
A free byte read from an unwritten cell is what is changed and stored (log 19). -/
def ctlBitOp (f : Byte → Byte) (s : State) : State :=
  let (b, s1) := memRead s s.ctl.cur
  let s2 := memWrite s1 s.ctl.cur (f b)
  if s.params.bitopAdvance then advanceCur s2 else s2

/-- CLEAR_BIT (R160). -/
def ctlClearBit (d : Byte) (s : State) : State := ctlBitOp (withBitClear · (bitNumber d)) s

/-- SET_BIT (R161). -/
def ctlSetBit (d : Byte) (s : State) : State := ctlBitOp (withBitSet · (bitNumber d)) s

/-- `exec(IR, d)` in a DWR cycle (40_bus_transport.md R129): the effect of a command; none for READ, whose effect is
that of the DRD cycle (R130). -/
def ctlExec (k : Command) (d : Byte) (s : State) : State :=
  match k with
  | .mode => ctlMode d s
  | .pitch => ctlPitch d s
  | .nchr => ctlNchr d s
  | .tdiv => ctlTdiv d s
  | .startLo => ctlStartLo d s
  | .startHi => ctlStartHi d s
  | .curLo => ctlCurLo d s
  | .curHi => ctlCurHi d s
  | .write => ctlWrite d s
  | .read => s
  | .clearBit => ctlClearBit d s
  | .setBit => ctlSetBit d s

/-- E <- 0 (40_bus_transport.md R121). -/
def deassertE (s : State) : State := { s with pins := { s.pins with e := false } }

/-- E <- 1 (40_bus_transport.md R121). -/
def assertE (s : State) : State := { s with pins := { s.pins with e := true } }

/-- One status sample (40_bus_transport.md R128): CTL drives the status byte, bits 6:0 of it free (log 7), SEQ samples the
lines. -/
def statusSample (s : State) : State :=
  let (db, s1) := dataLines (wire s.params (statusByte s.ctl.bf (Config.statusBits s.samples))) s
  { s1 with smp := wire s.params db, samples := s.samples + 1 }

/-- IRW (40_bus_transport.md R127): latch the command; BF does not set. -/
def cycleIrw (s : State) : Answer :=
  if s.ctl.bf then .fault .transferWhileBusy
  else
    let (db, s1) := dataLines 0 s
    .next { s1 with ctl := { s1.ctl with ir := commandBits (wire s.params db), phaseDone := false } }

/-- DWR (40_bus_transport.md R129, R132, R133): execute the command in IR. -/
def cycleDwr (s : State) : Answer :=
  if s.ctl.bf then .fault .transferWhileBusy
  else match commandOf s.ctl.ir with
    | none => .fault .reservedCommand
    | some k =>
      if k = .read then .fault .writePhaseAfterRead
      else if s.ctl.phaseDone then .fault .burstNotSupported
      else
        let (db, s1) := dataLines 0 s
        let s2 := ctlExec k (wire s.params db) s1
        .next { s2 with ctl := endDataPhase s2.ctl }

/-- DRD (40_bus_transport.md R130, R132, R133): CTL drives the byte at the cursor while E is asserted, SEQ samples it,
the cursor advances at the end of the pulse. -/
def cycleDrd (s : State) : Answer :=
  if s.ctl.bf then .fault .transferWhileBusy
  else if commandOf s.ctl.ir ≠ some .read then .fault .readPhaseWithoutReadCommand
  else if s.ctl.phaseDone then .fault .burstNotSupported
  else
    let (v, s1) := memRead s s.ctl.cur
    let (db, s2) := dataLines (wire s.params v) s1
    let s3 := advanceCur { s2 with smp := wire s.params db }
    .next { s3 with ctl := endDataPhase s3.ctl }

/-- One pulse of E (40_bus_transport.md R121): the levels of RS and RW select the bus cycle (30_encoding.md R91), CTL acts
once. The delays of a strobe have no state (70_reset_and_hazards.md R262, R266). -/
def strobe (s : State) : Answer :=
  let s1 := assertE s
  andThen
    (match s1.pins.rs, s1.pins.rw with
      | true, false => cycleIrw s1
      | true, true => .next (statusSample s1)
      | false, false => cycleDwr s1
      | false, true => cycleDrd s1)
    fun s2 => .next (deassertE s2)

end Sys2Proof.Machine
end

