-- ==== Sys2Proof/Machine/Bus.lean ====
section
/-! DEFINITION. SEQ's primitives (40_bus_transport.md section 1): the lines, `wait_ready`, `send`, `receive`, and the
running of a transaction list (10_state.md R35). -/

namespace Sys2Proof.Machine

/-- Set RS and RW. -/
def setSelect (rs rw : Bool) (s : State) : State := { s with pins := { s.pins with rs := rs, rw := rw } }

/-- DIR <- v. -/
def setDir (v : Dir) (s : State) : State := { s with pins := { s.pins with dir := v } }

/-- DOUT <- wire(b) (R120). -/
def drive (b : Byte) (s : State) : State := { s with pins := { s.pins with dout := wire s.params b } }

/-- The lines of the polling loop (R122): DIR = IN, RW = 1, RS = 1, E = 1. -/
def startPolling (s : State) : State := assertE (setSelect true true (setDir .inp s))

/-- The end of the polling loop (R122): E <- 0, then DIR <- OUT; RS and RW stay 1. -/
def stopPolling (s : State) : State := setDir .out (deassertE s)

/-- One poll of the busy-wait (R122): the lines of the loop, then one sample. -/
def poll (s : State) : State := statusSample (startPolling s)

/-- `wait_ready()` (R122) where no turn is listed: one poll; if it finds CTL busy, CTL's completion step and the poll that
sees it, if CTL is responsive; if not, BF is still 1 and SEQ goes on polling at its next step (log 8, log 9). The loop tests
BF, which is bit 7 of the sample (log 20). There is no timeout (60_exceptions.md R245). -/
def waitReady (s : State) : State :=
  let s1 := poll s
  if s1.ctl.bf then
    if s1.responsive then stopPolling (poll (ctlCompletion s1)) else s1
  else stopPolling s1

/-- The two phases of `send(c, d)` (R123), after the wait. -/
def sendPhases (c : BitVec 4) (d : Byte) (s : State) : Answer :=
  andThen (strobe (drive (commandByte c) (setSelect true false s))) fun s1 =>
    strobe (drive d (setSelect false false s1))

/-- The two phases of `receive()` (R124), after the wait; the byte is left in `smp`. -/
def receivePhases (s : State) : Answer :=
  andThen (strobe (drive (commandByte (codeOf .read)) (setSelect true false s))) fun s1 =>
    andThen (strobe (setSelect false true (setDir .inp s1))) fun s2 =>
      .next (setDir .out (setSelect false false s2))

/-- One transaction after its wait, with what SEQ does with a received byte. -/
def transfer (t : Tx) (s : State) : Answer :=
  match t with
  | .send c d => sendPhases c d s
  | .sendLb k => sendPhases (codeOf .write) (s.lb.getD k 0) s
  | .recv => receivePhases s
  | .recvLb k => andThen (receivePhases s) fun u => .next { u with lb := u.lb.set k u.smp }
  | .recvRes => andThen (receivePhases s) fun u => .next { u with res := u.smp }

/-- The list in execution is at its end (10_state.md R35): SEQ is idle. -/
def finish (s : State) : State := { s with seqst := .idle, rawTx := none }

/-- Transaction i of a list is complete and `ts` is what is left of it (10_state.md R35): SEQST becomes RUNNING(i+1), or
IDLE after the last. -/
def afterTx (i : Nat) (ts : List Tx) (s : State) : State :=
  match ts with
  | [] => finish s
  | _ :: _ => { s with seqst := .running (i + 1) }

/-- SEQ's atomic step (00_scope.md R10, R11): one poll; if it finds CTL busy, that is the whole step and SEQ stays in the
polling loop, from which CTL's completion step frees it; if not, transaction i takes effect. -/
def seqStep (i : Nat) (txs : List Tx) (s : State) : Answer :=
  match txs with
  | [] => .next (finish s)
  | t :: ts =>
    if (poll s).ctl.bf then .next { poll s with seqst := .running i }
    else andThen (transfer t (stopPolling (poll s))) fun u => .next (afterTx i ts u)

/-- All the atomic steps that a transaction list takes from index i (10_state.md R35): each transaction waits until BF = 0,
then takes effect; after the last one SEQ is idle. If CTL does not complete, SEQ is held at that transaction
(60_exceptions.md R231). -/
def runTxs (i : Nat) : List Tx → State → Answer
  | [], s => .next (finish s)
  | t :: ts, s =>
    let w := waitReady s
    if w.ctl.bf then .next { w with seqst := .running i }
    else andThen (transfer t w) fun u => runTxs (i + 1) ts { u with seqst := .running (i + 1) }

/-- SEQ goes on with the list in execution: by one atomic step where turns are listed, else to the end (log 9). -/
def resume (i : Nat) (s : State) : Answer :=
  match s.turns with
  | [] => runTxs i ((currentTxs s).drop i) s
  | _ :: _ => seqStep i ((currentTxs s).drop i) s

/-- SEQ takes up a list (10_state.md R35): an empty one goes from IDLE to IDLE; else SEQST becomes RUNNING(0), which is the
whole step where turns are listed, and the list runs where none is (log 9). -/
def startList (txs : List Tx) (s : State) : Answer :=
  match txs, s.turns with
  | [], _ => .next (finish s)
  | t :: ts, [] => runTxs 0 (t :: ts) { s with seqst := .running 0 }
  | _ :: _, _ :: _ => .next { s with seqst := .running 0 }

/-- Accept an operation request (30_encoding.md R94, 10_state.md R33, R35): the latches take its fields, and SEQ takes up the
operation's list. -/
def acceptOperation (opc : BitVec 4) (x y : BitVec 16) (d : Byte) (txs : List Tx) (s : State) : Answer :=
  if s.seqst = .idle then startList txs { s with latch := { opc := opc, x := x, y := y, d := d }, rawTx := none }
  else .refused .busySequencer

/-- A transaction statement (30_encoding.md R104): SEQ executes one `send` or `receive` (log 13). -/
def issueTransaction (r : RawTx) (s : State) : Answer :=
  if s.seqst = .idle then startList [r.tx] { s with rawTx := some r } else .refused .busySequencer

/-- A reserved operation code (30_encoding.md R100), after the check that SEQ is idle (60_exceptions.md R233). -/
def refuseReserved (s : State) : Answer :=
  if s.seqst = .idle then .refused .reservedOperation else .refused .busySequencer

/-- A bus cycle on its own (30_encoding.md R91): the levels are set, E is pulsed once, and the lines return to the idle
condition (log 15). No busy-wait precedes it (40_bus_transport.md R132). -/
def busCycle (rs rw : Bool) (dir : Dir) (s : State) : Answer :=
  if s.seqst = .idle then
    andThen (strobe (setSelect rs rw (setDir dir s))) fun u => .next (setDir .out (setSelect false false u))
  else .refused .busySequencer

end Sys2Proof.Machine
end

