-- ==== Sys2Proof/Machine/Commands.lean ====
section
/-! DEFINITION. The meanings of the transaction statements (30_encoding.md R104): one `send` or `receive` each.
Their effects on CTL are in Machine/Ctl.lean. -/

namespace Sys2Proof.Machine

/-- MODE d (41_controller_commands.md R150). -/
def execMode (d : Byte) (s : State) : Answer := issueTransaction (.send (codeOf .mode) d) s

/-- PITCH d (R151). -/
def execPitch (d : Byte) (s : State) : Answer := issueTransaction (.send (codeOf .pitch) d) s

/-- NCHR d (R152). -/
def execNchr (d : Byte) (s : State) : Answer := issueTransaction (.send (codeOf .nchr) d) s

/-- TDIV d (R153). -/
def execTdiv (d : Byte) (s : State) : Answer := issueTransaction (.send (codeOf .tdiv) d) s

/-- START_LO d (R154). -/
def execStartLo (d : Byte) (s : State) : Answer := issueTransaction (.send (codeOf .startLo) d) s

/-- START_HI d (R155). -/
def execStartHi (d : Byte) (s : State) : Answer := issueTransaction (.send (codeOf .startHi) d) s

/-- CUR_LO d (R156). -/
def execCurLo (d : Byte) (s : State) : Answer := issueTransaction (.send (codeOf .curLo) d) s

/-- CUR_HI d (R157). -/
def execCurHi (d : Byte) (s : State) : Answer := issueTransaction (.send (codeOf .curHi) d) s

/-- WRITE d (R158). -/
def execWrite (d : Byte) (s : State) : Answer := issueTransaction (.send (codeOf .write) d) s

/-- READ (R159): `receive()`; the byte returned is in `smp`. -/
def execRead (s : State) : Answer := issueTransaction .recv s

/-- CLEAR_BIT d (R160). -/
def execClearBit (d : Byte) (s : State) : Answer := issueTransaction (.send (codeOf .clearBit) d) s

/-- SET_BIT d (R161). -/
def execSetBit (d : Byte) (s : State) : Answer := issueTransaction (.send (codeOf .setBit) d) s

/-- Reserved code 0x4 (R162): its data phase is a protocol fault (40_bus_transport.md R129). -/
def execReservedCmd4 (d : Byte) (s : State) : Answer := issueTransaction (.send 4 d) s

/-- Reserved code 0x5 (R162). -/
def execReservedCmd5 (d : Byte) (s : State) : Answer := issueTransaction (.send 5 d) s

/-- Reserved code 0x6 (R162). -/
def execReservedCmd6 (d : Byte) (s : State) : Answer := issueTransaction (.send 6 d) s

/-- Reserved code 0x7 (R162). -/
def execReservedCmd7 (d : Byte) (s : State) : Answer := issueTransaction (.send 7 d) s

end Sys2Proof.Machine
end

