-- ==== Sys2Proof/Machine/Cycles.lean ====
section
/-! DEFINITION. The meanings of the four bus cycles (30_encoding.md R91, 40_bus_transport.md R127 to R130). -/

namespace Sys2Proof.Machine

/-- IRW with the logical byte db driven (R127). -/
def execIrw (db : Byte) (s : State) : Answer := busCycle true false s.pins.dir (drive db s)

/-- STR (R128): the status byte is left in `smp`. -/
def execStr (s : State) : Answer := busCycle true true .inp s

/-- DWR with the logical byte db driven (R129). -/
def execDwr (db : Byte) (s : State) : Answer := busCycle false false s.pins.dir (drive db s)

/-- DRD (R130): the byte read is left in `smp`. -/
def execDrd (s : State) : Answer := busCycle false true .inp s

end Sys2Proof.Machine
end

