-- ==== Sys2Proof/Machine/Framebuffer.lean ====
section
/-! DEFINITION. The meanings of the operations (42_cursor_addressing.md, 43_framebuffer_ops.md, 44_scroll_engine.md).
Their transaction lists are in Machine/Operands.lean. -/

namespace Sys2Proof.Machine

/-- INIT (43_framebuffer_ops.md R195). -/
def execInit (x y : BitVec 16) (d : Byte) (s : State) : Answer := acceptOperation 0x0 x y d (initTxs s.params) s

/-- MOVE x, y (42_cursor_addressing.md R180). -/
def execMove (x y : BitVec 16) (d : Byte) (s : State) : Answer :=
  acceptOperation 0x1 x y d (moveTxs s.params x.toNat y.toNat) s

/-- DRAW_BYTE b (43_framebuffer_ops.md R190). -/
def execDrawByte (x y : BitVec 16) (d : Byte) (s : State) : Answer := acceptOperation 0x2 x y d (drawByteTxs d) s

/-- PLOT_BYTE x, y, b (43_framebuffer_ops.md R192). -/
def execPlotByte (x y : BitVec 16) (d : Byte) (s : State) : Answer :=
  acceptOperation 0x3 x y d (plotByteTxs s.params x.toNat y.toNat d) s

/-- PLOT_PIXEL x, y, s (43_framebuffer_ops.md R193); the checks in the order of 60_exceptions.md R233. -/
def execPlotPixel (x y : BitVec 16) (d : Byte) (s : State) : Answer :=
  if s.seqst = .idle ∧ d ≠ 0 ∧ d ≠ 1 then .refused .undefinedPixelState
  else acceptOperation 0x4 x y d (plotPixelTxs s.params x.toNat y.toNat d) s

/-- CLEAR (43_framebuffer_ops.md R194). -/
def execClear (x y : BitVec 16) (d : Byte) (s : State) : Answer := acceptOperation 0x5 x y d (clearTxs s.params) s

/-- READ_BYTE (43_framebuffer_ops.md R191). -/
def execReadByte (x y : BitVec 16) (d : Byte) (s : State) : Answer := acceptOperation 0x6 x y d readByteTxs s

/-- SCROLL_UP n (44_scroll_engine.md R210). -/
def execScrollUp (x y : BitVec 16) (d : Byte) (s : State) : Answer :=
  acceptOperation 0x7 x y d (scrollUpTxs s.params y.toNat) s

end Sys2Proof.Machine
end

