-- ==== Sys2Proof/Machine/Reserved.lean ====
section
/-! DEFINITION. The meanings of the reserved operation codes (30_encoding.md R100): refused, nothing changes. -/

namespace Sys2Proof.Machine

/-- Operation code 0x8 (30_encoding.md R100). -/
def execReservedOp8 (_x _y : BitVec 16) (_d : Byte) (s : State) : Answer := refuseReserved s

/-- Operation code 0x9 (30_encoding.md R100). -/
def execReservedOp9 (_x _y : BitVec 16) (_d : Byte) (s : State) : Answer := refuseReserved s

/-- Operation code 0xA (30_encoding.md R100). -/
def execReservedOpA (_x _y : BitVec 16) (_d : Byte) (s : State) : Answer := refuseReserved s

/-- Operation code 0xB (30_encoding.md R100). -/
def execReservedOpB (_x _y : BitVec 16) (_d : Byte) (s : State) : Answer := refuseReserved s

/-- Operation code 0xC (30_encoding.md R100). -/
def execReservedOpC (_x _y : BitVec 16) (_d : Byte) (s : State) : Answer := refuseReserved s

/-- Operation code 0xD (30_encoding.md R100). -/
def execReservedOpD (_x _y : BitVec 16) (_d : Byte) (s : State) : Answer := refuseReserved s

/-- Operation code 0xE (30_encoding.md R100). -/
def execReservedOpE (_x _y : BitVec 16) (_d : Byte) (s : State) : Answer := refuseReserved s

/-- Operation code 0xF (30_encoding.md R100). -/
def execReservedOpF (_x _y : BitVec 16) (_d : Byte) (s : State) : Answer := refuseReserved s

end Sys2Proof.Machine
end

