-- ==== Sys2Proof/Machine/Dispatch.lean ====
section
/-! DEFINITION. The dispatch: one arm per instruction, one direct call of its meaning. -/

namespace Sys2Proof.Machine

/-- The meaning of an instruction. -/
def exec (i : Instr) (s : State) : Host.Outcome State Fault Refusal :=
  match i with
  | .mode d => Sys2Proof.Machine.execMode d s
  | .pitch d => Sys2Proof.Machine.execPitch d s
  | .nchr d => Sys2Proof.Machine.execNchr d s
  | .tdiv d => Sys2Proof.Machine.execTdiv d s
  | .startLo d => Sys2Proof.Machine.execStartLo d s
  | .startHi d => Sys2Proof.Machine.execStartHi d s
  | .curLo d => Sys2Proof.Machine.execCurLo d s
  | .curHi d => Sys2Proof.Machine.execCurHi d s
  | .write d => Sys2Proof.Machine.execWrite d s
  | .read => Sys2Proof.Machine.execRead s
  | .clearBit d => Sys2Proof.Machine.execClearBit d s
  | .setBit d => Sys2Proof.Machine.execSetBit d s
  | .reservedCmd4 d => Sys2Proof.Machine.execReservedCmd4 d s
  | .reservedCmd5 d => Sys2Proof.Machine.execReservedCmd5 d s
  | .reservedCmd6 d => Sys2Proof.Machine.execReservedCmd6 d s
  | .reservedCmd7 d => Sys2Proof.Machine.execReservedCmd7 d s
  | .irw db => Sys2Proof.Machine.execIrw db s
  | .str => Sys2Proof.Machine.execStr s
  | .dwr db => Sys2Proof.Machine.execDwr db s
  | .drd => Sys2Proof.Machine.execDrd s
  | .init x y d => Sys2Proof.Machine.execInit x y d s
  | .move x y d => Sys2Proof.Machine.execMove x y d s
  | .drawByte x y d => Sys2Proof.Machine.execDrawByte x y d s
  | .plotByte x y d => Sys2Proof.Machine.execPlotByte x y d s
  | .plotPixel x y d => Sys2Proof.Machine.execPlotPixel x y d s
  | .clear x y d => Sys2Proof.Machine.execClear x y d s
  | .readByte x y d => Sys2Proof.Machine.execReadByte x y d s
  | .scrollUp x y d => Sys2Proof.Machine.execScrollUp x y d s
  | .reservedOp8 x y d => Sys2Proof.Machine.execReservedOp8 x y d s
  | .reservedOp9 x y d => Sys2Proof.Machine.execReservedOp9 x y d s
  | .reservedOpA x y d => Sys2Proof.Machine.execReservedOpA x y d s
  | .reservedOpB x y d => Sys2Proof.Machine.execReservedOpB x y d s
  | .reservedOpC x y d => Sys2Proof.Machine.execReservedOpC x y d s
  | .reservedOpD x y d => Sys2Proof.Machine.execReservedOpD x y d s
  | .reservedOpE x y d => Sys2Proof.Machine.execReservedOpE x y d s
  | .reservedOpF x y d => Sys2Proof.Machine.execReservedOpF x y d s

end Sys2Proof.Machine
end

