-- ==== Sys2Proof/Machine/Step.lean ====
section
/-! DEFINITION. One step of the block: CTL's own, SEQ's, or the host's next statement. -/

namespace Sys2Proof.Machine

/-- What the agent whose turn it is does (00_scope.md R10): CTL completes (40_bus_transport.md R131), whether SEQ is running
or idle. At any other turn a running SEQ goes on (10_state.md R35); while it is idle, the host presents its next statement, if
it has one (log 11, log 22). -/
def act (s : State) : Answer :=
  match s.turns with
  | .ctl :: _ => .next (ctlCompletion s)
  | _ =>
    match s.seqst with
    | .running i => resume i s
    | .idle =>
      match s.program with
      | [] => .next (settled s)
      | p :: rest =>
        match decode p with
        | .error e => .refused (.undecodable e)
        | .ok i => exec i { settled s with program := rest }

/-- The turn taken is over. -/
def endTurn (s : State) : State := { s with turns := s.turns.tail }

/-- One step. A configuration that breaks 00_scope.md R6 or R7 is refused (log 21). -/
def step (s : State) : Host.Outcome State Fault Refusal :=
  if paramsOk s.params then mapNext endTurn (act s) else .refused .badConfiguration

/-- The state with a row's word as the host's next statement, the turns of CTL before the host's next dropped, and SEQ idle
with its lines idle, so that the next step takes it (log 11). In a state where SEQ is idle and no turn is listed only
`program` changes. -/
def State.withFetchWord (s : State) (nbits w : Nat) : State :=
  let s := { s with program := packetOf nbits w :: s.program, turns := s.turns.dropWhile (· == Turn.ctl) }
  match s.seqst with
  | .idle => s
  | .running _ => { s with seqst := .idle, rawTx := none, pins := Pins.idle s.pins.dout }

end Sys2Proof.Machine
end

