-- ==== Sys2Proof/Safety.lean ====
section
/-! DEFINITION. The terms the claims use: when CTL answers, the invariant of the machine, what a finished instruction
leaves, what a frame is, and what a safe run is. -/

namespace Sys2Proof.Machine

/-- The steps of a run, stopping at the first fault or refusal. -/
def run (k : Nat) (s : State) : Answer := Sys2Proof.core.run k s

/-- A request is one step (no turn is listed, log 9), and its first wait ends: CTL is not busy, or it completes when it is
polled (40_bus_transport.md R131). -/
def ctlAnswers (s : State) : Prop := s.turns = [] ∧ (s.ctl.bf = false ∨ s.responsive = true)

/-- A request is one step (no turn is listed, log 9), and CTL completes whenever it is polled (40_bus_transport.md R131): the
premise under which a whole operation ends in one step. -/
def prompt (s : State) : Prop := s.turns = [] ∧ s.responsive = true

/-- The lines of the polling loop (40_bus_transport.md R122), DOUT as given. -/
def Pins.polling (dout : Byte) : Pins := ⟨true, true, true, .inp, dout⟩

/-- SEQ idle with its lines in the idle condition (40_bus_transport.md R125) and nothing in execution. -/
def finished (s : State) : Prop := s.seqst = .idle ∧ s.pins = Pins.idle s.pins.dout ∧ s.rawTx = none

/-- SEQ held in the polling loop before transaction i of its list (60_exceptions.md R231). -/
def held (i : Nat) (s : State) : Prop :=
  s.seqst = .running i ∧ s.pins = Pins.polling s.pins.dout ∧ s.ctl.bf = true ∧ i < (currentTxs s).length

/-- SEQ is at rest; or it is at a transaction of its list, with the lines in the idle condition (40_bus_transport.md R125)
before the first poll of its wait and in the polling loop (R122) from then on. -/
def sequencerInv (s : State) : Prop :=
  match s.seqst with
  | .idle => finished s
  | .running i =>
    i < (currentTxs s).length ∧ (s.pins = Pins.idle s.pins.dout ∨ s.pins = Pins.polling s.pins.dout)

/-- The invariant every step keeps: the parameters are legal (00_scope.md R6, R7), memory is in its canonical form, the
line buffer has BPR bytes (10_state.md R34), and SEQ is idle with the lines in the idle condition (40_bus_transport.md
R125) or running at a transaction of its list. -/
def StateInv (s : State) : Prop :=
  paramsOk s.params = true ∧ s.ctl.mem.wf ∧ s.lb.length = bpr s.params ∧ sequencerInv s

/-- What no instruction changes, and what only the instructions a statement names change: the parameters, the host's
statements left, the liveness of CTL; the line buffer and the result register. -/
def keepsSeq (s t : State) : Prop :=
  t.params = s.params ∧ t.program = s.program ∧ t.responsive = s.responsive ∧ t.lb = s.lb ∧ t.res = s.res

/-- Every cell holds what it held. -/
def sameCells (s t : State) : Prop := ∀ a, t.ctl.mem.get a = s.ctl.mem.get a

/-- Every cell but one holds what it held. -/
def sameCellsBut (a : Nat) (s t : State) : Prop := ∀ b, b ≠ a → t.ctl.mem.get b = s.ctl.mem.get b

/-- The five configuration registers hold what they held (10_state.md R39). -/
def sameConfiguration (s t : State) : Prop :=
  t.ctl.mode = s.ctl.mode ∧ t.ctl.pitch = s.ctl.pitch ∧ t.ctl.nchr = s.ctl.nchr ∧ t.ctl.tdiv = s.ctl.tdiv ∧
  t.ctl.start = s.ctl.start ∧ t.ctl.modeSeen = s.ctl.modeSeen

/-- A transaction statement has run to its end (40_bus_transport.md R123 to R125): CTL is what f makes of it, with the
command in IR, BF set and a data phase done; SEQ is idle again; nothing else that a register holds has changed. -/
def transactionDone (k : Command) (f : Ctl → Ctl) (s t : State) : Prop :=
  t.ctl = { f s.ctl with ir := codeOf k, bf := true, phaseDone := true } ∧ finished t ∧ keepsSeq s t ∧
  t.latch = s.latch ∧ t.turns = s.turns

/-- An operation has run to its end (10_state.md R33, R35): the latches hold its request, CTL is busy with the command k
of its last transaction, SEQ is idle again; parameters, the host's statements left and the liveness of CTL are as before. -/
def operationDone (k : Command) (opc : BitVec 4) (x y : BitVec 16) (d : Byte) (s t : State) : Prop :=
  t.latch = { opc := opc, x := x, y := y, d := d } ∧ t.ctl.ir = codeOf k ∧ t.ctl.bf = true ∧ t.ctl.phaseDone = true ∧
  finished t ∧ t.params = s.params ∧ t.program = s.program ∧ t.responsive = s.responsive ∧ t.turns = s.turns

/-- A bus cycle on its own has run to its end: SEQ is idle, the lines are in the idle condition (log 15), and nothing but
CTL, the lines, the sample and the counters of free values may have changed. -/
def busCycleDone (s t : State) : Prop :=
  t.seqst = .idle ∧ t.pins = Pins.idle t.pins.dout ∧ t.rawTx = s.rawTx ∧ t.latch = s.latch ∧ t.turns = s.turns ∧
  keepsSeq s t

/-- SEQ has carried out transaction i, `ts` being what is left of its list, in a turn after which `l` are to come
(10_state.md R35, 40_bus_transport.md R125): SEQST is RUNNING(i+1), or IDLE after the last; the lines are idle; CTL, the line
buffer, the result, the sample and the counters of free values apart, nothing else has changed. -/
def transactionTurnDone (i : Nat) (ts : List Tx) (l : List Turn) (s t : State) : Prop :=
  t.seqst = (if ts.isEmpty then .idle else .running (i + 1)) ∧ t.rawTx = (if ts.isEmpty then none else s.rawTx) ∧
  t.pins = Pins.idle t.pins.dout ∧ t.turns = l ∧ t.params = s.params ∧ t.latch = s.latch ∧ t.program = s.program ∧
  t.responsive = s.responsive

/-- The state with other latches. -/
def withLatch (l : Latches) (s : State) : State := { s with latch := l }

/-- The state with the other wiring and some byte on the data lines (00_scope.md R6). -/
def withWiring (r : Bool) (o : Byte) (s : State) : State :=
  { s with params := { s.params with reversed := r }, pins := { s.pins with dout := o } }

/-- The state with other values in the configuration registers. -/
def withConfiguration (m p n td : Byte) (st : BitVec 16) (s : State) : State :=
  { s with ctl := { s.ctl with mode := m, pitch := p, nchr := n, tdiv := td, start := st } }

/-- The state with other turns to come. -/
def withTurns (l : List Turn) (s : State) : State := { s with turns := l }

/-- The state without what depends on how often SEQ polled: the turns, the count of the status bytes and the last byte
sampled. -/
def withoutPolls (s : State) : State := { s with turns := [], samples := 0, smp := 0 }

/-- Only operation requests are presented, and no transaction statement is in execution: the host of 30_encoding.md R95. -/
def operationsOnly (s : State) : Prop := s.rawTx = none ∧ ∀ p ∈ s.program, p.fmt = .op

/-- A safe run: no protocol fault is ever reached (60_exceptions.md R230). -/
def neverFaults (s : State) : Prop := ∀ k r, run k s ≠ .fault r

end Sys2Proof.Machine
end

