-- ==== Sys2Proof/Certificates/Slice0/Obligations.lean ====
section
/-! DEFINITION. The statements for the provers. Each cites the rule of spec/ it formalises; free values (`Config.any8`,
`Config.statusBits`, `Config.offSurfaceCell`, `turns`, `responsive`) and the parameters are universally quantified with the state. -/

open Sys2Proof Sys2Proof.Machine

/-! ### Encoding -/

/-- Decoding an encoded instruction gives it back, for every operand. -/
def Obligations.DecodeOfEncodeIsIdentity : Prop := ∀ i : Instr, decode (encode i) = .ok i

/-- Every packet the decoder accepts is the encoding of what it reads, READ apart, whose d field is not part of the
encoding (30_encoding.md R90): each word has one meaning. -/
def Obligations.EncodeOfDecodeIsIdentity : Prop :=
  ∀ (p : Packet) (i : Instr), decode p = .ok i → i ≠ .read → encode i = p

/-- Words of 95_test_vectors.md decode to what they stand for, one or more of each family. READ's word is written 0xD-- there:
its last two digits are no part of it. The C packet 0x0502 is the model's layout of V-B6's IRW cycle with DB = 0x05 (log 12,
DESIGN CHOICE): the spec gives the two bits and the byte, not where in a word the byte stands. -/
def Obligations.VectorWordsDecode : Prop :=
  decode ⟨.t, 0x032⟩ = .ok (.mode 0x32) ∧ decode ⟨.t, 0x21D⟩ = .ok (.nchr 0x1D) ∧
  decode ⟨.t, 0x912⟩ = .ok (.startHi 0x12) ∧ decode ⟨.t, 0xA97⟩ = .ok (.curLo 0x97) ∧
  decode ⟨.t, 0xCA5⟩ = .ok (.write 0xA5) ∧ decode ⟨.t, 0xD00⟩ = .ok .read ∧ decode ⟨.t, 0xF0F⟩ = .ok (.setBit 0x0F) ∧
  decode ⟨.c, 0x0502⟩ = .ok (.irw 0x05) ∧ decode ⟨.c, 0x1⟩ = .ok .drd ∧
  decode ⟨.op, 0x100E8000100⟩ = .ok (.move 232 1 0) ∧ decode ⟨.op, 0x300080001A5⟩ = .ok (.plotByte 8 1 0xA5) ∧
  decode ⟨.op, 0x4000B000201⟩ = .ok (.plotPixel 11 2 1) ∧ decode ⟨.op, 0x70000FFFF00⟩ = .ok (.scrollUp 0 65535 0) ∧
  decode ⟨.op, 0x90000000000⟩ = .ok (.reservedOp9 0 0 0)

/-! ### Transaction statements -/

/-- MODE (R150): the mode byte is stored, whatever it is, and nothing else of CTL changes but IR, BF and the model's own
notes that a data phase and a MODE command have happened. -/
def Obligations.ModeCommandStoresMode : Prop :=
  ∀ (d : Byte) (s : State), decode ⟨.t, 0x000 + d.toNat⟩ = .ok (.mode d) ∧
    (s.seqst = .idle → ctlAnswers s →
      ∃ t, exec (.mode d) s = .next t ∧ transactionDone .mode (fun c => { c with mode := d, modeSeen := true }) s t)

/-- PITCH, NCHR, TDIV (R151, R152, R153): once a MODE command has been executed (43_framebuffer_ops.md R196), each stores
its operand in its register and touches no other. -/
def Obligations.GeometryCommandsStoreOperand : Prop :=
  ∀ (d : Byte) (s : State),
    (decode ⟨.t, 0x100 + d.toNat⟩ = .ok (.pitch d) ∧ decode ⟨.t, 0x200 + d.toNat⟩ = .ok (.nchr d) ∧
      decode ⟨.t, 0x300 + d.toNat⟩ = .ok (.tdiv d)) ∧
    (s.seqst = .idle → ctlAnswers s → s.ctl.modeSeen = true →
      (∃ t, exec (.pitch d) s = .next t ∧ transactionDone .pitch (fun c => { c with pitch := d }) s t) ∧
      (∃ t, exec (.nchr d) s = .next t ∧ transactionDone .nchr (fun c => { c with nchr := d }) s t) ∧
      (∃ t, exec (.tdiv d) s = .next t ∧ transactionDone .tdiv (fun c => { c with tdiv := d }) s t))

/-- A geometry command before any MODE command (43_framebuffer_ops.md R196, log 17): it runs; the five configuration
registers are then unspecified, so nothing is said of them; everything else is as for any command. -/
def Obligations.GeometryBeforeModeLeavesRestAlone : Prop :=
  ∀ (d : Byte) (s : State), s.seqst = .idle → ctlAnswers s → s.ctl.modeSeen = false →
    (∃ t, exec (.pitch d) s = .next t ∧ transactionDone .pitch (fun c => { c with
        mode := t.ctl.mode, pitch := t.ctl.pitch, nchr := t.ctl.nchr, tdiv := t.ctl.tdiv, start := t.ctl.start }) s t) ∧
    (∃ t, exec (.nchr d) s = .next t ∧ transactionDone .nchr (fun c => { c with
        mode := t.ctl.mode, pitch := t.ctl.pitch, nchr := t.ctl.nchr, tdiv := t.ctl.tdiv, start := t.ctl.start }) s t) ∧
    (∃ t, exec (.tdiv d) s = .next t ∧ transactionDone .tdiv (fun c => { c with
        mode := t.ctl.mode, pitch := t.ctl.pitch, nchr := t.ctl.nchr, tdiv := t.ctl.tdiv, start := t.ctl.start }) s t)

/-- START_LO and START_HI (R154, R155): each replaces its own half of START and keeps the other. -/
def Obligations.StartCommandsLoadHalves : Prop :=
  ∀ (d : Byte) (s : State),
    (decode ⟨.t, 0x800 + d.toNat⟩ = .ok (.startLo d) ∧ decode ⟨.t, 0x900 + d.toNat⟩ = .ok (.startHi d)) ∧
    (s.seqst = .idle → ctlAnswers s →
      (∃ t, exec (.startLo d) s = .next t ∧
        transactionDone .startLo (fun c => { c with start := c.start.extractLsb' 8 8 ++ d }) s t) ∧
      (∃ t, exec (.startHi d) s = .next t ∧
        transactionDone .startHi (fun c => { c with start := d ++ c.start.extractLsb' 0 8 }) s t))

/-- CUR_LO and CUR_HI (R156, R157): each replaces its own half of the cursor; the pair CUR_LO lo, CUR_HI hi leaves
{hi, lo} whatever the cursor held. -/
def Obligations.CursorCommandsLoadHalves : Prop :=
  ∀ (d : Byte) (s : State),
    (decode ⟨.t, 0xA00 + d.toNat⟩ = .ok (.curLo d) ∧ decode ⟨.t, 0xB00 + d.toNat⟩ = .ok (.curHi d)) ∧
    (s.seqst = .idle → ctlAnswers s →
      (∃ t, exec (.curLo d) s = .next t ∧
        transactionDone .curLo (fun c => { c with cur := c.cur.extractLsb' 8 8 ++ d }) s t) ∧
      (∃ t, exec (.curHi d) s = .next t ∧
        transactionDone .curHi (fun c => { c with cur := d ++ c.cur.extractLsb' 0 8 }) s t)) ∧
    (s.seqst = .idle → prompt s → ∀ hi : Byte,
      ∃ t u, exec (.curLo d) s = .next t ∧ exec (.curHi hi) t = .next u ∧ u.ctl.cur = hi ++ d)

/-- WRITE (R158): the byte at the cursor becomes the operand, the cursor advances by one, no other byte changes. -/
def Obligations.WriteCommandStoresAtCursor : Prop :=
  ∀ (d : Byte) (s : State), decode ⟨.t, 0xC00 + d.toNat⟩ = .ok (.write d) ∧
    (s.seqst = .idle → ctlAnswers s →
      ∃ t, exec (.write d) s = .next t ∧
        transactionDone .write (fun c => { c with mem := t.ctl.mem, cur := c.cur + 1 }) s t ∧
        t.ctl.mem.get (memMap s.params s.ctl.cur) = some d ∧ sameCellsBut (memMap s.params s.ctl.cur) s t)

/-- READ (R159): the byte at the cursor is returned, a free byte where nothing has written it; the cursor advances by one;
memory is unchanged. The d bits of the word are not part of the encoding. -/
def Obligations.ReadCommandReturnsByteAtCursor : Prop :=
  ∀ (d : Byte) (s : State), decode ⟨.t, 0xD00 + d.toNat⟩ = .ok .read ∧
    (s.seqst = .idle → ctlAnswers s →
      ∃ t, exec .read s = .next t ∧ transactionDone .read (fun c => { c with cur := c.cur + 1 }) s t ∧
        (∀ v, s.ctl.mem.get (memMap s.params s.ctl.cur) = some v → t.smp = v) ∧
        (s.ctl.mem.get (memMap s.params s.ctl.cur) = none → ∃ n, s.draws ≤ n ∧ n < t.draws ∧ t.smp = Config.any8 n))

/-- CLEAR_BIT (R160): bit d[2:0] of the byte at the cursor becomes 0, the other seven keep their value where the byte had
one, no other byte changes, the cursor advances if BITOP_ADVANCE. -/
def Obligations.ClearBitCommandClearsOneBit : Prop :=
  ∀ (d : Byte) (s : State), decode ⟨.t, 0xE00 + d.toNat⟩ = .ok (.clearBit d) ∧
    (s.seqst = .idle → ctlAnswers s →
      ∃ t v, exec (.clearBit d) s = .next t ∧
        transactionDone .clearBit (fun c => { c with
          mem := t.ctl.mem, cur := if s.params.bitopAdvance then c.cur + 1 else c.cur }) s t ∧
        t.ctl.mem.get (memMap s.params s.ctl.cur) = some v ∧ v.getLsbD (d.toNat % 8) = false ∧
        (∀ b, s.ctl.mem.get (memMap s.params s.ctl.cur) = some b →
          ∀ j, j < 8 → j ≠ d.toNat % 8 → v.getLsbD j = b.getLsbD j) ∧
        sameCellsBut (memMap s.params s.ctl.cur) s t)

/-- SET_BIT (R161): bit d[2:0] of the byte at the cursor becomes 1; the rest as for CLEAR_BIT. -/
def Obligations.SetBitCommandSetsOneBit : Prop :=
  ∀ (d : Byte) (s : State), decode ⟨.t, 0xF00 + d.toNat⟩ = .ok (.setBit d) ∧
    (s.seqst = .idle → ctlAnswers s →
      ∃ t v, exec (.setBit d) s = .next t ∧
        transactionDone .setBit (fun c => { c with
          mem := t.ctl.mem, cur := if s.params.bitopAdvance then c.cur + 1 else c.cur }) s t ∧
        t.ctl.mem.get (memMap s.params s.ctl.cur) = some v ∧ v.getLsbD (d.toNat % 8) = true ∧
        (∀ b, s.ctl.mem.get (memMap s.params s.ctl.cur) = some b →
          ∀ j, j < 8 → j ≠ d.toNat % 8 → v.getLsbD j = b.getLsbD j) ∧
        sameCellsBut (memMap s.params s.ctl.cur) s t)

/-- What the lines hold after a transaction (R120, R123 to R125): the idle condition, and on the data lines the physical byte
SEQ drove last, the operand of a write, the command byte of READ. -/
def Obligations.LinesHoldLastDrivenByte : Prop :=
  ∀ (d : Byte) (s : State), s.seqst = .idle → ctlAnswers s →
    (∀ i ∈ [Instr.mode d, .pitch d, .nchr d, .tdiv d, .startLo d, .startHi d, .curLo d, .curHi d, .write d, .clearBit d,
        .setBit d], ∃ t, exec i s = .next t ∧ t.pins = ⟨false, false, false, .out, wire s.params d⟩) ∧
    ∃ t, exec .read s = .next t ∧ t.pins = ⟨false, false, false, .out, wire s.params 0x0D⟩

/-- Every auto-advance is plus one modulo 2^16 (R163), for WRITE, READ and, with BITOP_ADVANCE, the bit commands, whatever
NCHR and PITCH hold. -/
def Obligations.AutoAdvanceIsModulo65536 : Prop :=
  ∀ (d : Byte) (s : State), s.seqst = .idle → ctlAnswers s →
    ∀ i, i = .write d ∨ i = .read ∨ (s.params.bitopAdvance = true ∧ (i = .clearBit d ∨ i = .setBit d)) →
      ∃ t, exec i s = .next t ∧ t.ctl.cur.toNat = (s.ctl.cur.toNat + 1) % 65536

/-- Reserved command codes (R162): the data phase of 0x4 to 0x7 is a fault, in a transaction and in a cycle of its own. -/
def Obligations.ReservedCommandsFault : Prop :=
  ∀ (d : Byte) (s : State),
    (s.seqst = .idle → ctlAnswers s →
      exec (.reservedCmd4 d) s = .fault .reservedCommand ∧ exec (.reservedCmd5 d) s = .fault .reservedCommand ∧
      exec (.reservedCmd6 d) s = .fault .reservedCommand ∧ exec (.reservedCmd7 d) s = .fault .reservedCommand) ∧
    (s.seqst = .idle → s.ctl.bf = false → 4 ≤ s.ctl.ir.toNat → s.ctl.ir.toNat ≤ 7 →
      exec (.dwr d) s = .fault .reservedCommand)

/-- A wait that finds CTL busy and never completing (40_bus_transport.md R122, R131), where no turn is listed (that the step
ends there is the model's choice, log 9): SEQ is held at transaction 0 of the request, in the polling loop, and CTL is as it
was. -/
def Obligations.BusyControllerHoldsRequest : Prop :=
  ∀ (i : Instr) (s : State), s.seqst = .idle → s.turns = [] → s.ctl.bf = true → s.responsive = false →
    i.isBusCycle = false → i.namedOperation = true → i.pixelStateDefined = true → (∀ x y d, i = .scrollUp x y d → y ≠ 0) →
    ∃ t, exec i s = .next t ∧ held 0 t ∧ t.ctl = s.ctl ∧ keepsSeq s t ∧ t.turns = s.turns

/-! ### Bus cycles -/

/-- IRW (R127): CTL latches bits 3:0 of the logical byte, under either wiring; BF does not set; a second IRW overwrites. That
the lines end in the idle condition (R125) after a cycle on its own, in `busCycleDone`, is the model's choice (log 15). -/
def Obligations.InstructionWriteLatchesCommand : Prop :=
  ∀ (db : Byte) (s : State), s.seqst = .idle → s.ctl.bf = false → s.pins.dir = .out →
    ∃ t, exec (.irw db) s = .next t ∧ t.ctl = { s.ctl with ir := db.extractLsb' 0 4, phaseDone := false } ∧
      busCycleDone s t ∧ t.smp = s.smp

/-- STR (R128): bit 7 of the sampled logical byte is BF, under either wiring; CTL is unchanged, busy or not. -/
def Obligations.StatusReadShowsBusyFlag : Prop :=
  ∀ s : State, s.seqst = .idle →
    ∃ t, exec .str s = .next t ∧ t.ctl = s.ctl ∧ t.smp.getLsbD 7 = s.ctl.bf ∧ busCycleDone s t

/-- DWR (R129): the command in IR executes with the logical byte as operand and BF sets; with IR reserved or READ it is a
fault. `phaseDone = false` says that the cycle is no burst (R133). The model's choices: that with IR reserved or READ this fault
and not the burst is reported where the cycle is a burst too (log 16), and the idle lines after a cycle on its own, in
`busCycleDone` (log 15). -/
def Obligations.DataWriteExecutesCommandInIr : Prop :=
  ∀ (d : Byte) (s : State), s.seqst = .idle → s.ctl.bf = false → s.pins.dir = .out →
    (∀ k, commandOf s.ctl.ir = some k → k ≠ .read → s.ctl.phaseDone = false →
      ∃ t, exec (.dwr d) s = .next t ∧ t.ctl = { (ctlExec k d s).ctl with bf := true, phaseDone := true } ∧
        busCycleDone s t ∧ t.smp = s.smp) ∧
    (commandOf s.ctl.ir = none → exec (.dwr d) s = .fault .reservedCommand) ∧
    (s.ctl.ir = 0xD → exec (.dwr d) s = .fault .writePhaseAfterRead)

/-- DRD (R130): with IR = READ, SEQ samples the byte at the cursor from before the advance, then the cursor advances and BF
sets; with any other IR it is a fault. The model's choices: that with any other IR this fault and not the burst is reported
where the cycle is a burst too (log 16), and the idle lines after a cycle on its own, in `busCycleDone` (log 15). -/
def Obligations.DataReadReturnsByteAndAdvances : Prop :=
  ∀ s : State, s.seqst = .idle → s.ctl.bf = false →
    (s.ctl.ir = 0xD → s.ctl.phaseDone = false →
      ∃ t, exec .drd s = .next t ∧ t.ctl = { s.ctl with cur := s.ctl.cur + 1, bf := true, phaseDone := true } ∧
        (∀ v, s.ctl.mem.get (memMap s.params s.ctl.cur) = some v → t.smp = v) ∧ busCycleDone s t) ∧
    (s.ctl.ir ≠ 0xD → exec .drd s = .fault .readPhaseWithoutReadCommand)

/-- A bus cycle other than a status read while BF = 1 (R132) is a fault. -/
def Obligations.TransferWhileBusyFaults : Prop :=
  ∀ (d : Byte) (s : State), s.seqst = .idle → s.ctl.bf = true →
    exec (.irw d) s = .fault .transferWhileBusy ∧ exec (.dwr d) s = .fault .transferWhileBusy ∧
    exec .drd s = .fault .transferWhileBusy

/-- A second data phase with no IRW between (R133) is a fault, for writes and for reads. -/
def Obligations.BurstFaults : Prop :=
  ∀ (d : Byte) (s : State), s.seqst = .idle → s.ctl.bf = false → s.ctl.phaseDone = true →
    (∀ k, commandOf s.ctl.ir = some k → k ≠ .read → exec (.dwr d) s = .fault .burstNotSupported) ∧
    (s.ctl.ir = 0xD → exec .drd s = .fault .burstNotSupported)

/-- `rev8` and `wire` (R120): bit i is bit 7-i, and either wiring is its own inverse. -/
def Obligations.WiringIsItsOwnInverse : Prop :=
  ∀ (p : Params) (b : Byte), wire p (wire p b) = b ∧ (∀ i, i < 8 → (rev8 b).getLsbD i = b.getLsbD (7 - i)) ∧
    wire p b = if p.reversed then rev8 b else b

/-! ### Operations -/

/-- MOVE (R180, R181): the cursor becomes ((y*WIDTH + x)/8) mod 2^16, computed over the naturals, by CUR_LO then CUR_HI;
memory and every other register but IR and BF are as before. No check of the coordinates (R182). -/
def Obligations.MoveSetsCursor : Prop :=
  ∀ (x y : BitVec 16) (d : Byte) (s : State), s.seqst = .idle → prompt s →
    operationTxs s.params ⟨0x1, x, y, d⟩ =
      [.send 0xA (BitVec.ofNat 8 ((y.toNat * s.params.width + x.toNat) / 8 % 256)),
       .send 0xB (BitVec.ofNat 8 ((y.toNat * s.params.width + x.toNat) / 8 / 256 % 256))] ∧
    ∃ t, exec (.move x y d) s = .next t ∧ operationDone .curHi 0x1 x y d s t ∧
      t.ctl = { s.ctl with
        cur := BitVec.ofNat 16 ((y.toNat * s.params.width + x.toNat) / 8)
        ir := t.ctl.ir, bf := t.ctl.bf, phaseDone := t.ctl.phaseDone } ∧
      t.lb = s.lb ∧ t.res = s.res

/-- In range, pos is y*BPR + x/8 and lies on the surface (R181, R182, 20_memory.md R61). -/
def Obligations.InRangePositionIsOnSurface : Prop :=
  ∀ (p : Params) (x y : Nat), paramsOk p = true → x < p.width → y < p.height →
    pos p x y = y * bpr p + x / 8 ∧ pos p x y < surfaceBytes p

/-- DRAW_BYTE (R190): one WRITE; the byte at the cursor becomes the operand and the cursor advances. -/
def Obligations.DrawByteStoresAtCursor : Prop :=
  ∀ (x y : BitVec 16) (d : Byte) (s : State), s.seqst = .idle → prompt s →
    operationTxs s.params ⟨0x2, x, y, d⟩ = [.send 0xC d] ∧
    ∃ t, exec (.drawByte x y d) s = .next t ∧ operationDone .write 0x2 x y d s t ∧
      t.ctl = { s.ctl with
        mem := t.ctl.mem, cur := s.ctl.cur + 1
        ir := t.ctl.ir, bf := t.ctl.bf, phaseDone := t.ctl.phaseDone } ∧
      t.ctl.mem.get (memMap s.params s.ctl.cur) = some d ∧ sameCellsBut (memMap s.params s.ctl.cur) s t ∧
      t.lb = s.lb ∧ t.res = s.res

/-- READ_BYTE (R191): one `receive`; RES becomes the byte at the cursor, a free byte where nothing has written it; the cursor advances;
memory is unchanged. -/
def Obligations.ReadByteLoadsResult : Prop :=
  ∀ (x y : BitVec 16) (d : Byte) (s : State), s.seqst = .idle → prompt s →
    operationTxs s.params ⟨0x6, x, y, d⟩ = [.recvRes] ∧
    ∃ t, exec (.readByte x y d) s = .next t ∧ operationDone .read 0x6 x y d s t ∧
      t.ctl = { s.ctl with
        cur := s.ctl.cur + 1
        ir := t.ctl.ir, bf := t.ctl.bf, phaseDone := t.ctl.phaseDone } ∧
      (∀ v, s.ctl.mem.get (memMap s.params s.ctl.cur) = some v → t.res = v) ∧
      (s.ctl.mem.get (memMap s.params s.ctl.cur) = none → ∃ n, s.draws ≤ n ∧ t.res = Config.any8 n) ∧ t.lb = s.lb

/-- PLOT_BYTE (R192): the two transactions of `move`, then a WRITE; the byte at pos becomes the operand, unshifted, and the cursor ends one past it. -/
def Obligations.PlotByteStoresAtPosition : Prop :=
  ∀ (x y : BitVec 16) (d : Byte) (s : State), s.seqst = .idle → prompt s →
    operationTxs s.params ⟨0x3, x, y, d⟩ =
      [.send 0xA (BitVec.ofNat 8 (pos s.params x.toNat y.toNat % 256)),
       .send 0xB (BitVec.ofNat 8 (pos s.params x.toNat y.toNat / 256 % 256)), .send 0xC d] ∧
    ∃ t, exec (.plotByte x y d) s = .next t ∧ operationDone .write 0x3 x y d s t ∧
      t.ctl = { s.ctl with
        mem := t.ctl.mem, cur := BitVec.ofNat 16 (pos s.params x.toNat y.toNat + 1)
        ir := t.ctl.ir, bf := t.ctl.bf, phaseDone := t.ctl.phaseDone } ∧
      t.ctl.mem.get (memMap s.params (BitVec.ofNat 16 (pos s.params x.toNat y.toNat))) = some d ∧
      sameCellsBut (memMap s.params (BitVec.ofNat 16 (pos s.params x.toNat y.toNat))) s t ∧ t.lb = s.lb ∧ t.res = s.res

/-- PLOT_PIXEL with a recognised state (R193): the two transactions of `move`, then SET_BIT or CLEAR_BIT x mod 8; bit x mod 8 of the byte at pos becomes the state, the other seven keep their
value where the byte had one; the cursor ends at pos + BITOP_ADVANCE. -/
def Obligations.PlotPixelChangesOneBit : Prop :=
  ∀ (x y : BitVec 16) (d : Byte) (s : State), s.seqst = .idle → prompt s → d = 0 ∨ d = 1 →
    operationTxs s.params ⟨0x4, x, y, d⟩ =
      [.send 0xA (BitVec.ofNat 8 (pos s.params x.toNat y.toNat % 256)),
       .send 0xB (BitVec.ofNat 8 (pos s.params x.toNat y.toNat / 256 % 256)),
       .send (if d = 1 then 0xF else 0xE) (BitVec.ofNat 8 (x.toNat % 8))] ∧
    ∃ t v, exec (.plotPixel x y d) s = .next t ∧
      operationDone (if d = 1 then .setBit else .clearBit) 0x4 x y d s t ∧
      t.ctl = { s.ctl with
        mem := t.ctl.mem
        cur := BitVec.ofNat 16 (pos s.params x.toNat y.toNat + if s.params.bitopAdvance then 1 else 0)
        ir := t.ctl.ir, bf := t.ctl.bf, phaseDone := t.ctl.phaseDone } ∧
      t.ctl.mem.get (memMap s.params (BitVec.ofNat 16 (pos s.params x.toNat y.toNat))) = some v ∧
      v.getLsbD (x.toNat % 8) = decide (d = 1) ∧
      (∀ b, s.ctl.mem.get (memMap s.params (BitVec.ofNat 16 (pos s.params x.toNat y.toNat))) = some b →
        ∀ j, j < 8 → j ≠ x.toNat % 8 → v.getLsbD j = b.getLsbD j) ∧
      sameCellsBut (memMap s.params (BitVec.ofNat 16 (pos s.params x.toNat y.toNat))) s t ∧ t.lb = s.lb ∧ t.res = s.res

/-- CLEAR (R194): `move(0, 0)`, then SURFACE_BYTES writes of 0; every surface byte becomes 0, the cursor ends at SURFACE_BYTES mod 2^16, off-surface cells and every
other register but IR and BF are as before. -/
def Obligations.ClearZeroesSurface : Prop :=
  ∀ (x y : BitVec 16) (d : Byte) (s : State), paramsOk s.params = true → s.seqst = .idle → prompt s →
    operationTxs s.params ⟨0x5, x, y, d⟩ =
      .send 0xA 0 :: .send 0xB 0 :: List.replicate (surfaceBytes s.params) (.send 0xC 0) ∧
    ∃ t, exec (.clear x y d) s = .next t ∧ operationDone .write 0x5 x y d s t ∧
      t.ctl = { s.ctl with
        mem := t.ctl.mem, cur := BitVec.ofNat 16 (surfaceBytes s.params)
        ir := t.ctl.ir, bf := t.ctl.bf, phaseDone := t.ctl.phaseDone } ∧
      (∀ a, a < surfaceBytes s.params → t.ctl.mem.get a = some 0) ∧
      (∀ a, surfaceBytes s.params ≤ a → t.ctl.mem.get a = s.ctl.mem.get a) ∧ t.lb = s.lb ∧ t.res = s.res

/-- CLEAR twice (R197): the second issues the same transactions and leaves the same memory and the same cursor. -/
def Obligations.ClearIsIdempotent : Prop :=
  ∀ (x y x' y' : BitVec 16) (d d' : Byte) (s : State), paramsOk s.params = true → s.seqst = .idle → prompt s →
    ∃ t u, exec (.clear x y d) s = .next t ∧ exec (.clear x' y' d') t = .next u ∧
      operationTxs t.params ⟨0x5, x', y', d'⟩ = operationTxs s.params ⟨0x5, x, y, d⟩ ∧
      (operationTxs t.params ⟨0x5, x', y', d'⟩).length = 2 + surfaceBytes s.params ∧ sameCells t u ∧
      (∀ a, a < surfaceBytes s.params → u.ctl.mem.get a = some 0) ∧ u.ctl.cur = t.ctl.cur

/-- INIT (R195): the configuration registers take the parameters, BPR - 1 and 0, the cursor is 0, memory is untouched. -/
def Obligations.InitConfigures : Prop :=
  ∀ (x y : BitVec 16) (d : Byte) (s : State), s.seqst = .idle → prompt s →
    operationTxs s.params ⟨0x0, x, y, d⟩ =
      [.send 0x0 s.params.initMode, .send 0x1 s.params.initPitch, .send 0x2 (BitVec.ofNat 8 (bpr s.params - 1)),
       .send 0x3 s.params.initTdiv, .send 0x8 0, .send 0x9 0, .send 0xA 0, .send 0xB 0] ∧
    ∃ t, exec (.init x y d) s = .next t ∧ operationDone .curHi 0x0 x y d s t ∧
      t.ctl = { s.ctl with
        mode := s.params.initMode, pitch := s.params.initPitch, nchr := BitVec.ofNat 8 (bpr s.params - 1)
        tdiv := s.params.initTdiv, start := 0, cur := 0, modeSeen := true
        ir := t.ctl.ir, bf := t.ctl.bf, phaseDone := t.ctl.phaseDone } ∧
      t.lb = s.lb ∧ t.res = s.res

/-- SCROLL_UP 0 (R213): no transaction and no busy-wait; CTL, the lines and the line buffer are unchanged even if CTL is
stuck busy. Only the latches take the request (10_state.md R33). -/
def Obligations.ScrollUpZeroDoesNothing : Prop :=
  ∀ (x : BitVec 16) (d : Byte) (s : State), s.seqst = .idle →
    exec (.scrollUp x 0 d) s = .next { s with latch := ⟨0x7, x, 0, d⟩, rawTx := none }

/-- SCROLL_UP n for n >= HEIGHT (R214) is CLEAR, transaction for transaction: the two answers agree but for the latches, in
every state, a held one too. -/
def Obligations.ScrollUpByHeightIsClear : Prop :=
  ∀ (x y x' y' : BitVec 16) (d d' : Byte) (l : Latches) (s : State),
    paramsOk s.params = true → s.params.height ≤ y.toNat →
    mapNext (withLatch l) (exec (.scrollUp x y d) s) = mapNext (withLatch l) (exec (.clear x' y' d') s)

/-- SCROLL_UP n for 0 < n < HEIGHT (R218): row r holds what row r + n held for r < HEIGHT - n, the last n rows are zero,
off-surface cells are unchanged; a byte nothing had written moves as some byte. The cursor ends at SURFACE_BYTES (R212). -/
def Obligations.ScrollUpShiftsRows : Prop :=
  ∀ (x y : BitVec 16) (d : Byte) (s : State), StateInv s → s.seqst = .idle → prompt s → 0 < y.toNat →
    y.toNat < s.params.height →
    ∃ t, exec (.scrollUp x y d) s = .next t ∧ operationDone .write 0x7 x y d s t ∧
      t.ctl = { s.ctl with
        mem := t.ctl.mem, cur := BitVec.ofNat 16 (surfaceBytes s.params)
        ir := t.ctl.ir, bf := t.ctl.bf, phaseDone := t.ctl.phaseDone } ∧
      (∀ a, a < (s.params.height - y.toNat) * bpr s.params →
        (∃ v, t.ctl.mem.get a = some v) ∧
        ∀ v, s.ctl.mem.get (a + y.toNat * bpr s.params) = some v → t.ctl.mem.get a = some v) ∧
      (∀ a, (s.params.height - y.toNat) * bpr s.params ≤ a → a < surfaceBytes s.params → t.ctl.mem.get a = some 0) ∧
      (∀ a, surfaceBytes s.params ≤ a → t.ctl.mem.get a = s.ctl.mem.get a) ∧ t.res = s.res

/-- PLOT_BYTE x, y, b; MOVE x, y; READ_BYTE leaves RES = b (R198, 20_memory.md R72), for either wiring. R198 says so for
in-range x and y; for the others the claim rests on the model's choice that one address selects one cell (20_memory.md R69,
log 6). -/
def Obligations.PlottedByteReadsBack : Prop :=
  ∀ (x y x' y' : BitVec 16) (b d d' : Byte) (s : State), s.seqst = .idle → prompt s →
    ∃ t u v, exec (.plotByte x y b) s = .next t ∧ exec (.move x y d) t = .next u ∧
      exec (.readByte x' y' d') u = .next v ∧ v.res = b

/-- The number of transactions of each operation (70_reset_and_hazards.md R267). -/
def Obligations.TransactionCounts : Prop :=
  ∀ (p : Params) (x y : BitVec 16) (d : Byte), paramsOk p = true →
    (operationTxs p ⟨0x0, x, y, d⟩).length = 8 ∧ (operationTxs p ⟨0x1, x, y, d⟩).length = 2 ∧
    (operationTxs p ⟨0x2, x, y, d⟩).length = 1 ∧ (operationTxs p ⟨0x3, x, y, d⟩).length = 3 ∧
    (operationTxs p ⟨0x4, x, y, d⟩).length = 3 ∧ (operationTxs p ⟨0x5, x, y, d⟩).length = 2 + surfaceBytes p ∧
    (operationTxs p ⟨0x6, x, y, d⟩).length = 1 ∧
    (operationTxs p ⟨0x7, x, y, d⟩).length =
      if y.toNat = 0 then 0
      else if y.toNat < p.height then (p.height - y.toNat) * (4 + 2 * bpr p) + 2 + y.toNat * bpr p
      else 2 + surfaceBytes p

/-- Fields an operation does not use change nothing (R102): the answers agree but for the latches. -/
def Obligations.UnusedFieldsChangeNothing : Prop :=
  ∀ (x y x' y' : BitVec 16) (d d' : Byte) (l : Latches) (s : State),
    mapNext (withLatch l) (exec (.init x y d) s) = mapNext (withLatch l) (exec (.init x' y' d') s) ∧
    mapNext (withLatch l) (exec (.clear x y d) s) = mapNext (withLatch l) (exec (.clear x' y' d') s) ∧
    mapNext (withLatch l) (exec (.readByte x y d) s) = mapNext (withLatch l) (exec (.readByte x' y' d') s) ∧
    mapNext (withLatch l) (exec (.move x y d) s) = mapNext (withLatch l) (exec (.move x y d') s) ∧
    mapNext (withLatch l) (exec (.drawByte x y d) s) = mapNext (withLatch l) (exec (.drawByte x' y' d) s) ∧
    mapNext (withLatch l) (exec (.scrollUp x y d) s) = mapNext (withLatch l) (exec (.scrollUp x' y d') s)

/-! ### Refusals -/

/-- A request while SEQ is running (60_exceptions.md R238), of any level, is refused. That transaction statements and bus cycles
on their own are requests of the host is the model's choice (log 13, log 15). -/
def Obligations.RequestWhileRunningRefused : Prop :=
  ∀ (i : Instr) (n : Nat) (s : State), s.seqst = .running n → exec i s = .refused .busySequencer

/-- Operation codes 0x8 to 0xF (R100) are refused. -/
def Obligations.ReservedOperationsRefused : Prop :=
  ∀ (i : Instr) (s : State), s.seqst = .idle → i.namedOperation = false → exec i s = .refused .reservedOperation

/-- A pixel state other than 0 and 1 (R101) is refused before any transaction. -/
def Obligations.UndefinedPixelStateRefused : Prop :=
  ∀ (x y : BitVec 16) (d : Byte) (s : State), s.seqst = .idle → d ≠ 0 → d ≠ 1 →
    exec (.plotPixel x y d) s = .refused .undefinedPixelState

/-- A configuration that breaks 00_scope.md R6 or R7 is refused. -/
def Obligations.BadConfigurationRefused : Prop :=
  ∀ s : State, s.params.width = 0 ∨ s.params.width % 8 ≠ 0 ∨ s.params.height = 0 ∨ 255 < s.params.width / 8 - 1 ∨
    65536 < s.params.width * s.params.height / 8 → step s = .refused .badConfiguration

/-! ### The machine -/

/-- A step of an idle block that is not CTL's turn runs the decoded instruction of the host's next statement, after CTL has
settled (log 10), and the turn is over. -/
def Obligations.StepRunsDecodedStatement : Prop :=
  ∀ (s : State) (p : Packet) (rest : List Packet) (i : Instr), paramsOk s.params = true → s.seqst = .idle →
    (∀ l, s.turns ≠ .ctl :: l) → s.program = p :: rest → decode p = .ok i →
    step s = mapNext endTurn (exec i { settled s with program := rest })

/-- A table word placed as the host's next statement (log 11) is what the next step of an idle block runs. -/
def Obligations.FetchedWordRuns : Prop :=
  ∀ (nbits w : Nat) (i : Instr) (s : State), paramsOk s.params = true → s.seqst = .idle →
    decodeTableWord nbits w = some i →
    step (s.withFetchWord nbits w) =
      mapNext endTurn (exec i (settled (withTurns (s.turns.dropWhile (· == Turn.ctl)) s)))

/-- A step of a running SEQ goes on with its list at the index SEQST holds (10_state.md R35): to the end where no turn is
listed, by one atomic step at SEQ's turn (log 9). -/
def Obligations.StepGoesOnWithRunningList : Prop :=
  ∀ (s : State) (i : Nat), paramsOk s.params = true → s.seqst = .running i →
    (s.turns = [] → step s = runTxs i ((currentTxs s).drop i) s) ∧
    (∀ l, s.turns = .seq :: l → step s = mapNext (withTurns l) (seqStep i ((currentTxs s).drop i) s))

/-- CTL's completion step (40_bus_transport.md R131) changes nothing but BF: at a turn of CTL, whether SEQ is running or idle
and whatever the host has to present, and, where no turn is listed, in an idle block with nothing to present. That it fires at
these steps is a free value's choice (log 8, log 22). -/
def Obligations.CompletionClearsOnlyBusyFlag : Prop :=
  ∀ s : State, paramsOk s.params = true →
    (∀ l, s.turns = .ctl :: l → step s = .next { s with ctl := { s.ctl with bf := false }, turns := l }) ∧
    (s.seqst = .idle → s.program = [] → s.turns = [] → s.responsive = true →
      step s = .next { s with ctl := { s.ctl with bf := false } })

/-- The state the spec gives after power-on reset (10_state.md R41). -/
def Obligations.ResetLeavesSequencerIdle : Prop :=
  State.reset.seqst = .idle ∧ State.reset.pins.dir = .out ∧ State.reset.pins.rs = false ∧
  State.reset.pins.rw = false ∧ State.reset.pins.e = false

/-- The invariant holds after reset. -/
def Obligations.ResetMeetsInvariant : Prop := StateInv State.reset

/-- Every step keeps the invariant: legal parameters, canonical memory, a line buffer of BPR bytes, and the lines in the
idle condition whenever SEQST = IDLE (40_bus_transport.md R125). -/
def Obligations.StepKeepsInvariant : Prop := ∀ s t : State, StateInv s → step s = .next t → StateInv t

/-- The parameters never change (00_scope.md R6). -/
def Obligations.StepKeepsParameters : Prop := ∀ s t : State, step s = .next t → t.params = s.params

/-- No run of operation requests reaches a protocol fault (60_exceptions.md R230). -/
def Obligations.OperationsNeverFault : Prop := ∀ s : State, operationsOnly s → neverFaults s

/-- The hang (60_exceptions.md R231): if CTL has no turn and never completes, a held SEQ stays where it is for ever; SEQST, CTL,
the lines, the latches, the line buffer and the result are unchanged, and no fault is recorded. -/
def Obligations.HangLastsForEver : Prop :=
  ∀ (s : State) (i k : Nat), paramsOk s.params = true → held i s → s.responsive = false → (∀ m ∈ s.turns, m = .seq) →
    ∃ t, run k s = .next t ∧ held i t ∧ t.ctl = s.ctl ∧ t.pins = s.pins ∧ t.latch = s.latch ∧ t.rawTx = s.rawTx ∧
      keepsSeq s t

/-- If CTL is responsive, a running list completes within one step more than the turns listed (40_bus_transport.md R131), however
the turns of SEQ and CTL interleave; and it leaves what the list leaves when a responsive CTL's request is one step, but for the
number of polls: so what the functional statements say of a prompt CTL holds of every interleaving (log 9). -/
def Obligations.ResponsiveOperationCompletes : Prop :=
  ∀ (s : State) (i : Nat), StateInv s → s.seqst = .running i → s.responsive = true →
    ∃ k, k ≤ s.turns.length + 1 ∧ mapNext withoutPolls (run k s) = mapNext withoutPolls (step (withTurns [] s)) ∧
      (∀ t, run k s = .next t → t.seqst = .idle ∧
        (s.rawTx = some .recv → ∃ u, step (withTurns [] s) = .next u ∧ t.smp = u.smp)) ∧
      (s.rawTx = none → ∃ t, run k s = .next t)

/-- No operation but INIT writes a configuration register (10_state.md R39): not when its request is taken, and at no later step
of a list of one that is running. -/
def Obligations.OnlyInitWritesConfiguration : Prop :=
  (∀ (i : Instr) (s t : State), i.isOperation = true → (∀ x y d, i ≠ .init x y d) → exec i s = .next t →
    sameConfiguration s t) ∧
  ∀ (n : Nat) (s t : State), s.seqst = .running n → s.rawTx = none → s.latch.opc ≠ 0 → step s = .next t →
    sameConfiguration s t

/-- RES changes only by READ_BYTE (10_state.md R36): by no other instruction, and by no step but one that goes on with READ_BYTE's
list or takes its request. -/
def Obligations.OnlyReadByteWritesResult : Prop :=
  (∀ (i : Instr) (s t : State), (∀ x y d, i ≠ .readByte x y d) → exec i s = .next t → t.res = s.res) ∧
  ∀ s t : State, (∀ n, s.seqst = .running n → s.rawTx = none → s.latch.opc ≠ 6) →
    (∀ p rest x y d, s.seqst = .idle → s.program = p :: rest → decode p ≠ .ok (.readByte x y d)) →
    step s = .next t → t.res = s.res

/-- The configuration registers are storage only (41_controller_commands.md R164): two blocks that differ in nothing else
take steps that differ in nothing else. -/
def Obligations.ConfigurationIsStorageOnly : Prop :=
  ∀ (m p n td : Byte) (st : BitVec 16) (s : State),
    mapNext (withConfiguration m p n td st) (step (withConfiguration m p n td st s)) =
    mapNext (withConfiguration m p n td st) (step s)

/-- Nothing above the transport depends on REVERSED (20_memory.md R66, 40_bus_transport.md R134, R135): two blocks that
differ in the wiring take steps that differ in the wiring and the physical byte on the lines only. -/
def Obligations.WiringIsInvisible : Prop :=
  ∀ (r : Bool) (o : Byte) (s : State), StateInv s →
    mapNext (withWiring r o) (step (withWiring r o s)) = mapNext (withWiring r o) (step s)

/-! ### The atomic steps (00_scope.md R10, R11) -/

/-- SEQ's turn (R10, R11, 10_state.md R35): with BF = 1 it is one poll and nothing else, whose sample shows BF; with BF = 0 it is
exactly one transaction, a named `send` that executes its command or a `receive` of the byte at the cursor, and SEQST counts on. -/
def Obligations.SeqTurnIsPollOrTransaction : Prop :=
  ∀ (s : State) (i : Nat) (l : List Turn) (x : Tx) (ts : List Tx), paramsOk s.params = true → s.seqst = .running i →
    s.turns = .seq :: l → (currentTxs s).drop i = x :: ts →
    (s.ctl.bf = true → ∃ v, v.getLsbD 7 = true ∧
      step s = .next { s with pins := Pins.polling s.pins.dout, smp := v, samples := s.samples + 1, turns := l }) ∧
    (s.ctl.bf = false →
      (∀ k d, k ≠ .read → x = sendOf k d ∨ (k = .write ∧ ∃ j, x = .sendLb j ∧ d = s.lb.getD j 0) →
        ∃ t, step s = .next t ∧ transactionTurnDone i ts l s t ∧ t.lb = s.lb ∧ t.res = s.res ∧
          t.ctl = { (ctlExec k d { s with ctl := { s.ctl with ir := codeOf k, phaseDone := false } }).ctl with
            bf := true, phaseDone := true }) ∧
      (x = .recv ∨ x = .recvRes ∨ (∃ j, x = .recvLb j) →
        ∃ t, step s = .next t ∧ transactionTurnDone i ts l s t ∧
          t.ctl = { s.ctl with ir := codeOf .read, cur := s.ctl.cur + 1, bf := true, phaseDone := true } ∧
          (∀ v, s.ctl.mem.get (memMap s.params s.ctl.cur) = some v → t.smp = v) ∧
          (x = .recv → t.lb = s.lb ∧ t.res = s.res) ∧ (x = .recvRes → t.lb = s.lb ∧ t.res = t.smp) ∧
          (∀ j, x = .recvLb j → t.lb = s.lb.set j t.smp ∧ t.res = s.res)))

/-- The host's turn (R10, R35): where turns are listed, taking a request is a step of its own, in which the latches (of an
operation, R33, R94) and SEQST = RUNNING(0) are all that changes; the list that is then to run is the one the request runs in one
step where no turn is listed (log 9). -/
def Obligations.RequestAloneIsAccepted : Prop :=
  ∀ (i : Instr) (s : State), s.seqst = .idle → s.turns ≠ [] → i.isBusCycle = false → i.namedOperation = true →
    i.pixelStateDefined = true → (∀ x y d, i = .scrollUp x y d → y ≠ 0) →
    ∃ t, exec i s = .next t ∧
      t = { s with latch := t.latch, rawTx := t.rawTx, seqst := .running 0 } ∧
      (i.isOperation = true → t.rawTx = none ∧ encode i = wordOp t.latch.opc.toNat t.latch.x t.latch.y t.latch.d) ∧
      (i.isOperation = false → t.latch = s.latch) ∧ currentTxs t ≠ [] ∧
      exec i (withTurns [] s) = runTxs 0 (currentTxs t) (withTurns [] t)

/-- A step where no turn is listed is nothing but atomic steps (00_scope.md R10, R11, log 9): some turns lead through them to the
same answer. -/
def Obligations.WholeStepIsAtomicSteps : Prop :=
  ∀ s : State, s.turns = [] → ∃ l, l ≠ [] ∧ run l.length (withTurns l s) = step s
end

