-- ==== Sys2Proof/Laws/State.lean ====
section
/-! SUPPORT. The fields of the named updates of State, one lemma per field per update, and what a free draw gives. -/

namespace Sys2Proof.Machine

@[simp] theorem any8_fst (s : State) : (any8 s).1 = Config.any8 s.draws := rfl

@[simp] theorem any8_params (s : State) : (any8 s).2.params = s.params := rfl
@[simp] theorem any8_ctl (s : State) : (any8 s).2.ctl = s.ctl := rfl
@[simp] theorem any8_pins (s : State) : (any8 s).2.pins = s.pins := rfl
@[simp] theorem any8_latch (s : State) : (any8 s).2.latch = s.latch := rfl
@[simp] theorem any8_lb (s : State) : (any8 s).2.lb = s.lb := rfl
@[simp] theorem any8_seqst (s : State) : (any8 s).2.seqst = s.seqst := rfl
@[simp] theorem any8_res (s : State) : (any8 s).2.res = s.res := rfl
@[simp] theorem any8_smp (s : State) : (any8 s).2.smp = s.smp := rfl
@[simp] theorem any8_rawTx (s : State) : (any8 s).2.rawTx = s.rawTx := rfl
@[simp] theorem any8_program (s : State) : (any8 s).2.program = s.program := rfl
@[simp] theorem any8_turns (s : State) : (any8 s).2.turns = s.turns := rfl
@[simp] theorem any8_responsive (s : State) : (any8 s).2.responsive = s.responsive := rfl
@[simp] theorem any8_draws (s : State) : (any8 s).2.draws = s.draws + 1 := rfl
@[simp] theorem any8_samples (s : State) : (any8 s).2.samples = s.samples := rfl

@[simp] theorem memWrite_params (s : State) (a : Addr) (v : Byte) : (memWrite s a v).params = s.params := rfl
@[simp] theorem memWrite_ctl (s : State) (a : Addr) (v : Byte) : (memWrite s a v).ctl = { s.ctl with mem := s.ctl.mem.put (memMap s.params a) v } := rfl
@[simp] theorem memWrite_pins (s : State) (a : Addr) (v : Byte) : (memWrite s a v).pins = s.pins := rfl
@[simp] theorem memWrite_latch (s : State) (a : Addr) (v : Byte) : (memWrite s a v).latch = s.latch := rfl
@[simp] theorem memWrite_lb (s : State) (a : Addr) (v : Byte) : (memWrite s a v).lb = s.lb := rfl
@[simp] theorem memWrite_seqst (s : State) (a : Addr) (v : Byte) : (memWrite s a v).seqst = s.seqst := rfl
@[simp] theorem memWrite_res (s : State) (a : Addr) (v : Byte) : (memWrite s a v).res = s.res := rfl
@[simp] theorem memWrite_smp (s : State) (a : Addr) (v : Byte) : (memWrite s a v).smp = s.smp := rfl
@[simp] theorem memWrite_rawTx (s : State) (a : Addr) (v : Byte) : (memWrite s a v).rawTx = s.rawTx := rfl
@[simp] theorem memWrite_program (s : State) (a : Addr) (v : Byte) : (memWrite s a v).program = s.program := rfl
@[simp] theorem memWrite_turns (s : State) (a : Addr) (v : Byte) : (memWrite s a v).turns = s.turns := rfl
@[simp] theorem memWrite_responsive (s : State) (a : Addr) (v : Byte) : (memWrite s a v).responsive = s.responsive := rfl
@[simp] theorem memWrite_draws (s : State) (a : Addr) (v : Byte) : (memWrite s a v).draws = s.draws := rfl
@[simp] theorem memWrite_samples (s : State) (a : Addr) (v : Byte) : (memWrite s a v).samples = s.samples := rfl

@[simp] theorem advanceCur_params (s : State) : (advanceCur s).params = s.params := rfl
@[simp] theorem advanceCur_ctl (s : State) : (advanceCur s).ctl = { s.ctl with cur := advance s.ctl.cur } := rfl
@[simp] theorem advanceCur_pins (s : State) : (advanceCur s).pins = s.pins := rfl
@[simp] theorem advanceCur_latch (s : State) : (advanceCur s).latch = s.latch := rfl
@[simp] theorem advanceCur_lb (s : State) : (advanceCur s).lb = s.lb := rfl
@[simp] theorem advanceCur_seqst (s : State) : (advanceCur s).seqst = s.seqst := rfl
@[simp] theorem advanceCur_res (s : State) : (advanceCur s).res = s.res := rfl
@[simp] theorem advanceCur_smp (s : State) : (advanceCur s).smp = s.smp := rfl
@[simp] theorem advanceCur_rawTx (s : State) : (advanceCur s).rawTx = s.rawTx := rfl
@[simp] theorem advanceCur_program (s : State) : (advanceCur s).program = s.program := rfl
@[simp] theorem advanceCur_turns (s : State) : (advanceCur s).turns = s.turns := rfl
@[simp] theorem advanceCur_responsive (s : State) : (advanceCur s).responsive = s.responsive := rfl
@[simp] theorem advanceCur_draws (s : State) : (advanceCur s).draws = s.draws := rfl
@[simp] theorem advanceCur_samples (s : State) : (advanceCur s).samples = s.samples := rfl

@[simp] theorem setSelect_params (rs rw : Bool) (s : State) : (setSelect rs rw s).params = s.params := rfl
@[simp] theorem setSelect_ctl (rs rw : Bool) (s : State) : (setSelect rs rw s).ctl = s.ctl := rfl
@[simp] theorem setSelect_pins (rs rw : Bool) (s : State) : (setSelect rs rw s).pins = { s.pins with rs := rs, rw := rw } := rfl
@[simp] theorem setSelect_latch (rs rw : Bool) (s : State) : (setSelect rs rw s).latch = s.latch := rfl
@[simp] theorem setSelect_lb (rs rw : Bool) (s : State) : (setSelect rs rw s).lb = s.lb := rfl
@[simp] theorem setSelect_seqst (rs rw : Bool) (s : State) : (setSelect rs rw s).seqst = s.seqst := rfl
@[simp] theorem setSelect_res (rs rw : Bool) (s : State) : (setSelect rs rw s).res = s.res := rfl
@[simp] theorem setSelect_smp (rs rw : Bool) (s : State) : (setSelect rs rw s).smp = s.smp := rfl
@[simp] theorem setSelect_rawTx (rs rw : Bool) (s : State) : (setSelect rs rw s).rawTx = s.rawTx := rfl
@[simp] theorem setSelect_program (rs rw : Bool) (s : State) : (setSelect rs rw s).program = s.program := rfl
@[simp] theorem setSelect_turns (rs rw : Bool) (s : State) : (setSelect rs rw s).turns = s.turns := rfl
@[simp] theorem setSelect_responsive (rs rw : Bool) (s : State) : (setSelect rs rw s).responsive = s.responsive := rfl
@[simp] theorem setSelect_draws (rs rw : Bool) (s : State) : (setSelect rs rw s).draws = s.draws := rfl
@[simp] theorem setSelect_samples (rs rw : Bool) (s : State) : (setSelect rs rw s).samples = s.samples := rfl

@[simp] theorem setDir_params (v : Dir) (s : State) : (setDir v s).params = s.params := rfl
@[simp] theorem setDir_ctl (v : Dir) (s : State) : (setDir v s).ctl = s.ctl := rfl
@[simp] theorem setDir_pins (v : Dir) (s : State) : (setDir v s).pins = { s.pins with dir := v } := rfl
@[simp] theorem setDir_latch (v : Dir) (s : State) : (setDir v s).latch = s.latch := rfl
@[simp] theorem setDir_lb (v : Dir) (s : State) : (setDir v s).lb = s.lb := rfl
@[simp] theorem setDir_seqst (v : Dir) (s : State) : (setDir v s).seqst = s.seqst := rfl
@[simp] theorem setDir_res (v : Dir) (s : State) : (setDir v s).res = s.res := rfl
@[simp] theorem setDir_smp (v : Dir) (s : State) : (setDir v s).smp = s.smp := rfl
@[simp] theorem setDir_rawTx (v : Dir) (s : State) : (setDir v s).rawTx = s.rawTx := rfl
@[simp] theorem setDir_program (v : Dir) (s : State) : (setDir v s).program = s.program := rfl
@[simp] theorem setDir_turns (v : Dir) (s : State) : (setDir v s).turns = s.turns := rfl
@[simp] theorem setDir_responsive (v : Dir) (s : State) : (setDir v s).responsive = s.responsive := rfl
@[simp] theorem setDir_draws (v : Dir) (s : State) : (setDir v s).draws = s.draws := rfl
@[simp] theorem setDir_samples (v : Dir) (s : State) : (setDir v s).samples = s.samples := rfl

@[simp] theorem drive_params (b : Byte) (s : State) : (drive b s).params = s.params := rfl
@[simp] theorem drive_ctl (b : Byte) (s : State) : (drive b s).ctl = s.ctl := rfl
@[simp] theorem drive_pins (b : Byte) (s : State) : (drive b s).pins = { s.pins with dout := wire s.params b } := rfl
@[simp] theorem drive_latch (b : Byte) (s : State) : (drive b s).latch = s.latch := rfl
@[simp] theorem drive_lb (b : Byte) (s : State) : (drive b s).lb = s.lb := rfl
@[simp] theorem drive_seqst (b : Byte) (s : State) : (drive b s).seqst = s.seqst := rfl
@[simp] theorem drive_res (b : Byte) (s : State) : (drive b s).res = s.res := rfl
@[simp] theorem drive_smp (b : Byte) (s : State) : (drive b s).smp = s.smp := rfl
@[simp] theorem drive_rawTx (b : Byte) (s : State) : (drive b s).rawTx = s.rawTx := rfl
@[simp] theorem drive_program (b : Byte) (s : State) : (drive b s).program = s.program := rfl
@[simp] theorem drive_turns (b : Byte) (s : State) : (drive b s).turns = s.turns := rfl
@[simp] theorem drive_responsive (b : Byte) (s : State) : (drive b s).responsive = s.responsive := rfl
@[simp] theorem drive_draws (b : Byte) (s : State) : (drive b s).draws = s.draws := rfl
@[simp] theorem drive_samples (b : Byte) (s : State) : (drive b s).samples = s.samples := rfl

@[simp] theorem assertE_params (s : State) : (assertE s).params = s.params := rfl
@[simp] theorem assertE_ctl (s : State) : (assertE s).ctl = s.ctl := rfl
@[simp] theorem assertE_pins (s : State) : (assertE s).pins = { s.pins with e := true } := rfl
@[simp] theorem assertE_latch (s : State) : (assertE s).latch = s.latch := rfl
@[simp] theorem assertE_lb (s : State) : (assertE s).lb = s.lb := rfl
@[simp] theorem assertE_seqst (s : State) : (assertE s).seqst = s.seqst := rfl
@[simp] theorem assertE_res (s : State) : (assertE s).res = s.res := rfl
@[simp] theorem assertE_smp (s : State) : (assertE s).smp = s.smp := rfl
@[simp] theorem assertE_rawTx (s : State) : (assertE s).rawTx = s.rawTx := rfl
@[simp] theorem assertE_program (s : State) : (assertE s).program = s.program := rfl
@[simp] theorem assertE_turns (s : State) : (assertE s).turns = s.turns := rfl
@[simp] theorem assertE_responsive (s : State) : (assertE s).responsive = s.responsive := rfl
@[simp] theorem assertE_draws (s : State) : (assertE s).draws = s.draws := rfl
@[simp] theorem assertE_samples (s : State) : (assertE s).samples = s.samples := rfl

@[simp] theorem deassertE_params (s : State) : (deassertE s).params = s.params := rfl
@[simp] theorem deassertE_ctl (s : State) : (deassertE s).ctl = s.ctl := rfl
@[simp] theorem deassertE_pins (s : State) : (deassertE s).pins = { s.pins with e := false } := rfl
@[simp] theorem deassertE_latch (s : State) : (deassertE s).latch = s.latch := rfl
@[simp] theorem deassertE_lb (s : State) : (deassertE s).lb = s.lb := rfl
@[simp] theorem deassertE_seqst (s : State) : (deassertE s).seqst = s.seqst := rfl
@[simp] theorem deassertE_res (s : State) : (deassertE s).res = s.res := rfl
@[simp] theorem deassertE_smp (s : State) : (deassertE s).smp = s.smp := rfl
@[simp] theorem deassertE_rawTx (s : State) : (deassertE s).rawTx = s.rawTx := rfl
@[simp] theorem deassertE_program (s : State) : (deassertE s).program = s.program := rfl
@[simp] theorem deassertE_turns (s : State) : (deassertE s).turns = s.turns := rfl
@[simp] theorem deassertE_responsive (s : State) : (deassertE s).responsive = s.responsive := rfl
@[simp] theorem deassertE_draws (s : State) : (deassertE s).draws = s.draws := rfl
@[simp] theorem deassertE_samples (s : State) : (deassertE s).samples = s.samples := rfl

@[simp] theorem unspecifiedConfiguration_params (s : State) : (unspecifiedConfiguration s).params = s.params := rfl
@[simp] theorem unspecifiedConfiguration_ctl (s : State) : (unspecifiedConfiguration s).ctl = { s.ctl with mode := Config.any8 s.draws, pitch := Config.any8 (s.draws + 1), nchr := Config.any8 (s.draws + 2), tdiv := Config.any8 (s.draws + 3), start := Config.any8 (s.draws + 4) ++ Config.any8 (s.draws + 5) } := rfl
@[simp] theorem unspecifiedConfiguration_pins (s : State) : (unspecifiedConfiguration s).pins = s.pins := rfl
@[simp] theorem unspecifiedConfiguration_latch (s : State) : (unspecifiedConfiguration s).latch = s.latch := rfl
@[simp] theorem unspecifiedConfiguration_lb (s : State) : (unspecifiedConfiguration s).lb = s.lb := rfl
@[simp] theorem unspecifiedConfiguration_seqst (s : State) : (unspecifiedConfiguration s).seqst = s.seqst := rfl
@[simp] theorem unspecifiedConfiguration_res (s : State) : (unspecifiedConfiguration s).res = s.res := rfl
@[simp] theorem unspecifiedConfiguration_smp (s : State) : (unspecifiedConfiguration s).smp = s.smp := rfl
@[simp] theorem unspecifiedConfiguration_rawTx (s : State) : (unspecifiedConfiguration s).rawTx = s.rawTx := rfl
@[simp] theorem unspecifiedConfiguration_program (s : State) : (unspecifiedConfiguration s).program = s.program := rfl
@[simp] theorem unspecifiedConfiguration_turns (s : State) : (unspecifiedConfiguration s).turns = s.turns := rfl
@[simp] theorem unspecifiedConfiguration_responsive (s : State) : (unspecifiedConfiguration s).responsive = s.responsive := rfl
@[simp] theorem unspecifiedConfiguration_draws (s : State) : (unspecifiedConfiguration s).draws = s.draws + 6 := rfl
@[simp] theorem unspecifiedConfiguration_samples (s : State) : (unspecifiedConfiguration s).samples = s.samples := rfl

@[simp] theorem ctlCompletion_params (s : State) : (ctlCompletion s).params = s.params := rfl
@[simp] theorem ctlCompletion_ctl (s : State) : (ctlCompletion s).ctl = { s.ctl with bf := false } := rfl
@[simp] theorem ctlCompletion_pins (s : State) : (ctlCompletion s).pins = s.pins := rfl
@[simp] theorem ctlCompletion_latch (s : State) : (ctlCompletion s).latch = s.latch := rfl
@[simp] theorem ctlCompletion_lb (s : State) : (ctlCompletion s).lb = s.lb := rfl
@[simp] theorem ctlCompletion_seqst (s : State) : (ctlCompletion s).seqst = s.seqst := rfl
@[simp] theorem ctlCompletion_res (s : State) : (ctlCompletion s).res = s.res := rfl
@[simp] theorem ctlCompletion_smp (s : State) : (ctlCompletion s).smp = s.smp := rfl
@[simp] theorem ctlCompletion_rawTx (s : State) : (ctlCompletion s).rawTx = s.rawTx := rfl
@[simp] theorem ctlCompletion_program (s : State) : (ctlCompletion s).program = s.program := rfl
@[simp] theorem ctlCompletion_turns (s : State) : (ctlCompletion s).turns = s.turns := rfl
@[simp] theorem ctlCompletion_responsive (s : State) : (ctlCompletion s).responsive = s.responsive := rfl
@[simp] theorem ctlCompletion_draws (s : State) : (ctlCompletion s).draws = s.draws := rfl
@[simp] theorem ctlCompletion_samples (s : State) : (ctlCompletion s).samples = s.samples := rfl

@[simp] theorem finish_params (s : State) : (finish s).params = s.params := rfl
@[simp] theorem finish_ctl (s : State) : (finish s).ctl = s.ctl := rfl
@[simp] theorem finish_pins (s : State) : (finish s).pins = s.pins := rfl
@[simp] theorem finish_latch (s : State) : (finish s).latch = s.latch := rfl
@[simp] theorem finish_lb (s : State) : (finish s).lb = s.lb := rfl
@[simp] theorem finish_seqst (s : State) : (finish s).seqst = .idle := rfl
@[simp] theorem finish_res (s : State) : (finish s).res = s.res := rfl
@[simp] theorem finish_smp (s : State) : (finish s).smp = s.smp := rfl
@[simp] theorem finish_rawTx (s : State) : (finish s).rawTx = none := rfl
@[simp] theorem finish_program (s : State) : (finish s).program = s.program := rfl
@[simp] theorem finish_turns (s : State) : (finish s).turns = s.turns := rfl
@[simp] theorem finish_responsive (s : State) : (finish s).responsive = s.responsive := rfl
@[simp] theorem finish_draws (s : State) : (finish s).draws = s.draws := rfl
@[simp] theorem finish_samples (s : State) : (finish s).samples = s.samples := rfl

@[simp] theorem endTurn_params (s : State) : (endTurn s).params = s.params := rfl
@[simp] theorem endTurn_ctl (s : State) : (endTurn s).ctl = s.ctl := rfl
@[simp] theorem endTurn_pins (s : State) : (endTurn s).pins = s.pins := rfl
@[simp] theorem endTurn_latch (s : State) : (endTurn s).latch = s.latch := rfl
@[simp] theorem endTurn_lb (s : State) : (endTurn s).lb = s.lb := rfl
@[simp] theorem endTurn_seqst (s : State) : (endTurn s).seqst = s.seqst := rfl
@[simp] theorem endTurn_res (s : State) : (endTurn s).res = s.res := rfl
@[simp] theorem endTurn_smp (s : State) : (endTurn s).smp = s.smp := rfl
@[simp] theorem endTurn_rawTx (s : State) : (endTurn s).rawTx = s.rawTx := rfl
@[simp] theorem endTurn_program (s : State) : (endTurn s).program = s.program := rfl
@[simp] theorem endTurn_turns (s : State) : (endTurn s).turns = s.turns.tail := rfl
@[simp] theorem endTurn_responsive (s : State) : (endTurn s).responsive = s.responsive := rfl
@[simp] theorem endTurn_draws (s : State) : (endTurn s).draws = s.draws := rfl
@[simp] theorem endTurn_samples (s : State) : (endTurn s).samples = s.samples := rfl

end Sys2Proof.Machine
end

