-- ==== Sys2Proof/Laws/Memory.lean ====
section
/-! SUPPORT. The laws of display memory: a read after a write, every other cell, and the canonical form. -/

namespace Sys2Proof.Machine

@[simp] theorem Memory.get_nil (a : Nat) : Memory.get [] a = none := rfl

theorem Memory.get_cons (c : Host.Cell) (m : Memory) (a : Nat) :
    Memory.get (c :: m) a = if c.1 = a then some c.2 else Memory.get m a := by
  unfold Memory.get
  by_cases h : c.1 = a <;> simp [h]

/-- A read after a write to the same cell gives the byte written. -/
@[simp] theorem Memory.get_put_same (m : Memory) (a : Nat) (v : Byte) : (Memory.put m a v).get a = some v := by
  induction m with
  | nil => simp [Memory.put, Memory.get_cons]
  | cons c m ih =>
    unfold Memory.put
    split
    · simp [Memory.get_cons]
    · split
      · simp [Memory.get_cons]
      · rename_i h1 h2
        rw [Memory.get_cons, if_neg (fun h => h2 h.symm), ih]

/-- A write leaves every other cell alone. -/
theorem Memory.get_put_other (m : Memory) {a b : Nat} (v : Byte) (h : b ≠ a) : (Memory.put m a v).get b = m.get b := by
  induction m with
  | nil => simp [Memory.put, Memory.get_cons, h.symm]
  | cons c m ih =>
    unfold Memory.put
    split
    · simp [Memory.get_cons, h.symm]
    · split
      · rename_i h1 h2
        simp [Memory.get_cons, h.symm, h2 ▸ h.symm]
      · simp [Memory.get_cons, ih]

theorem Memory.get_put (m : Memory) (a b : Nat) (v : Byte) :
    (Memory.put m a v).get b = if b = a then some v else m.get b := by
  by_cases h : b = a
  · simp [h]
  · simp [h, Memory.get_put_other m v h]

/-- The cells after a write are the one written and those before. -/
theorem Memory.mem_put {m : Memory} {a : Nat} {v : Byte} {c : Host.Cell} (h : c ∈ Memory.put m a v) :
    c = (a, v) ∨ c ∈ m := by
  induction m with
  | nil => simpa [Memory.put] using h
  | cons d m ih =>
    unfold Memory.put at h
    split at h
    · simpa using h
    · split at h
      · simp only [List.mem_cons] at h ⊢
        tauto
      · simp only [List.mem_cons] at h ⊢
        rcases h with h | h
        · tauto
        · rcases ih h with h | h <;> tauto

/-- A write keeps the canonical form. -/
theorem Memory.put_wf {m : Memory} (a : Nat) (v : Byte) (h : m.wf) : (Memory.put m a v).wf := by
  induction m with
  | nil => simp [Memory.put]
  | cons c m ih =>
    unfold Memory.wf at h
    rw [List.pairwise_cons] at h
    obtain ⟨hc, hm⟩ := h
    unfold Memory.put
    split
    · rename_i hlt
      refine List.pairwise_cons.2 ⟨fun d hd => ?_, List.pairwise_cons.2 ⟨hc, hm⟩⟩
      rcases List.mem_cons.1 hd with rfl | hd
      · exact hlt
      · exact lt_trans hlt (hc d hd)
    · split
      · rename_i he
        exact List.pairwise_cons.2 ⟨fun d hd => he ▸ hc d hd, hm⟩
      · rename_i h1 h2
        refine List.pairwise_cons.2 ⟨fun d hd => ?_, ih hm⟩
        rcases Memory.mem_put hd with rfl | hd
        · show c.1 < a
          omega
        · exact hc d hd

/-- MEM_MAP is the identity on the surface (20_memory.md R69). -/
theorem memMap_surface {p : Params} {a : Addr} (h : a.toNat < surfaceBytes p) : memMap p a = a.toNat := if_pos h

/-- What a memory read can do: the listed byte and the state as it was, or a free byte and one draw counted. -/
theorem memRead_cases (s : State) (a : Addr) :
    (∃ v, s.ctl.mem.get (memMap s.params a) = some v ∧ memRead s a = (v, s)) ∨
    (s.ctl.mem.get (memMap s.params a) = none ∧ memRead s a = (Config.any8 s.draws, { s with draws := s.draws + 1 })) := by
  unfold memRead
  cases h : s.ctl.mem.get (memMap s.params a) with
  | none => exact .inr ⟨rfl, rfl⟩
  | some v => exact .inl ⟨v, rfl, rfl⟩

end Sys2Proof.Machine
end

