-- ==== Sys2Proof/Laws/Bus.lean ====
section
/-! SUPPORT. One lemma per shared operation of the transport: what it answers, said once. -/

namespace Sys2Proof.Machine

@[simp] theorem andThen_next (s : State) (f : State → Answer) : andThen (.next s) f = f s := rfl
@[simp] theorem andThen_fault (r : Fault) (f : State → Answer) : andThen (.fault r) f = .fault r := rfl
@[simp] theorem andThen_refused (r : Refusal) (f : State → Answer) : andThen (.refused r) f = .refused r := rfl

/-- `andThen` answers a next state only through one. -/
theorem andThen_eq_next {o : Answer} {f : State → Answer} {t : State} (h : andThen o f = .next t) :
    ∃ u, o = .next u ∧ f u = .next t := by
  cases o with
  | next u => exact ⟨u, rfl, h⟩
  | fault r => cases h
  | refused r => cases h

/-- `wire` is its own inverse (40_bus_transport.md R120). -/
theorem rev8_rev8 : ∀ b : Byte, rev8 (rev8 b) = b := by decide

@[simp] theorem wire_wire (p : Params) (b : Byte) : wire p (wire p b) = b := by
  unfold wire
  split <;> simp [rev8_rev8]

@[simp] theorem commandBits_commandByte (c : BitVec 4) : commandBits (commandByte c) = c := by
  revert c; decide

/-- Bit 7 of the status byte is BF, whatever the free byte (30_encoding.md R106). -/
@[simp] theorem statusByte_bit7 (bf : Bool) (free : Byte) : (statusByte bf free).getLsbD 7 = bf := by
  revert bf free; decide

/-- A status sample while SEQ polls: the status byte is sampled and counted, CTL is untouched. -/
theorem statusSample_polling {s : State} (hd : s.pins.dir = .inp) (he : s.pins.e = true) (hr : s.pins.rw = true) :
    statusSample s = { s with smp := statusByte s.ctl.bf (Config.statusBits s.samples), samples := s.samples + 1 } := by
  simp [statusSample, dataLines, hd, he, hr]

/-- One poll: the lines of the loop, one status byte sampled; CTL is untouched (40_bus_transport.md R122, R128). -/
theorem poll_eq (s : State) :
    poll s = { s with
      pins := Pins.polling s.pins.dout, smp := statusByte s.ctl.bf (Config.statusBits s.samples)
      samples := s.samples + 1 } := statusSample_polling rfl rfl rfl

/-- A wait whose poll finds CTL ready: the bus is released. -/
theorem waitReady_ready {s : State} (h : s.ctl.bf = false) : waitReady s = stopPolling (poll s) := by
  simp [waitReady, poll_eq, h]

/-- A wait on a busy CTL that is responsive: the completion step lifts the hold. -/
theorem waitReady_completes {s : State} (h : s.ctl.bf = true) (hr : s.responsive = true) :
    waitReady s = stopPolling (poll (ctlCompletion (poll s))) := by
  simp [waitReady, poll_eq, h, hr]

/-- A wait on a busy CTL that is not responsive: SEQ stays in the polling loop. -/
theorem waitReady_held {s : State} (h : s.ctl.bf = true) (hr : s.responsive = false) : waitReady s = poll s := by
  simp [waitReady, poll_eq, h, hr]

/-- What the host finds: CTL completed, or everything as it was. -/
theorem settled_cases (s : State) :
    (settled s = ctlCompletion s ∧ s.turns = [] ∧ s.responsive = true) ∨
    (settled s = s ∧ (s.turns ≠ [] ∨ s.responsive = false)) := by
  unfold settled
  split
  · rename_i h; exact .inl ⟨rfl, h⟩
  · rename_i h; exact .inr ⟨rfl, by simpa [or_iff_not_imp_left] using h⟩

/-- A prompt CTL answers. -/
theorem prompt.answers {s : State} (h : prompt s) : ctlAnswers s := ⟨h.1, .inr h.2⟩

/-- The state after the wait of a CTL that completes if it is busy: ready, the bus released, a status byte sampled. -/
theorem waitReady_answers {s : State} (h : s.ctl.bf = false ∨ s.responsive = true) :
    ∃ m f, waitReady s = { s with
      ctl := { s.ctl with bf := false }, pins := ⟨true, true, false, .out, s.pins.dout⟩, smp := f, samples := m } := by
  cases hb : s.ctl.bf with
  | false =>
    have hc : ({ s.ctl with bf := false } : Ctl) = s.ctl := by rw [← hb]
    exact ⟨_, _, by rw [waitReady_ready hb, poll_eq, hc]; rfl⟩
  | true =>
    rw [waitReady_completes hb (by simpa [hb] using h), poll_eq, poll_eq]
    exact ⟨_, _, rfl⟩

/-- An effect of CTL moves neither the lines nor SEQ. -/
theorem ctlExec_frame (k : Command) (d : Byte) (s : State) :
    ∃ c n, ctlExec k d s = { s with ctl := c, draws := n } ∧ c.ir = s.ctl.ir ∧ c.bf = s.ctl.bf ∧
      c.phaseDone = s.ctl.phaseDone := by
  have hbit : ∀ f : Byte → Byte, ∃ c n, ctlBitOp f s = { s with ctl := c, draws := n } ∧ c.ir = s.ctl.ir ∧
      c.bf = s.ctl.bf ∧ c.phaseDone = s.ctl.phaseDone := by
    intro f
    unfold ctlBitOp
    obtain ⟨v, -, h⟩ | ⟨-, h⟩ := memRead_cases s s.ctl.cur <;> rw [h] <;>
      cases s.params.bitopAdvance <;> exact ⟨_, _, rfl, rfl, rfl, rfl⟩
  have hgeo : ∀ f : Ctl → Ctl, (∀ c, (f c).ir = c.ir ∧ (f c).bf = c.bf ∧ (f c).phaseDone = c.phaseDone) →
      ∃ c n, geometryStore s f = { s with ctl := c, draws := n } ∧ c.ir = s.ctl.ir ∧ c.bf = s.ctl.bf ∧
      c.phaseDone = s.ctl.phaseDone := by
    intro f hf
    unfold geometryStore
    cases s.ctl.modeSeen
    · exact ⟨_, _, rfl, rfl, rfl, rfl⟩
    · exact ⟨_, _, rfl, hf _⟩
  cases k with
  | pitch => exact hgeo (fun c => { c with pitch := d }) fun _ => ⟨rfl, rfl, rfl⟩
  | nchr => exact hgeo (fun c => { c with nchr := d }) fun _ => ⟨rfl, rfl, rfl⟩
  | tdiv => exact hgeo (fun c => { c with tdiv := d }) fun _ => ⟨rfl, rfl, rfl⟩
  | clearBit => exact hbit (withBitClear · (bitNumber d))
  | setBit => exact hbit (withBitSet · (bitNumber d))
  | mode => exact ⟨_, _, rfl, rfl, rfl, rfl⟩
  | startLo => exact ⟨_, _, rfl, rfl, rfl, rfl⟩
  | startHi => exact ⟨_, _, rfl, rfl, rfl, rfl⟩
  | curLo => exact ⟨_, _, rfl, rfl, rfl, rfl⟩
  | curHi => exact ⟨_, _, rfl, rfl, rfl, rfl⟩
  | write => exact ⟨_, _, rfl, rfl, rfl, rfl⟩
  | read => exact ⟨_, _, rfl, rfl, rfl, rfl⟩

/-- An effect of CTL does not depend on the lines. -/
theorem ctlExec_pins (k : Command) (d : Byte) (s : State) (p : Pins) :
    ctlExec k d { s with pins := p } = { ctlExec k d s with pins := p } := by
  have hbit : ∀ f : Byte → Byte, ctlBitOp f { s with pins := p } = { ctlBitOp f s with pins := p } := by
    intro f
    unfold ctlBitOp memRead
    dsimp only
    cases s.ctl.mem.get (memMap s.params s.ctl.cur) <;> cases s.params.bitopAdvance <;> rfl
  have hgeo : ∀ f : Ctl → Ctl, geometryStore { s with pins := p } f = { geometryStore s f with pins := p } := by
    intro f
    unfold geometryStore
    dsimp only
    cases s.ctl.modeSeen <;> rfl
  cases k with
  | pitch => exact hgeo fun c => { c with pitch := d }
  | nchr => exact hgeo fun c => { c with nchr := d }
  | tdiv => exact hgeo fun c => { c with tdiv := d }
  | clearBit => exact hbit (withBitClear · (bitNumber d))
  | setBit => exact hbit (withBitSet · (bitNumber d))
  | _ => rfl

/-- The state after the command phase: IR takes the code, BF is as before (R127). -/
def afterIrw (c : BitVec 4) (s : State) : State :=
  { s with
    ctl := { s.ctl with ir := c, phaseDone := false }
    pins := ⟨true, false, false, .out, wire s.params (commandByte c)⟩ }

/-- The command phase on a ready CTL with DIR = OUT (R127). -/
theorem strobe_irw {s : State} (hb : s.ctl.bf = false) (hd : s.pins.dir = .out) (c : BitVec 4) :
    strobe (drive (commandByte c) (setSelect true false s)) = .next (afterIrw c s) := by
  simp [strobe, assertE, drive, setSelect, cycleIrw, hb, hd, dataLines, deassertE, afterIrw]

/-- The end of a data phase that executed command k with operand d, the lines idle. -/
def afterDwr (k : Command) (d : Byte) (s : State) : State :=
  { ctlExec k d s with ctl := endDataPhase (ctlExec k d s).ctl, pins := Pins.idle (wire s.params d) }

/-- The data phase of a write on a ready CTL with DIR = OUT (R129). -/
theorem strobe_dwr {s : State} (hb : s.ctl.bf = false) (hd : s.pins.dir = .out) (hp : s.ctl.phaseDone = false)
    (d : Byte) :
    strobe (drive d (setSelect false false s)) =
      match commandOf s.ctl.ir with
      | none => .fault .reservedCommand
      | some k => if k = .read then .fault .writePhaseAfterRead else .next (afterDwr k d s) := by
  have hs : assertE (drive d (setSelect false false s)) =
      { s with pins := ⟨false, false, true, .out, wire s.params d⟩ } := by
    simp [assertE, drive, setSelect, hd]
  unfold strobe
  rw [hs]
  simp only [cycleDwr, hb, hp]
  cases hk : commandOf s.ctl.ir with
  | none => simp
  | some k =>
    by_cases hr : k = .read
    · simp [hr]
    · simp only [hr, Bool.false_eq_true, if_false, dataLines, wire_wire, andThen_next, ctlExec_pins]
      rfl

/-- `send` on a ready CTL (R134): the command in IR executes; a reserved code or READ faults. -/
theorem sendPhases_ready {s : State} (hb : s.ctl.bf = false) (hd : s.pins.dir = .out) (c : BitVec 4) (d : Byte) :
    sendPhases c d s =
      match commandOf c with
      | none => .fault .reservedCommand
      | some k => if k = .read then .fault .writePhaseAfterRead else .next (afterDwr k d (afterIrw c s)) := by
  unfold sendPhases
  rw [strobe_irw hb hd, andThen_next, strobe_dwr (s := afterIrw c s) hb rfl rfl]
  rfl

theorem commandOf_codeOf : ∀ k : Command, commandOf (codeOf k) = some k := by
  intro k; cases k <;> rfl

/-- `send` of a named command on a ready CTL never faults. -/
theorem sendPhases_named {s : State} (hb : s.ctl.bf = false) (hd : s.pins.dir = .out) {k : Command} (hk : k ≠ .read)
    (d : Byte) : sendPhases (codeOf k) d s = .next (afterDwr k d (afterIrw (codeOf k) s)) := by
  rw [sendPhases_ready hb hd, commandOf_codeOf]
  simp [hk]

/-- The end of a `receive`: the byte at the cursor sampled, the cursor advanced, the lines idle. -/
def afterReceive (s : State) : State :=
  { s with
    ctl := { s.ctl with ir := codeOf .read, cur := advance s.ctl.cur, bf := true, phaseDone := true }
    pins := Pins.idle (wire s.params (commandByte (codeOf .read)))
    smp := (memRead s s.ctl.cur).1
    draws := (memRead s s.ctl.cur).2.draws }

/-- `receive` on a ready CTL (R124, R134). -/
theorem receivePhases_ready {s : State} (hb : s.ctl.bf = false) (hd : s.pins.dir = .out) :
    receivePhases s = .next (afterReceive s) := by
  unfold receivePhases
  rw [strobe_irw hb hd, andThen_next]
  have hr : commandOf (codeOf .read) = some .read := rfl
  unfold afterReceive
  obtain ⟨v, hg, h⟩ | ⟨hg, h⟩ := memRead_cases s s.ctl.cur
  · simp [strobe, assertE, setSelect, setDir, cycleDrd, hb, hr, afterIrw, memRead, hg, dataLines, deassertE, advanceCur, endDataPhase, Pins.idle]
  · simp [strobe, assertE, setSelect, setDir, cycleDrd, hb, hr, afterIrw, memRead, hg, any8, dataLines, deassertE, advanceCur, endDataPhase, Pins.idle]

end Sys2Proof.Machine
end

