-- ==== Sys2Proof/Laws/Encoding.lean ====
section
/-! SUPPORT. What the decoder reads from a word written field by field, one lemma per format. -/

namespace Sys2Proof

/-- A word of format T (30_encoding.md R90) decodes to what its code and operand stand for. -/
theorem decode_wordT (c : BitVec 4) (d : Byte) : decode (wordT c d) = .ok (transactionOf c d) := by
  have hc := c.isLt
  have hd := d.isLt
  show decodeT (c.toNat * 2 ^ 8 + d.toNat) = _
  have h1 : BitVec.ofNat 4 (field (c.toNat * 2 ^ 8 + d.toNat) 8 4) = c := by
    apply BitVec.eq_of_toNat_eq
    simp only [field, BitVec.toNat_ofNat]
    omega
  have h2 : BitVec.ofNat 8 (field (c.toNat * 2 ^ 8 + d.toNat) 0 8) = d := by
    apply BitVec.eq_of_toNat_eq
    simp only [field, BitVec.toNat_ofNat]
    omega
  unfold decodeT
  rw [if_pos (by omega), h1, h2]

/-- A word of format OP (30_encoding.md R94) decodes to what its code and fields stand for. -/
theorem decode_wordOp {o : Nat} (ho : o < 16) (x y : BitVec 16) (d : Byte) :
    decode (wordOp o x y d) = .ok (operationOf o x y d) := by
  have hx := x.isLt
  have hy := y.isLt
  have hd := d.isLt
  show decodeOp (o * 2 ^ 40 + x.toNat * 2 ^ 24 + y.toNat * 2 ^ 8 + d.toNat) = _
  generalize hv : o * 2 ^ 40 + x.toNat * 2 ^ 24 + y.toNat * 2 ^ 8 + d.toNat = v
  have h1 : field v 40 4 = o := by
    simp only [field]
    omega
  have h2 : BitVec.ofNat 16 (field v 24 16) = x := by
    apply BitVec.eq_of_toNat_eq
    simp only [field, BitVec.toNat_ofNat]
    omega
  have h3 : BitVec.ofNat 16 (field v 8 16) = y := by
    apply BitVec.eq_of_toNat_eq
    simp only [field, BitVec.toNat_ofNat]
    omega
  have h4 : BitVec.ofNat 8 (field v 0 8) = d := by
    apply BitVec.eq_of_toNat_eq
    simp only [field, BitVec.toNat_ofNat]
    omega
  unfold decodeOp
  rw [if_pos (by omega), h1, h2, h3, h4]

/-- A word of format C (30_encoding.md R91): the two bits select the cycle; only a write cycle has an operand byte. -/
theorem decode_wordC (db : Byte) :
    decode (wordC 0 db) = .ok (.dwr db) ∧ decode (wordC 2 db) = .ok (.irw db) ∧
    decode (wordC 1 0) = .ok .drd ∧ decode (wordC 3 0) = .ok .str := by
  have hd := db.isLt
  have key : ∀ r, r < 4 → ¬ 2 ^ 16 ≤ db.toNat * 2 ^ 8 + r ∧ field (db.toNat * 2 ^ 8 + r) 2 6 = 0 ∧
      field (db.toNat * 2 ^ 8 + r) 0 2 = r ∧ BitVec.ofNat 8 (field (db.toNat * 2 ^ 8 + r) 8 8) = db := by
    intro r hr
    refine ⟨by omega, ?_, ?_, BitVec.eq_of_toNat_eq ?_⟩ <;> simp only [field, BitVec.toNat_ofNat] <;> omega
  refine ⟨?_, ?_, rfl, rfl⟩
  · obtain ⟨h1, h2, h3, h4⟩ := key 0 (by omega)
    show decodeC (db.toNat * 2 ^ 8 + 0) = _
    unfold decodeC
    simp only [if_neg h1, h2, h3, h4, ne_eq, not_true_eq_false, if_false]
  · obtain ⟨h1, h2, h3, h4⟩ := key 2 (by omega)
    show decodeC (db.toNat * 2 ^ 8 + 2) = _
    unfold decodeC
    simp only [if_neg h1, h2, h3, h4, ne_eq, not_true_eq_false, if_false]

end Sys2Proof
end

