-- ==== Sys2Proof/Laws/Seq.lean ====
section
/-! SUPPORT. What a transaction and a transaction list can do, said once. -/

namespace Sys2Proof.Machine

/-- An effect of CTL keeps memory's canonical form. -/
theorem ctlExec_wf (k : Command) (d : Byte) {s : State} (h : s.ctl.mem.wf) : (ctlExec k d s).ctl.mem.wf := by
  have hbit : ∀ f : Byte → Byte, (ctlBitOp f s).ctl.mem.wf := by
    intro f
    unfold ctlBitOp
    obtain ⟨v, -, hm⟩ | ⟨-, hm⟩ := memRead_cases s s.ctl.cur <;> rw [hm] <;> cases s.params.bitopAdvance <;>
      exact Memory.put_wf _ _ h
  have hgeo : ∀ f : Ctl → Ctl, (f s.ctl).mem = s.ctl.mem → (geometryStore s f).ctl.mem.wf := by
    intro f hf
    unfold geometryStore
    cases s.ctl.modeSeen
    · exact h
    · simpa [hf] using h
  cases k with
  | pitch => exact hgeo (fun c => { c with pitch := d }) rfl
  | nchr => exact hgeo (fun c => { c with nchr := d }) rfl
  | tdiv => exact hgeo (fun c => { c with tdiv := d }) rfl
  | clearBit => exact hbit (withBitClear · (bitNumber d))
  | setBit => exact hbit (withBitSet · (bitNumber d))
  | write => exact Memory.put_wf _ _ h
  | _ => exact h

/-- What a transaction can do after its wait, if it answers a next state: it changes CTL, the lines (to the idle
condition), the line buffer's bytes, the result register, the sample and the draw counter, and leaves CTL busy. -/
theorem transfer_cases {t : Tx} {w u : State} (hb : w.ctl.bf = false) (hd : w.pins.dir = .out)
    (h : transfer t w = .next u) :
    ∃ c o l r v n, u = { w with ctl := c, pins := Pins.idle o, lb := l, res := r, smp := v, draws := n } ∧
      c.bf = true ∧ l.length = w.lb.length ∧ (w.ctl.mem.wf → c.mem.wf) ∧ (t ≠ .recvRes → r = w.res) ∧
      ((∀ k, t ≠ .recvLb k) → l = w.lb) := by
  have hsend : ∀ c d, sendPhases c d w = .next u →
      ∃ c n o, u = { w with ctl := c, pins := Pins.idle o, draws := n } ∧ c.bf = true ∧ (w.ctl.mem.wf → c.mem.wf) := by
    intro c d h
    rw [sendPhases_ready hb hd] at h
    cases hk : commandOf c with
    | none => simp [hk] at h
    | some k =>
      by_cases hr : k = .read
      · simp [hk, hr] at h
      · simp only [hk, hr, if_false] at h
        obtain ⟨c', n, he, -⟩ := ctlExec_frame k d (afterIrw c w)
        refine ⟨endDataPhase c', n, wire (afterIrw c w).params d, (Host.Outcome.next.inj h).symm.trans ?_, rfl, fun hw => ?_⟩
        · unfold afterDwr
          rw [he]
          rfl
        · have := ctlExec_wf k d (s := afterIrw c w) hw
          rwa [he] at this
  have hrecv : receivePhases w = .next (afterReceive w) := receivePhases_ready hb hd
  cases t with
  | send c d =>
    obtain ⟨c, n, o, rfl, hc, hw⟩ := hsend c d h
    exact ⟨c, o, w.lb, w.res, w.smp, n, rfl, hc, rfl, hw, fun _ => rfl, fun _ => rfl⟩
  | sendLb k =>
    obtain ⟨c, n, o, rfl, hc, hw⟩ := hsend _ _ h
    exact ⟨c, o, w.lb, w.res, w.smp, n, rfl, hc, rfl, hw, fun _ => rfl, fun _ => rfl⟩
  | recv =>
    obtain rfl : afterReceive w = u := Host.Outcome.next.inj (hrecv.symm.trans h)
    exact ⟨_, _, w.lb, w.res, _, _, rfl, rfl, rfl, id, fun _ => rfl, fun _ => rfl⟩
  | recvLb k =>
    simp only [transfer, hrecv, andThen_next] at h
    obtain rfl := Host.Outcome.next.inj h
    exact ⟨_, _, _, w.res, _, _, rfl, rfl, List.length_set, id, fun _ => rfl, fun hk => absurd rfl (hk k)⟩
  | recvRes =>
    simp only [transfer, hrecv, andThen_next] at h
    obtain rfl := Host.Outcome.next.inj h
    exact ⟨_, _, w.lb, _, _, _, rfl, rfl, rfl, id, fun h => absurd rfl h, fun _ => rfl⟩

/-- What a run of SEQ's list leaves alone, whatever it does. -/
def keepsRun (s t : State) : Prop :=
  t.params = s.params ∧ t.latch = s.latch ∧ t.program = s.program ∧ t.responsive = s.responsive ∧ t.turns = s.turns ∧
  t.lb.length = s.lb.length ∧ (s.ctl.mem.wf → t.ctl.mem.wf)

theorem keepsRun.trans {s t u : State} (h : keepsRun s t) (k : keepsRun t u) : keepsRun s u := by
  obtain ⟨a1, a2, a3, a4, a5, a6, a7⟩ := h
  obtain ⟨b1, b2, b3, b4, b5, b6, b7⟩ := k
  exact ⟨b1.trans a1, b2.trans a2, b3.trans a3, b4.trans a4, b5.trans a5, b6.trans a6, fun hw => b7 (a7 hw)⟩

/-- A transaction leaves alone what a run leaves alone, ends with the lines idle, and leaves CTL busy. -/
theorem transfer_keeps {x : Tx} {w u : State} (hb : w.ctl.bf = false) (hd : w.pins.dir = .out)
    (h : transfer x w = .next u) :
    keepsRun w u ∧ u.rawTx = w.rawTx ∧ u.seqst = w.seqst ∧ u.samples = w.samples ∧ u.ctl.bf = true ∧
      ∃ o, u.pins = Pins.idle o := by
  obtain ⟨c, o, l, r, v, n, rfl, hc, hl, hw, -⟩ := transfer_cases hb hd h
  exact ⟨⟨rfl, rfl, rfl, rfl, rfl, hl, hw⟩, rfl, rfl, rfl, hc, o, rfl⟩

/-- An effect of CTL does not depend on the turns to come. -/
theorem ctlExec_withTurns (k : Command) (d : Byte) (l : List Turn) (s : State) :
    ctlExec k d (withTurns l s) = withTurns l (ctlExec k d s) := by
  have hbit : ∀ f : Byte → Byte, ctlBitOp f (withTurns l s) = withTurns l (ctlBitOp f s) := by
    intro f
    unfold ctlBitOp memRead withTurns
    dsimp only
    cases s.ctl.mem.get (memMap s.params s.ctl.cur) <;> cases s.params.bitopAdvance <;> rfl
  have hgeo : ∀ f : Ctl → Ctl, geometryStore (withTurns l s) f = withTurns l (geometryStore s f) := by
    intro f
    unfold geometryStore withTurns
    dsimp only
    cases s.ctl.modeSeen <;> rfl
  cases k with
  | pitch => exact hgeo fun c => { c with pitch := d }
  | nchr => exact hgeo fun c => { c with nchr := d }
  | tdiv => exact hgeo fun c => { c with tdiv := d }
  | clearBit => exact hbit (withBitClear · (bitNumber d))
  | setBit => exact hbit (withBitSet · (bitNumber d))
  | _ => rfl

/-- SEQ's step at a busy CTL is one poll (40_bus_transport.md R122). -/
theorem seqStep_busy {s : State} (hb : s.ctl.bf = true) (i : Nat) (x : Tx) (ts : List Tx) :
    seqStep i (x :: ts) s = .next { poll s with seqst := .running i } := by
  show (if (poll s).ctl.bf = true then _ else _) = _
  rw [if_pos (by rw [poll_eq]; exact hb)]

/-- SEQ's step at a ready CTL is one poll and one transaction (00_scope.md R11). -/
theorem seqStep_ready {s : State} (hb : s.ctl.bf = false) (i : Nat) (x : Tx) (ts : List Tx) :
    seqStep i (x :: ts) s = andThen (transfer x (stopPolling (poll s))) fun u => .next (afterTx i ts u) := by
  show (if (poll s).ctl.bf = true then _ else _) = _
  rw [if_neg (by rw [poll_eq]; simp [hb])]

/-- The bus after the poll that found CTL ready. -/
theorem stopPolling_poll (s : State) :
    stopPolling (poll s) = { s with
      pins := ⟨true, true, false, .out, s.pins.dout⟩, smp := statusByte s.ctl.bf (Config.statusBits s.samples)
      samples := s.samples + 1 } := by rw [poll_eq]; rfl

/-- One atomic step of SEQ (00_scope.md R10, R11) that answers a next state: SEQ is idle after the last transaction; or it has
polled a busy CTL, and CTL is as it was; or one transaction has taken effect and the next index is SEQST's. -/
theorem seqStep_cases {ts : List Tx} {i : Nat} {s t : State} (h : seqStep i ts s = .next t) :
    keepsRun s t ∧
    (t.seqst = .idle ∧ t.rawTx = none ∧ ((∃ o, t.pins = Pins.idle o) ∨ (ts = [] ∧ t.pins = s.pins)) ∨
     (ts ≠ [] ∧ s.ctl.bf = true ∧ t = { poll s with seqst := .running i }) ∨
     (1 < ts.length ∧ t.seqst = .running (i + 1) ∧ t.rawTx = s.rawTx ∧ ∃ o, t.pins = Pins.idle o)) := by
  cases ts with
  | nil =>
    obtain rfl := Host.Outcome.next.inj h
    exact ⟨⟨rfl, rfl, rfl, rfl, rfl, rfl, id⟩, .inl ⟨rfl, rfl, .inr ⟨rfl, rfl⟩⟩⟩
  | cons x ts =>
    cases hb : s.ctl.bf with
    | true =>
      rw [seqStep_busy hb] at h
      obtain rfl := Host.Outcome.next.inj h
      exact ⟨by rw [poll_eq]; exact ⟨rfl, rfl, rfl, rfl, rfl, rfl, id⟩, .inr (.inl ⟨by simp, rfl, rfl⟩)⟩
    | false =>
      rw [seqStep_ready hb, stopPolling_poll] at h
      obtain ⟨u, hu, h⟩ := andThen_eq_next h
      obtain ⟨hk, hraw, -, -, -, o, ho⟩ := transfer_keeps (w := { s with pins := ⟨true, true, false, .out, s.pins.dout⟩, smp := statusByte s.ctl.bf (Config.statusBits s.samples), samples := s.samples + 1 }) hb rfl hu
      obtain rfl := Host.Outcome.next.inj h
      cases ts with
      | nil => exact ⟨hk, .inl ⟨rfl, rfl, .inl ⟨o, ho⟩⟩⟩
      | cons y ts => exact ⟨hk, .inr (.inr ⟨by simp, rfl, hraw, o, ho⟩)⟩

/-- What running a list can do if it answers a next state: SEQ is idle at its end, or held for good at one of its
transactions by a CTL that is not responsive. -/
theorem runTxs_cases {ts : List Tx} : ∀ {i : Nat} {s t : State}, runTxs i ts s = .next t →
    keepsRun s t ∧
    (t.seqst = .idle ∧ t.rawTx = none ∧ ((∃ o, t.pins = Pins.idle o) ∨ (ts = [] ∧ t.pins = s.pins)) ∨
     ∃ j, j < ts.length ∧ t.seqst = .running (i + j) ∧ t.rawTx = s.rawTx ∧ (∃ o, t.pins = Pins.polling o) ∧
       t.ctl.bf = true ∧ s.responsive = false) := by
  induction ts with
  | nil =>
    intro i s t h
    obtain rfl := Host.Outcome.next.inj h
    exact ⟨⟨rfl, rfl, rfl, rfl, rfl, rfl, id⟩, .inl ⟨rfl, rfl, .inr ⟨rfl, rfl⟩⟩⟩
  | cons x ts ih =>
    intro i s t h
    unfold runTxs at h
    by_cases hr : s.ctl.bf = false ∨ s.responsive = true
    · obtain ⟨m, f, hw⟩ := waitReady_answers hr
      rw [hw] at h
      rw [if_neg (by simp)] at h
      obtain ⟨u, hu, h⟩ := andThen_eq_next h
      obtain ⟨hk, hraw, -, -, -, o, ho⟩ := transfer_keeps rfl rfl hu
      obtain ⟨hk', h'⟩ := ih h
      refine ⟨keepsRun.trans hk hk', ?_⟩
      rcases h' with ⟨a1, a2, a3⟩ | ⟨j, j1, j2, j3, j4, j5, j6⟩
      · refine .inl ⟨a1, a2, .inl ?_⟩
        rcases a3 with a3 | ⟨-, a3⟩
        · exact a3
        · exact ⟨o, a3.trans ho⟩
      · exact .inr ⟨j + 1, by simpa using j1, by rw [j2]; congr 1; omega, j3.trans hraw, j4, j5, hk.2.2.2.1.symm.trans j6⟩
    · simp only [not_or, Bool.not_eq_false, Bool.not_eq_true] at hr
      rw [waitReady_held hr.1 hr.2, poll_eq] at h
      rw [if_pos hr.1] at h
      obtain rfl := Host.Outcome.next.inj h
      exact ⟨⟨rfl, rfl, rfl, rfl, rfl, rfl, id⟩, .inr ⟨0, by simp, rfl, rfl, ⟨_, rfl⟩, hr.1, hr.2⟩⟩

/-- The transactions SEQ issues for operations: named commands, and receives (40_bus_transport.md R126). -/
def Tx.named : Tx → Prop
  | .send c _ => ∃ k, c = codeOf k ∧ k ≠ .read
  | _ => True

/-- A named transaction never faults after its wait. -/
theorem transfer_named {t : Tx} {w : State} (hb : w.ctl.bf = false) (hd : w.pins.dir = .out) (ht : t.named) :
    ∃ u, transfer t w = .next u := by
  have hrecv := receivePhases_ready hb hd
  cases t with
  | send c d =>
    obtain ⟨k, rfl, hk⟩ := ht
    exact ⟨_, sendPhases_named hb hd hk d⟩
  | sendLb k => exact ⟨_, sendPhases_named hb hd (k := .write) (by simp) _⟩
  | recv => exact ⟨_, hrecv⟩
  | recvLb k => exact ⟨_, by simp only [transfer, hrecv, andThen_next]; rfl⟩
  | recvRes => exact ⟨_, by simp only [transfer, hrecv, andThen_next]; rfl⟩

/-- A list of named transactions never faults and never refuses. -/
theorem runTxs_named {ts : List Tx} (hts : ∀ x ∈ ts, x.named) : ∀ (i : Nat) (s : State), ∃ t, runTxs i ts s = .next t := by
  induction ts with
  | nil => exact fun i s => ⟨_, rfl⟩
  | cons x ts ih =>
    intro i s
    have ih := ih fun y hy => hts y (by simp [hy])
    unfold runTxs
    by_cases hr : s.ctl.bf = false ∨ s.responsive = true
    · obtain ⟨m, f, hw⟩ := waitReady_answers hr
      rw [hw]
      rw [if_neg (by simp)]
      obtain ⟨u, hu⟩ := transfer_named (t := x) (w := { s with
        ctl := { s.ctl with bf := false }, pins := ⟨true, true, false, .out, s.pins.dout⟩, smp := f, samples := m }) rfl rfl (hts x (by simp))
      obtain ⟨t, ht⟩ := ih (i + 1) { u with seqst := .running (i + 1) }
      exact ⟨t, by rw [hu]; exact ht⟩
    · simp only [not_or, Bool.not_eq_false, Bool.not_eq_true] at hr
      rw [waitReady_held hr.1 hr.2, poll_eq]
      exact ⟨_, if_pos hr.1⟩

/-- An atomic step over a list of named transactions never faults and never refuses. -/
theorem seqStep_named {ts : List Tx} (hts : ∀ x ∈ ts, x.named) (i : Nat) (s : State) : ∃ t, seqStep i ts s = .next t := by
  cases ts with
  | nil => exact ⟨_, rfl⟩
  | cons x ts =>
    cases hb : s.ctl.bf with
    | true => exact ⟨_, seqStep_busy hb i x ts⟩
    | false =>
      obtain ⟨u, hu⟩ := transfer_named (t := x) (w := stopPolling (poll s)) (by rw [stopPolling_poll]; exact hb)
        (by rw [stopPolling_poll]) (hts x (by simp))
      exact ⟨_, by rw [seqStep_ready hb, hu]; rfl⟩

/-- A relation of before and after that everything SEQ and CTL do around a transaction keeps, and every transaction that `ok`
allows. -/
structure Kept (ok : Tx → Prop) (R : State → State → Prop) : Prop where
  trans : ∀ {s t u}, R s t → R t u → R s u
  between : ∀ s b p v m q r,
    R s { s with ctl := { s.ctl with bf := b }, pins := p, smp := v, samples := m, seqst := q, rawTx := r }
  transfer : ∀ {x w u}, ok x → w.ctl.bf = false → w.pins.dir = .out → transfer x w = .next u → R w u

/-- A list of transactions that `ok` allows keeps what `Kept` says, run to its end or held. -/
theorem Kept.runTxs {ok R} (K : Kept ok R) {ts : List Tx} :
    ∀ {i : Nat} {s t : State}, (∀ x ∈ ts, ok x) → runTxs i ts s = .next t → R s t := by
  induction ts with
  | nil =>
    intro i s t _ h
    obtain rfl := Host.Outcome.next.inj h
    exact K.between s s.ctl.bf s.pins s.smp s.samples .idle none
  | cons x ts ih =>
    intro i s t hok h
    unfold Machine.runTxs at h
    by_cases hr : s.ctl.bf = false ∨ s.responsive = true
    · obtain ⟨m, f, hw⟩ := waitReady_answers hr
      rw [hw] at h
      rw [if_neg (by simp)] at h
      obtain ⟨u, hu, h⟩ := andThen_eq_next h
      refine K.trans (K.between s false ⟨true, true, false, .out, s.pins.dout⟩ f m s.seqst s.rawTx) ?_
      refine K.trans (K.transfer (hok x (by simp)) rfl rfl hu) ?_
      exact K.trans (K.between u u.ctl.bf u.pins u.smp u.samples (.running (i + 1)) u.rawTx)
        (ih (fun y hy => hok y (by simp [hy])) h)
    · simp only [not_or, Bool.not_eq_false, Bool.not_eq_true] at hr
      rw [waitReady_held hr.1 hr.2, poll_eq] at h
      rw [if_pos hr.1] at h
      obtain rfl := Host.Outcome.next.inj h
      exact K.between s s.ctl.bf _ _ _ (.running i) s.rawTx

/-- One atomic step over such a list keeps it too. -/
theorem Kept.seqStep {ok R} (K : Kept ok R) {ts : List Tx} {i : Nat} {s t : State} (hok : ∀ x ∈ ts, ok x)
    (h : seqStep i ts s = .next t) : R s t := by
  cases ts with
  | nil =>
    obtain rfl := Host.Outcome.next.inj h
    exact K.between s s.ctl.bf s.pins s.smp s.samples .idle none
  | cons x ts =>
    cases hb : s.ctl.bf with
    | true =>
      rw [seqStep_busy hb, poll_eq] at h
      obtain rfl := Host.Outcome.next.inj h
      exact K.between s s.ctl.bf _ _ _ (.running i) s.rawTx
    | false =>
      rw [seqStep_ready hb, stopPolling_poll] at h
      obtain ⟨u, hu, h⟩ := andThen_eq_next h
      obtain rfl := Host.Outcome.next.inj h
      have hw : R s _ := K.between s s.ctl.bf ⟨true, true, false, .out, s.pins.dout⟩
        (statusByte s.ctl.bf (Config.statusBits s.samples)) (s.samples + 1) s.seqst s.rawTx
      refine K.trans hw (K.trans (K.transfer (w := { s with
        ctl := { s.ctl with bf := s.ctl.bf }, pins := ⟨true, true, false, .out, s.pins.dout⟩
        smp := statusByte s.ctl.bf (Config.statusBits s.samples), samples := s.samples + 1 })
        (hok x (by simp)) hb rfl hu) ?_)
      cases ts with
      | nil => exact K.between u u.ctl.bf u.pins u.smp u.samples .idle none
      | cons y ts => exact K.between u u.ctl.bf u.pins u.smp u.samples (.running (i + 1)) u.rawTx

/-- What a run of transactions carries along: everything but CTL, the line buffer, the result, the sample and the counters of
free values, with CTL still prompt and the lines idle. -/
def carries (s u : State) : Prop :=
  u.params = s.params ∧ u.latch = s.latch ∧ u.program = s.program ∧ u.responsive = s.responsive ∧ u.rawTx = s.rawTx ∧
  u.turns = s.turns ∧ prompt u ∧ ∃ o, u.pins = Pins.idle o

theorem carries.trans {s u v : State} (h : carries s u) (k : carries u v) : carries s v := by
  obtain ⟨a1, a2, a3, a4, a5, a6, -, -⟩ := h
  obtain ⟨b1, b2, b3, b4, b5, b6, b7, b8⟩ := k
  exact ⟨b1.trans a1, b2.trans a2, b3.trans a3, b4.trans a4, b5.trans a5, b6.trans a6, b7, b8⟩

/-- A CTL that is ready or responsive: the first transaction of a list takes effect after the wait. -/
theorem runTxs_answers_cons {x : Tx} {s : State} (hs : s.ctl.bf = false ∨ s.responsive = true) :
    ∃ m f, ∀ i ts, runTxs i (x :: ts) s =
      andThen (transfer x { s with ctl := { s.ctl with bf := false }, pins := ⟨true, true, false, .out, s.pins.dout⟩, smp := f, samples := m })
        fun u => runTxs (i + 1) ts { u with seqst := .running (i + 1) } := by
  obtain ⟨m, f, hw⟩ := waitReady_answers hs
  refine ⟨m, f, fun i ts => ?_⟩
  conv_lhs => unfold runTxs
  rw [if_neg (by rw [hw]; simp), hw]

/-- A prompt CTL: the first transaction of a list takes effect on a ready CTL that holds what CTL held, and CTL is prompt
before the next. -/
theorem runTxs_prompt_cons {x : Tx} {s : State} (hs : prompt s) :
    ∃ w, w.ctl = { s.ctl with bf := false } ∧ w.pins.dir = .out ∧ w.lb = s.lb ∧ w.res = s.res ∧ w.params = s.params ∧
      w.draws = s.draws ∧ (∀ u, transfer x w = .next u → carries s u) ∧
      ∀ i ts, runTxs i (x :: ts) s = andThen (transfer x w) fun u => runTxs (i + 1) ts { u with seqst := .running (i + 1) } := by
  obtain ⟨m, f, hw⟩ := runTxs_answers_cons (x := x) hs.answers.2
  refine ⟨{ s with ctl := { s.ctl with bf := false }, pins := ⟨true, true, false, .out, s.pins.dout⟩, smp := f, samples := m }, rfl, rfl, rfl, rfl, rfl, rfl, fun u hu => ?_, hw⟩
  obtain ⟨c, o, l', r, v, m, rfl, -⟩ := transfer_cases rfl rfl hu
  exact ⟨rfl, rfl, rfl, rfl, rfl, rfl, hs, _, rfl⟩

/-- A held wait: the list stays where it is. -/
theorem runTxs_held {x : Tx} {s : State} (hb : s.ctl.bf = true) (hr : s.responsive = false) (i : Nat) (ts : List Tx) :
    runTxs i (x :: ts) s = .next { poll s with seqst := .running i } := by
  unfold runTxs
  rw [waitReady_held hb hr, poll_eq]
  rw [if_pos hb]

end Sys2Proof.Machine
end

