-- ==== Sys2Proof/Laws/Exec.lean ====
section
/-! SUPPORT. What an instruction and a step can do if they answer a next state, said once. -/

namespace Sys2Proof.Machine

/-- What a bus cycle on its own can do if it answers a next state: it changes CTL, the lines (to the idle condition), the
sample and the counters of free values. -/
theorem busCycle_cases {rs rw dir} {s t : State} (h : busCycle rs rw dir s = .next t) :
   ∃ c o sm n m, t = { s with ctl := c, pins := Pins.idle o, smp := sm, draws := n, samples := m } ∧ (s.ctl.mem.wf → c.mem.wf) ∧ s.seqst = .idle := by
  unfold busCycle at h
  split at h
  · rename_i hi
    obtain ⟨u, hu, h⟩ := andThen_eq_next h
    unfold strobe at hu
    obtain ⟨v, hv, hu⟩ := andThen_eq_next hu
    have key : ∃ c o sm n m, v = { (assertE (setSelect rs rw (setDir dir s))) with ctl := c, pins := ⟨rs, rw, true, dir, o⟩, smp := sm, draws := n, samples := m } ∧ (s.ctl.mem.wf → c.mem.wf) := by
      generalize he : assertE (setSelect rs rw (setDir dir s)) = w at *
      have hw : w.ctl = s.ctl ∧ w.pins = ⟨rs, rw, true, dir, s.pins.dout⟩ := by rw [← he]; exact ⟨rfl, rfl⟩
      obtain ⟨hw1, hw2⟩ := hw
      have dl : ∀ b (w : State), w.pins = ⟨rs, rw, true, dir, s.pins.dout⟩ → ∃ n, (dataLines b w).2 = { w with draws := n } := by
        intro b w hw
        rcases w with ⟨p, c, pins, latch, lb, seqst, res, smp, rawTx, program, turns, responsive, draws, samples⟩
        subst hw
        unfold dataLines any8
        cases dir <;> cases rw <;> exact ⟨_, rfl⟩
      cases hrs : rs <;> cases hrw : rw <;> simp only [hw2, hrs, hrw] at hv <;> rw [hrs, hrw] at hw2 dl
      · -- dwr
        unfold cycleDwr at hv
        split at hv
        · cases hv
        split at hv
        · cases hv
        split at hv
        · cases hv
        split at hv
        · cases hv
        rename_i k _ _ _
        dsimp only at hv
        obtain ⟨n, hn⟩ := dl 0 w hw2
        rw [hn] at hv
        obtain ⟨c, m, hc, -⟩ := ctlExec_frame k (wire w.params (dataLines 0 w).1) { w with draws := n }
        have hm := ctlExec_wf k (wire w.params (dataLines 0 w).1) (s := { w with draws := n })
        rw [hc] at hv hm
        refine ⟨endDataPhase c, s.pins.dout, w.smp, m, w.samples, (Host.Outcome.next.inj hv).symm.trans ?_, fun h => hm (by rw [← hw1] at h; exact h)⟩
        rw [← hw2]
      · unfold cycleDrd at hv
        split at hv
        · cases hv
        split at hv
        · cases hv
        split at hv
        · cases hv
        dsimp only at hv
        obtain ⟨v', hg, h⟩ | ⟨hg, h⟩ := memRead_cases w w.ctl.cur
        · rw [h] at hv
          obtain ⟨n, hn⟩ := dl (wire w.params v') w hw2
          dsimp only at hv
          rw [hn] at hv
          refine ⟨{w.ctl with cur := advance w.ctl.cur, bf := true, phaseDone := true}, s.pins.dout, wire w.params (dataLines (wire w.params v') w).1, n, w.samples, (Host.Outcome.next.inj hv).symm.trans ?_, fun h => ?_⟩
          · rw [← hw2]; rfl
          · rw [← hw1] at h; exact h
        · rw [h] at hv
          obtain ⟨n, hn⟩ := dl (wire w.params (Config.any8 w.draws)) {w with draws := w.draws + 1} hw2
          dsimp only at hv
          rw [hn] at hv
          refine ⟨{w.ctl with cur := advance w.ctl.cur, bf := true, phaseDone := true}, s.pins.dout, wire w.params (dataLines (wire w.params (Config.any8 w.draws)) {w with draws := w.draws + 1}).1, n, w.samples, (Host.Outcome.next.inj hv).symm.trans ?_, fun h => ?_⟩
          · rw [← hw2]; rfl
          · rw [← hw1] at h; exact h
      · unfold cycleIrw at hv
        split at hv
        · cases hv
        dsimp only at hv
        obtain ⟨n, hn⟩ := dl 0 w hw2
        rw [hn] at hv
        refine ⟨{w.ctl with ir := commandBits (wire w.params (dataLines 0 w).1), phaseDone := false}, s.pins.dout, w.smp, n, w.samples, (Host.Outcome.next.inj hv).symm.trans ?_, fun h => ?_⟩
        · rw [← hw2]
        · rw [← hw1] at h; exact h
      · unfold statusSample at hv
        obtain ⟨n, hn⟩ := dl (wire w.params (statusByte w.ctl.bf (Config.statusBits w.samples))) w hw2
        dsimp only at hv
        rw [hn] at hv
        refine ⟨w.ctl, s.pins.dout, wire w.params (dataLines (wire w.params (statusByte w.ctl.bf (Config.statusBits w.samples))) w).1, n, w.samples + 1, (Host.Outcome.next.inj hv).symm.trans ?_, fun h => ?_⟩
        · rw [← hw2]
        · rw [← hw1] at h; exact h
    obtain ⟨c, o, sm, n, m, rfl, hc⟩ := key
    refine ⟨c, o, sm, n, m, ?_, hc, hi⟩
    rw [← Host.Outcome.next.inj h, ← Host.Outcome.next.inj hu]
    rfl
  · cases h

/-- What taking up a list can do: an empty one ends at once; with turns listed it is accepted and nothing more; with none it
runs (10_state.md R35, log 9). -/
theorem startList_cases (ts : List Tx) (s : State) :
    (ts = [] ∧ startList ts s = .next (finish s)) ∨
    (ts ≠ [] ∧ s.turns ≠ [] ∧ startList ts s = .next { s with seqst := .running 0 }) ∨
    (ts ≠ [] ∧ s.turns = [] ∧ startList ts s = runTxs 0 ts { s with seqst := .running 0 }) := by
  cases ts with
  | nil => exact .inl ⟨rfl, rfl⟩
  | cons x ts =>
    cases h : s.turns with
    | nil => exact .inr (.inr ⟨by simp, rfl, by simp [startList, h]⟩)
    | cons m l => exact .inr (.inl ⟨by simp, by simp, by simp [startList, h]⟩)

/-- With no turn listed a list that is taken up runs. -/
theorem startList_run {s : State} (h : s.turns = []) (ts : List Tx) :
    startList ts s = runTxs 0 ts { s with seqst := .running 0 } := by
  cases ts with
  | nil => rfl
  | cons x ts => simp [startList, h]

/-- With turns listed a list that is not empty is accepted and nothing more. -/
theorem startList_accept {s : State} (h : s.turns ≠ []) {ts : List Tx} (hts : ts ≠ []) :
    startList ts s = .next { s with seqst := .running 0 } := by
  rcases startList_cases ts s with ⟨h', -⟩ | ⟨-, -, h'⟩ | ⟨-, h', -⟩
  · exact absurd h' hts
  · exact h'
  · exact absurd h' h

/-- Taking up a list of transactions that `ok` allows keeps what `Kept` says. -/
theorem Kept.startList {ok R} (K : Kept ok R) {ts : List Tx} {s t : State} (hok : ∀ x ∈ ts, ok x)
    (h : startList ts s = .next t) : R s t := by
  obtain ⟨-, h'⟩ | ⟨-, -, h'⟩ | ⟨-, -, h'⟩ := startList_cases ts s <;> rw [h'] at h
  · obtain rfl := Host.Outcome.next.inj h
    exact K.between s s.ctl.bf s.pins s.smp s.samples .idle none
  · obtain rfl := Host.Outcome.next.inj h
    exact K.between s s.ctl.bf s.pins s.smp s.samples (.running 0) s.rawTx
  · exact K.trans (K.between s s.ctl.bf s.pins s.smp s.samples (.running 0) s.rawTx) (K.runTxs hok h)

/-- Going on with a list whose transactions `ok` allows keeps what `Kept` says. -/
theorem Kept.resume {ok R} (K : Kept ok R) {i : Nat} {s t : State} (hok : ∀ x ∈ currentTxs s, ok x)
    (h : resume i s = .next t) : R s t := by
  have hok : ∀ x ∈ (currentTxs s).drop i, ok x := fun x hx => hok x (List.mem_of_mem_drop hx)
  unfold Machine.resume at h
  split at h
  · exact K.runTxs hok h
  · exact K.seqStep hok h

/-- Where no turn is listed, an idle SEQ that accepts an operation runs its list. -/
theorem acceptOperation_run {s : State} (hi : s.seqst = .idle) (h : s.turns = []) (opc x y d ts) :
    acceptOperation opc x y d ts s =
      runTxs 0 ts { s with latch := { opc := opc, x := x, y := y, d := d }, rawTx := none, seqst := .running 0 } := by
  unfold acceptOperation
  rw [if_pos hi, startList_run (s := { s with latch := { opc := opc, x := x, y := y, d := d }, rawTx := none }) h]

/-- Where no turn is listed, an idle SEQ that takes a transaction statement runs it. -/
theorem issueTransaction_run {s : State} (hi : s.seqst = .idle) (h : s.turns = []) (r : RawTx) :
    issueTransaction r s = runTxs 0 [r.tx] { s with rawTx := some r, seqst := .running 0 } := by
  unfold issueTransaction
  rw [if_pos hi, startList_run (s := { s with rawTx := some r }) h]

/-- What an instruction can do if it answers a next state: SEQ was idle, and a transaction statement or an operation's list
has been taken up, or a bus cycle has run. -/
theorem exec_cases {i : Instr} {s t : State} (h : exec i s = .next t) :
    s.seqst = .idle ∧
    ((∃ r, i.isOperation = false ∧ startList [r.tx] { s with rawTx := some r } = .next t) ∨
     (∃ l, i.isOperation = true ∧ (l.opc = 0 → ∃ x y d, i = .init x y d) ∧ (l.opc = 6 → ∃ x y d, i = .readByte x y d) ∧
        startList (operationTxs s.params l) { s with latch := l, rawTx := none } = .next t) ∨
     (∃ rs rw dir b u, i.isOperation = false ∧ (u = s ∨ u = drive b s) ∧ busCycle rs rw dir u = .next t)) := by
  have hi : s.seqst = .idle := by
    by_contra hn
    have hd : ∀ b, (drive b s).seqst ≠ .idle := fun b => hn
    have h1 : ∀ x, issueTransaction x s = .refused .busySequencer := fun x => if_neg hn
    have h2 : ∀ o x y d l, acceptOperation o x y d l s = .refused .busySequencer := fun _ _ _ _ _ => if_neg hn
    have h3 : ∀ a b d, busCycle a b d s = .refused .busySequencer := fun _ _ _ => if_neg hn
    have h4 : ∀ a b d c, busCycle a b d (drive c s) = .refused .busySequencer := fun _ _ _ c => if_neg (hd c)
    have h5 : refuseReserved s = .refused .busySequencer := if_neg hn
    cases i
    case plotPixel x y d =>
      change execPlotPixel x y d s = _ at h
      rw [execPlotPixel, if_neg (fun c => hn c.1), h2] at h
      cases h
    all_goals simp only [exec, execMode, execPitch, execNchr, execTdiv, execStartLo, execStartHi, execCurLo, execCurHi, execWrite, execRead, execClearBit, execSetBit,
      execReservedCmd4, execReservedCmd5, execReservedCmd6, execReservedCmd7, execIrw, execStr, execDwr, execDrd, execInit, execMove,
      execDrawByte, execPlotByte, execClear, execReadByte, execScrollUp, execReservedOp8, execReservedOp9, execReservedOpA,
      execReservedOpB, execReservedOpC, execReservedOpD, execReservedOpE, execReservedOpF, h1, h2, h3, h4, h5, reduceCtorEq] at h
  refine ⟨hi, ?_⟩
  have h1 : ∀ x, issueTransaction x s = startList [x.tx] { s with rawTx := some x } := fun x => if_pos hi
  have h2 : ∀ o x y d l, acceptOperation o x y d l s = startList l { s with latch := ⟨o, x, y, d⟩, rawTx := none } :=
    fun _ _ _ _ _ => if_pos hi
  have h5 : refuseReserved s = .refused .reservedOperation := if_pos hi
  cases i
  case plotPixel x y d =>
    refine .inr (.inl ⟨⟨4, x, y, d⟩, rfl, fun h => absurd h (by simp), fun h => absurd h (by simp), ?_⟩)
    change execPlotPixel x y d s = _ at h
    unfold execPlotPixel at h
    split at h
    · cases h
    · exact (h2 _ _ _ _ _).symm.trans h
  all_goals simp only [exec, execMode, execPitch, execNchr, execTdiv, execStartLo, execStartHi, execCurLo, execCurHi, execWrite, execRead, execClearBit, execSetBit,
      execReservedCmd4, execReservedCmd5, execReservedCmd6, execReservedCmd7, execIrw, execStr, execDwr, execDrd, execInit, execMove,
      execDrawByte, execPlotByte, execClear, execReadByte, execScrollUp, execReservedOp8, execReservedOp9, execReservedOpA,
      execReservedOpB, execReservedOpC, execReservedOpD, execReservedOpE, execReservedOpF, h1, h2, h5, reduceCtorEq] at h
  case init x y d => exact .inr (.inl ⟨⟨0, x, y, d⟩, rfl, fun _ => ⟨_, _, _, rfl⟩, fun h => absurd h (by simp), h⟩)
  case move x y d => exact .inr (.inl ⟨⟨1, x, y, d⟩, rfl, fun h => absurd h (by simp), fun h => absurd h (by simp), h⟩)
  case drawByte x y d => exact .inr (.inl ⟨⟨2, x, y, d⟩, rfl, fun h => absurd h (by simp), fun h => absurd h (by simp), h⟩)
  case plotByte x y d => exact .inr (.inl ⟨⟨3, x, y, d⟩, rfl, fun h => absurd h (by simp), fun h => absurd h (by simp), h⟩)
  case clear x y d => exact .inr (.inl ⟨⟨5, x, y, d⟩, rfl, fun h => absurd h (by simp), fun h => absurd h (by simp), h⟩)
  case readByte x y d => exact .inr (.inl ⟨⟨6, x, y, d⟩, rfl, fun h => absurd h (by simp), fun _ => ⟨_, _, _, rfl⟩, h⟩)
  case scrollUp x y d => exact .inr (.inl ⟨⟨7, x, y, d⟩, rfl, fun h => absurd h (by simp), fun h => absurd h (by simp), h⟩)
  case irw b => exact .inr (.inr ⟨_, _, _, b, _, rfl, .inr rfl, h⟩)
  case dwr b => exact .inr (.inr ⟨_, _, _, b, _, rfl, .inr rfl, h⟩)
  case str => exact .inr (.inr ⟨_, _, _, 0, _, rfl, .inl rfl, h⟩)
  case drd => exact .inr (.inr ⟨_, _, _, 0, _, rfl, .inl rfl, h⟩)
  all_goals exact .inl ⟨_, rfl, h⟩

/-- At a turn that is not CTL's own, what an agent does depends on SEQST and on what the host has to present. -/
theorem act_of_not_ctl {s : State} (h : ∀ l, s.turns ≠ .ctl :: l) :
    act s =
      match s.seqst with
      | .running i => resume i s
      | .idle =>
        match s.program with
        | [] => .next (settled s)
        | p :: rest =>
          match decode p with
          | .error e => .refused (.undecodable e)
          | .ok i => exec i { settled s with program := rest } := by
  unfold act
  split
  · rename_i l hl; exact absurd hl (h l)
  · rfl

/-- What the agent whose turn it is can do if it answers a next state: CTL completes, SEQ goes on with its list, CTL settles
with nothing presented, or the decoded statement runs. -/
theorem act_cases {s t : State} (h : act s = .next t) :
    ((∃ l, s.turns = .ctl :: l) ∧ t = ctlCompletion s) ∨
    ((∀ l, s.turns ≠ .ctl :: l) ∧
      ((∃ i, s.seqst = .running i ∧ resume i s = .next t) ∨
       (s.seqst = .idle ∧ s.program = [] ∧ t = settled s) ∨
       (∃ p rest i, s.seqst = .idle ∧ s.program = p :: rest ∧ decode p = .ok i ∧
          exec i { settled s with program := rest } = .next t))) := by
  unfold act at h
  split at h
  · rename_i l hl
    exact .inl ⟨⟨l, hl⟩, (Host.Outcome.next.inj h).symm⟩
  · rename_i hl
    refine .inr ⟨hl, ?_⟩
    split at h
    · rename_i i hs
      exact .inl ⟨i, hs, h⟩
    · rename_i hs
      split at h
      · rename_i hq
        exact .inr (.inl ⟨hs, hq, (Host.Outcome.next.inj h).symm⟩)
      · rename_i p rest hq
        split at h
        · cases h
        · rename_i i hd
          exact .inr (.inr ⟨p, rest, i, hs, hq, hd, h⟩)

/-- What a step can do if it answers a next state: the parameters are legal, an agent has acted, and its turn is over. -/
theorem step_cases {s t : State} (h : step s = .next t) :
    paramsOk s.params = true ∧ ∃ u, act s = .next u ∧ t = endTurn u := by
  unfold step at h
  split at h
  · rename_i hp
    obtain ⟨u, hu, h⟩ := andThen_eq_next h
    exact ⟨hp, u, hu, (Host.Outcome.next.inj h).symm⟩
  · cases h

end Sys2Proof.Machine
end

