-- ==== Sys2Proof/Laws/Operands.lean ====
section
/-! SUPPORT. The halves of a 16-bit value, the operands of MOVE, and the single bits of a byte. -/

namespace Sys2Proof.Machine

theorem toNat_halves (a d : Byte) : BitVec.toNat (a ++ d : BitVec (8 + 8)) = a.toNat * 256 + d.toNat := by
  have := d.isLt
  rw [BitVec.toNat_append, Nat.shiftLeft_eq, Nat.mul_comm, ← Nat.two_pow_add_eq_or_of_lt this]

@[simp] theorem loByte_halves (a d : Byte) : loByte (a ++ d) = d := by
  have hd := d.isLt
  apply BitVec.eq_of_toNat_eq
  have := toNat_halves a d
  simp only [loByte, BitVec.extractLsb'_toNat, Nat.shiftRight_zero]
  omega

@[simp] theorem hiByte_halves (a d : Byte) : hiByte (a ++ d) = a := by
  have ha := a.isLt
  have hd := d.isLt
  apply BitVec.eq_of_toNat_eq
  have := toNat_halves a d
  simp only [hiByte, BitVec.extractLsb'_toNat, Nat.shiftRight_eq_div_pow]
  omega

/-- CUR_LO lo then CUR_HI hi leaves {hi, lo} whatever the register held (41_controller_commands.md R157). -/
@[simp] theorem setHi_setLo (v : BitVec 16) (lo hi : Byte) : setHi (setLo v lo) hi = hi ++ lo := by
  simp [setHi, setLo]

/-- The two operands of MOVE make the position modulo 2^16 (30_encoding.md R96). -/
@[simp] theorem posHi_posLo (n : Nat) : (posHi n ++ posLo n : BitVec 16) = BitVec.ofNat 16 n := by
  apply BitVec.eq_of_toNat_eq
  have := toNat_halves (posHi n) (posLo n)
  simp only [posHi, posLo, BitVec.toNat_ofNat] at this ⊢
  omega

/-- CLEAR_BIT: bit k becomes 0, the others keep their value (41_controller_commands.md R160). -/
theorem withBitClear_bits (b : Byte) {k : Nat} (hk : k < 8) :
    (withBitClear b k).getLsbD k = false ∧ ∀ j, j < 8 → j ≠ k → (withBitClear b k).getLsbD j = b.getLsbD j := by
  refine ⟨by simp [withBitClear, hk], fun j hj hn => ?_⟩
  simp only [withBitClear, BitVec.getLsbD_and, BitVec.getLsbD_not, BitVec.getLsbD_shiftLeft]
  by_cases h : j < k
  · simp [h, hj]
  · have h2 : (1#8).getLsbD (j - k) = false := by simp [BitVec.getLsbD_one, show j - k ≠ 0 by omega]
    simp [h, hj, h2]

/-- SET_BIT: bit k becomes 1, the others keep their value (41_controller_commands.md R161). -/
theorem withBitSet_bits (b : Byte) {k : Nat} (hk : k < 8) :
    (withBitSet b k).getLsbD k = true ∧ ∀ j, j < 8 → j ≠ k → (withBitSet b k).getLsbD j = b.getLsbD j := by
  refine ⟨by simp [withBitSet, hk], fun j hj hn => ?_⟩
  simp only [withBitSet, BitVec.getLsbD_or, BitVec.getLsbD_shiftLeft]
  by_cases h : j < k
  · simp [h, hj]
  · have h2 : (1#8).getLsbD (j - k) = false := by simp [BitVec.getLsbD_one, show j - k ≠ 0 by omega]
    simp [h, hj, h2]

/-- A legal WIDTH is 8 * BPR, and SURFACE_BYTES is BPR * HEIGHT (00_scope.md R7). -/
theorem surfaceBytes_eq {p : Params} (h : paramsOk p = true) :
    p.width = 8 * bpr p ∧ surfaceBytes p = bpr p * p.height ∧ 0 < bpr p ∧ 0 < p.height ∧ surfaceBytes p ≤ 65536 := by
  simp only [paramsOk, Bool.and_eq_true, decide_eq_true_eq, beq_iff_eq] at h
  obtain ⟨⟨⟨⟨h1, h2⟩, h3⟩, -⟩, h5⟩ := h
  have hw : p.width = 8 * bpr p := by
    unfold bpr
    omega
  refine ⟨hw, ?_, by omega, h3, h5⟩
  rw [surfaceBytes, hw, Nat.mul_assoc, Nat.mul_div_cancel_left _ (by omega)]

/-- The first byte of a row (44_scroll_engine.md R211). -/
theorem pos_row {p : Params} (h : paramsOk p = true) (j : Nat) : pos p 0 j = j * bpr p := by
  have hw := (surfaceBytes_eq h).1
  rw [pos, hw, Nat.add_zero, Nat.mul_left_comm, Nat.mul_div_cancel_left _ (by omega)]

end Sys2Proof.Machine
end

