-- ==== Sys2Proof/Laws/Lists.lean ====
section
/-! SUPPORT. One transaction, and one shared group of transactions, of a list that a prompt SEQ runs. -/

namespace Sys2Proof.Machine

/-- One `send` of a named command by a prompt SEQ: its effect on CTL, and the run goes on. -/
theorem runTxs_send {k : Command} (hk : k ≠ .read) (d : Byte) {s : State} (hs : prompt s) (i : Nat) (ts : List Tx) :
    ∃ w u, w.ctl = { s.ctl with ir := codeOf k, bf := false, phaseDone := false } ∧ w.params = s.params ∧
      u.ctl = { (ctlExec k d w).ctl with bf := true, phaseDone := true } ∧ u.lb = s.lb ∧ u.res = s.res ∧ carries s u ∧
      runTxs i (sendOf k d :: ts) s = runTxs (i + 1) ts u := by
  obtain ⟨w, hc, hd, hl, hr, hp, -, hcar, hrun⟩ := runTxs_prompt_cons (x := sendOf k d) hs
  have ht : transfer (sendOf k d) w = .next (afterDwr k d (afterIrw (codeOf k) w)) :=
    sendPhases_named (by rw [hc]) hd hk d
  obtain ⟨c, n, he, -⟩ := ctlExec_frame k d (afterIrw (codeOf k) w)
  have hcar := hcar _ ht
  refine ⟨afterIrw (codeOf k) w, { afterDwr k d (afterIrw (codeOf k) w) with seqst := .running (i + 1) }, ?_, hp, rfl, ?_, ?_, hcar, ?_⟩
  · simp [afterIrw, hc]
  · rw [afterDwr, he]; exact hl
  · rw [afterDwr, he]; exact hr
  · rw [hrun, ht, andThen_next]

/-- `draw_byte(LB[k])` is a WRITE of the byte the line buffer holds (44_scroll_engine.md R211). -/
theorem runTxs_sendLb (k : Nat) {s : State} (hs : prompt s) (i : Nat) (ts : List Tx) :
    runTxs i (.sendLb k :: ts) s = runTxs i (sendOf .write (s.lb.getD k 0) :: ts) s := by
  obtain ⟨m, f, hw⟩ := waitReady_answers hs.answers.2
  conv_lhs => unfold runTxs
  conv_rhs => unfold runTxs
  rw [hw]
  rfl

/-- One `receive` by a prompt SEQ, into RES or into the line buffer. -/
theorem runTxs_receive {x : Tx} {s : State} (hs : prompt s) (hx : x = .recvRes ∨ ∃ k, x = .recvLb k) (i : Nat) (ts : List Tx) :
    ∃ v u, u.ctl = { s.ctl with ir := codeOf .read, cur := s.ctl.cur + 1, bf := true, phaseDone := true } ∧
      (∀ b, s.ctl.mem.get (memMap s.params s.ctl.cur) = some b → v = b) ∧
      (s.ctl.mem.get (memMap s.params s.ctl.cur) = none → ∃ n, s.draws ≤ n ∧ v = Config.any8 n) ∧
      (x = .recvRes → u.res = v ∧ u.lb = s.lb) ∧ (∀ k, x = .recvLb k → u.lb = s.lb.set k v ∧ u.res = s.res) ∧
      carries s u ∧ runTxs i (x :: ts) s = runTxs (i + 1) ts u := by
  obtain ⟨w, hc, hd, hl, hr, hp, hn, hcar, hrun⟩ := runTxs_prompt_cons (x := x) hs
  have hrec := receivePhases_ready (s := w) (by rw [hc]) hd
  have hm : w.ctl.mem = s.ctl.mem := by rw [hc]
  have hcu : w.ctl.cur = s.ctl.cur := by rw [hc]
  have h1 : ∀ b, s.ctl.mem.get (memMap s.params s.ctl.cur) = some b → (afterReceive w).smp = b := by
    intro b hb; simp [afterReceive, memRead, hm, hcu, hp, hb]
  have h2 : s.ctl.mem.get (memMap s.params s.ctl.cur) = none → ∃ n, s.draws ≤ n ∧ (afterReceive w).smp = Config.any8 n := by
    intro hb; exact ⟨w.draws, hn.ge, by simp [afterReceive, memRead, hm, hcu, hp, hb]⟩
  rcases hx with rfl | ⟨k, rfl⟩
  · have ht : transfer .recvRes w = .next { afterReceive w with res := (afterReceive w).smp } := by
      simp only [transfer, hrec, andThen_next]
    have hcar := hcar _ ht
    refine ⟨_, { afterReceive w with res := (afterReceive w).smp, seqst := .running (i + 1) }, ?_, h1, h2, fun _ => ⟨rfl, hl⟩, fun k h => (by cases h), hcar, ?_⟩
    · simp [afterReceive, hc, advance]
    · rw [hrun, ht, andThen_next]
  · have ht : transfer (.recvLb k) w = .next { afterReceive w with lb := (afterReceive w).lb.set k (afterReceive w).smp } := by
      simp only [transfer, hrec, andThen_next]
    have hcar := hcar _ ht
    refine ⟨_, { afterReceive w with lb := (afterReceive w).lb.set k (afterReceive w).smp, seqst := .running (i + 1) }, ?_, h1, h2, fun h => (by cases h), fun j h => ?_, hcar, ?_⟩
    · simp [afterReceive, hc, advance]
    · cases h; exact ⟨by rw [← hl]; rfl, hr⟩
    · rw [hrun, ht, andThen_next]

/-- CTL is still prompt after a run of transactions. -/
theorem carries.prompt {s u : State} (h : carries s u) : prompt u := h.2.2.2.2.2.2.1

/-- `move(x, y)` by a prompt SEQ: the cursor is the position modulo 2^16 (42_cursor_addressing.md R180). -/
theorem runTxs_move (x y : Nat) {s : State} (hs : prompt s) (i : Nat) (ts : List Tx) :
    ∃ u, u.ctl = { s.ctl with cur := BitVec.ofNat 16 (pos s.params x y), ir := codeOf .curHi, bf := true, phaseDone := true } ∧
      u.lb = s.lb ∧ u.res = s.res ∧ carries s u ∧
      runTxs i (moveTxs s.params x y ++ ts) s = runTxs (i + 2) ts u := by
  obtain ⟨w, t, hw, hp, ht, hl, hr, hc, h⟩ := runTxs_send (k := .curLo) (by simp) (posLo (pos s.params x y)) hs i (sendOf .curHi (posHi (pos s.params x y)) :: ts)
  obtain ⟨w', u, hw', hp', hu, hl', hr', hc', h'⟩ := runTxs_send (k := .curHi) (by simp) (posHi (pos s.params x y)) hc.prompt (i + 1) ts
  refine ⟨u, ?_, hl'.trans hl, hr'.trans hr, hc.trans hc', h.trans h'⟩
  rw [hu]; simp [ctlExec, ctlCurHi, hw', ht, ctlCurLo, hw]

/-- `draw_byte(d)` by a prompt SEQ (43_framebuffer_ops.md R190). -/
theorem runTxs_write (d : Byte) {s : State} (hs : prompt s) (i : Nat) (ts : List Tx) :
    ∃ u, u.ctl = { s.ctl with cur := s.ctl.cur + 1, mem := s.ctl.mem.put (memMap s.params s.ctl.cur) d, ir := codeOf .write, bf := true, phaseDone := true } ∧
      u.lb = s.lb ∧ u.res = s.res ∧ carries s u ∧
      runTxs i (sendOf .write d :: ts) s = runTxs (i + 1) ts u := by
  obtain ⟨w, t, hw, hp, ht, hl, hr, hc, h⟩ := runTxs_send (k := .write) (by simp) d hs i ts
  exact ⟨t, by rw [ht]; simp [ctlExec, ctlWrite, hw, hp, advance], hl, hr, hc, h⟩

/-- Adding small numbers to a cursor that stays below 2^16. -/
theorem toNat_addr_add {a : Addr} {n : Nat} (h : a.toNat + n < 65536) : (a + BitVec.ofNat 16 n).toNat = a.toNat + n := by
  rw [BitVec.toNat_add, BitVec.toNat_ofNat]
  omega

/-- `draw_byte(0)` n + 1 times by a prompt SEQ, from a surface address and not running off the surface (20_memory.md R69):
those bytes are 0, the cursor is n + 1 further. -/
theorem runTxs_zeros (n : Nat) : ∀ {s : State} (_ : prompt s) (_ : surfaceBytes s.params ≤ 65536)
    (_ : s.ctl.cur.toNat + (n + 1) ≤ surfaceBytes s.params) (i : Nat) (ts : List Tx),
    ∃ u, u.ctl = { s.ctl with cur := s.ctl.cur + BitVec.ofNat 16 (n + 1), mem := u.ctl.mem, ir := codeOf .write, bf := true, phaseDone := true } ∧
      (∀ a, u.ctl.mem.get a = if s.ctl.cur.toNat ≤ a ∧ a < s.ctl.cur.toNat + (n + 1) then some 0 else s.ctl.mem.get a) ∧
      u.lb = s.lb ∧ u.res = s.res ∧ carries s u ∧ runTxs i (zeroTxs (n + 1) ++ ts) s = runTxs (i + (n + 1)) ts u := by
  induction n with
  | zero =>
    intro s hs h1 h2 i ts
    obtain ⟨u, hu, hl, hr, hc, h⟩ := runTxs_write 0 hs i ts
    refine ⟨u, by rw [hu]; rfl, fun a => ?_, hl, hr, hc, h⟩
    rw [hu, Memory.get_put, memMap_surface (by omega)]
    by_cases ha : a = s.ctl.cur.toNat
    · rw [if_pos ha, if_pos (by omega)]
    · rw [if_neg ha, if_neg (by omega)]
  | succ n ih =>
    intro s hs h1 h2 i ts
    obtain ⟨t, ht, hl, hr, hc, h⟩ := runTxs_write 0 hs i (zeroTxs (n + 1) ++ ts)
    have hcur : t.ctl.cur.toNat = s.ctl.cur.toNat + 1 := by
      rw [ht]
      exact toNat_addr_add (n := 1) (by omega)
    obtain ⟨u, hu, hm, hl', hr', hc', h'⟩ := ih hc.prompt (by rw [hc.1]; exact h1) (by rw [hc.1, hcur]; omega) (i + 1) ts
    refine ⟨u, ?_, fun a => ?_, hl'.trans hl, hr'.trans hr, hc.trans hc', ?_⟩
    · rw [hu, ht]
      have : s.ctl.cur + 1 + BitVec.ofNat 16 (n + 1) = s.ctl.cur + BitVec.ofNat 16 (n + 1 + 1) := by
        rw [BitVec.add_assoc]
        congr 1
        apply BitVec.eq_of_toNat_eq
        simp only [BitVec.toNat_add, BitVec.toNat_ofNat, show BitVec.toNat (1 : BitVec 16) = 1 from rfl]
        omega
      simp only [this]
    · rw [hm, hcur, ht, Memory.get_put, memMap_surface (by omega)]
      split_ifs <;> first | rfl | omega
    · rw [show i + (n + 1 + 1) = i + 1 + (n + 1) by omega, ← h']
      exact h

end Sys2Proof.Machine
end

