-- ==== Sys2Proof/Laws/PerInstr.lean ====
section
/-! SUPPORT. Per-instruction facts about the syntax. `EncodeFits`: the encoding of every instruction uses no bit above the
width of its format: 12 bits for a transaction (30_encoding.md R90), the two bits and the operand byte of a bus cycle (R91),
44 bits for an operation (R94). -/

namespace Sys2Proof.Laws.EncodeFits

/-- The width of a format in bits, the operand byte of a bus cycle counted (log 12). -/
def width : Format → Nat
  | .t => 12
  | .c => 16
  | .op => 44

/-- The encoding fits the format. -/
def Statement (i : Instr) : Prop := (encode i).bits < 2 ^ width (encode i).fmt

theorem wordT_fits (c : BitVec 4) (d : Byte) : (wordT c d).bits < 2 ^ 12 := by
  simp only [wordT]
  omega

theorem wordC_fits {r : Nat} (h : r < 4) (d : Byte) : (wordC r d).bits < 2 ^ 16 := by
  simp only [wordC]
  omega

theorem wordOp_fits {o : Nat} (h : o < 16) (x y : BitVec 16) (d : Byte) : (wordOp o x y d).bits < 2 ^ 44 := by
  simp only [wordOp]
  omega

theorem mode (d : Byte) : Statement (.mode d) := wordT_fits _ d
theorem pitch (d : Byte) : Statement (.pitch d) := wordT_fits _ d
theorem nchr (d : Byte) : Statement (.nchr d) := wordT_fits _ d
theorem tdiv (d : Byte) : Statement (.tdiv d) := wordT_fits _ d
theorem startLo (d : Byte) : Statement (.startLo d) := wordT_fits _ d
theorem startHi (d : Byte) : Statement (.startHi d) := wordT_fits _ d
theorem curLo (d : Byte) : Statement (.curLo d) := wordT_fits _ d
theorem curHi (d : Byte) : Statement (.curHi d) := wordT_fits _ d
theorem write (d : Byte) : Statement (.write d) := wordT_fits _ d
theorem read : Statement .read := wordT_fits _ 0
theorem clearBit (d : Byte) : Statement (.clearBit d) := wordT_fits _ d
theorem setBit (d : Byte) : Statement (.setBit d) := wordT_fits _ d
theorem reservedCmd4 (d : Byte) : Statement (.reservedCmd4 d) := wordT_fits _ d
theorem reservedCmd5 (d : Byte) : Statement (.reservedCmd5 d) := wordT_fits _ d
theorem reservedCmd6 (d : Byte) : Statement (.reservedCmd6 d) := wordT_fits _ d
theorem reservedCmd7 (d : Byte) : Statement (.reservedCmd7 d) := wordT_fits _ d
theorem irw (db : Byte) : Statement (.irw db) := wordC_fits (by decide) db
theorem str : Statement .str := wordC_fits (by decide) 0
theorem dwr (db : Byte) : Statement (.dwr db) := wordC_fits (by decide) db
theorem drd : Statement .drd := wordC_fits (by decide) 0
theorem init (x y : BitVec 16) (d : Byte) : Statement (.init x y d) := wordOp_fits (by decide) x y d
theorem move (x y : BitVec 16) (d : Byte) : Statement (.move x y d) := wordOp_fits (by decide) x y d
theorem drawByte (x y : BitVec 16) (d : Byte) : Statement (.drawByte x y d) := wordOp_fits (by decide) x y d
theorem plotByte (x y : BitVec 16) (d : Byte) : Statement (.plotByte x y d) := wordOp_fits (by decide) x y d
theorem plotPixel (x y : BitVec 16) (d : Byte) : Statement (.plotPixel x y d) := wordOp_fits (by decide) x y d
theorem clear (x y : BitVec 16) (d : Byte) : Statement (.clear x y d) := wordOp_fits (by decide) x y d
theorem readByte (x y : BitVec 16) (d : Byte) : Statement (.readByte x y d) := wordOp_fits (by decide) x y d
theorem scrollUp (x y : BitVec 16) (d : Byte) : Statement (.scrollUp x y d) := wordOp_fits (by decide) x y d
theorem reservedOp8 (x y : BitVec 16) (d : Byte) : Statement (.reservedOp8 x y d) := wordOp_fits (by decide) x y d
theorem reservedOp9 (x y : BitVec 16) (d : Byte) : Statement (.reservedOp9 x y d) := wordOp_fits (by decide) x y d
theorem reservedOpA (x y : BitVec 16) (d : Byte) : Statement (.reservedOpA x y d) := wordOp_fits (by decide) x y d
theorem reservedOpB (x y : BitVec 16) (d : Byte) : Statement (.reservedOpB x y d) := wordOp_fits (by decide) x y d
theorem reservedOpC (x y : BitVec 16) (d : Byte) : Statement (.reservedOpC x y d) := wordOp_fits (by decide) x y d
theorem reservedOpD (x y : BitVec 16) (d : Byte) : Statement (.reservedOpD x y d) := wordOp_fits (by decide) x y d
theorem reservedOpE (x y : BitVec 16) (d : Byte) : Statement (.reservedOpE x y d) := wordOp_fits (by decide) x y d
theorem reservedOpF (x y : BitVec 16) (d : Byte) : Statement (.reservedOpF x y d) := wordOp_fits (by decide) x y d

end Sys2Proof.Laws.EncodeFits
end

