-- ==== Sys2Proof/Tests/Slice0.lean ====
section
/-! SUPPORT. The model's own tests. Expected results are those of 95_test_vectors.md (the vector is named) or are worked out by
hand from the rule named. Each is one step on a small state. At the end, for every obligation with hypotheses, a state and
operands that meet them all. -/

open Sys2Proof Sys2Proof.Machine

namespace Sys2Proof.Tests

/-! ### WellFormed: one ill-formed term for each check -/

theorem test_wf_reserved_command : Instr.wellFormed (.reservedCmd4 0) = false := by decide
theorem test_wf_reserved_command_last : Instr.wellFormed (.reservedCmd7 0xFF) = false := by decide
theorem test_wf_reserved_operation : Instr.wellFormed (.reservedOp8 0 0 0) = false := by decide
theorem test_wf_reserved_operation_last : Instr.wellFormed (.reservedOpF 0 0 0) = false := by decide
theorem test_wf_pixel_state : Instr.wellFormed (.plotPixel 11 2 2) = false := by decide
theorem test_wf_pixel_state_ok : Instr.wellFormed (.plotPixel 11 2 1) = true := by decide

/-! ### Decoding: every constructor by a word written out from 30_encoding.md (R90 to R95) or 95_test_vectors.md -/

theorem test_decode_configuration :
    decode ⟨.t, 0b000000110010⟩ = .ok (.mode 0x32) ∧ decode ⟨.t, 0b000100000111⟩ = .ok (.pitch 0x07) ∧
    decode ⟨.t, 0b001000011101⟩ = .ok (.nchr 0x1D) ∧ decode ⟨.t, 0b001101111111⟩ = .ok (.tdiv 0x7F) := by decide
theorem test_decode_start :
    decode ⟨.t, 0b100000110100⟩ = .ok (.startLo 0x34) ∧ decode ⟨.t, 0b100100010010⟩ = .ok (.startHi 0x12) := by decide
theorem test_decode_cursor :
    decode ⟨.t, 0b101010010111⟩ = .ok (.curLo 0x97) ∧ decode ⟨.t, 0b101100000000⟩ = .ok (.curHi 0x00) := by decide
theorem test_decode_data :
    decode ⟨.t, 0b110010100101⟩ = .ok (.write 0xA5) ∧ decode ⟨.t, 0b110100000000⟩ = .ok .read ∧
    decode ⟨.t, 0b110111111111⟩ = .ok .read := by decide
theorem test_decode_bits :
    decode ⟨.t, 0b111000000001⟩ = .ok (.clearBit 0x01) ∧ decode ⟨.t, 0b111100001111⟩ = .ok (.setBit 0x0F) := by decide
theorem test_decode_reserved_commands :
    decode ⟨.t, 0b010000000001⟩ = .ok (.reservedCmd4 1) ∧ decode ⟨.t, 0b010100000010⟩ = .ok (.reservedCmd5 2) ∧
    decode ⟨.t, 0b011000000011⟩ = .ok (.reservedCmd6 3) ∧ decode ⟨.t, 0b011111111111⟩ = .ok (.reservedCmd7 0xFF) := by
  decide
theorem test_decode_cycles :
    decode ⟨.c, 0b10⟩ = .ok (.irw 0) ∧ decode ⟨.c, 0b11⟩ = .ok .str ∧ decode ⟨.c, 0b00⟩ = .ok (.dwr 0) ∧
    decode ⟨.c, 0b01⟩ = .ok .drd ∧ decode ⟨.c, 0x0D02⟩ = .ok (.irw 0x0D) ∧ decode ⟨.c, 0xA500⟩ = .ok (.dwr 0xA5) := by
  decide
theorem test_decode_operations :
    decode ⟨.op, 0x00000000000⟩ = .ok (.init 0 0 0) ∧ decode ⟨.op, 0x100EF007F00⟩ = .ok (.move 239 127 0) ∧
    decode ⟨.op, 0x200000000A5⟩ = .ok (.drawByte 0 0 0xA5) ∧ decode ⟨.op, 0x3000D0001A5⟩ = .ok (.plotByte 13 1 0xA5) ∧
    decode ⟨.op, 0x4000B000201⟩ = .ok (.plotPixel 11 2 1) ∧ decode ⟨.op, 0x50000000000⟩ = .ok (.clear 0 0 0) ∧
    decode ⟨.op, 0x60000000000⟩ = .ok (.readByte 0 0 0) ∧ decode ⟨.op, 0x70000000100⟩ = .ok (.scrollUp 0 1 0) := by decide
theorem test_decode_reserved_operations :
    decode ⟨.op, 0x80000000000⟩ = .ok (.reservedOp8 0 0 0) ∧ decode ⟨.op, 0x90000000000⟩ = .ok (.reservedOp9 0 0 0) ∧
    decode ⟨.op, 0xA0000000000⟩ = .ok (.reservedOpA 0 0 0) ∧ decode ⟨.op, 0xB0000000000⟩ = .ok (.reservedOpB 0 0 0) ∧
    decode ⟨.op, 0xC0000000000⟩ = .ok (.reservedOpC 0 0 0) ∧ decode ⟨.op, 0xD0000000000⟩ = .ok (.reservedOpD 0 0 0) ∧
    decode ⟨.op, 0xE0000000000⟩ = .ok (.reservedOpE 0 0 0) ∧
    decode ⟨.op, 0xFFFFFFFFFFF⟩ = .ok (.reservedOpF 0xFFFF 0xFFFF 0xFF) := by decide
theorem test_decode_rejects :
    decode ⟨.t, 0x1000⟩ = .error (.overlong .t) ∧ decode ⟨.c, 0x10000⟩ = .error (.overlong .c) ∧
    decode ⟨.op, 0x100000000000⟩ = .error (.overlong .op) ∧ decode ⟨.c, 0x0006⟩ = .error .padding ∧
    decode ⟨.c, 0x0103⟩ = .error .operandOnRead ∧ decode ⟨.c, 0x0101⟩ = .error .operandOnRead := by decide
/-- The words the host's opcode table gives: 2 bits in one byte, 12 in two, 44 in six. -/
theorem test_decodeTableWord :
    decodeTableWord 8 0x3 = some .str ∧ decodeTableWord 16 0xC11 = some (.write 0x11) ∧
    decodeTableWord 48 0x1FFFFFFFF00 = some (.move 65535 65535 0) ∧ decodeTableWord 16 0x1000 = none := by decide

/-! ### Helpers -/

/-- The answer is a next state of which f holds. -/
def gives (o : Answer) (f : State → Bool) : Bool :=
  match o with
  | .next s => f s
  | _ => false

/-- The answer is this fault. -/
def faults (o : Answer) (r : Fault) : Bool :=
  match o with
  | .fault q => q == r
  | _ => false

/-- The answer is this refusal. -/
def refuses (o : Answer) (r : Refusal) : Bool :=
  match o with
  | .refused q => q == r
  | _ => false

/-- Geometry G1 after INIT, CTL still busy and prompt, with the cursor and the memory given. -/
def g1 (cur : Addr) (mem : Memory) : State :=
  { State.reset with
    ctl := { State.reset.ctl with cur := cur, mem := mem, bf := true, mode := 0x32, pitch := 0x07, nchr := 0x01, tdiv := 0x03,
                                  modeSeen := true, phaseDone := true, ir := 0xB } }

/-- Geometry G2, the start state of section 2.3 of the vectors. -/
def g2 : State :=
  { g1 0x0BC4 [(0x0BC4, 0x5A)] with
    params := { State.reset.params with width := 240, height := 128, initTdiv := 0x7F } }

/-- A memory of the bytes given, from cell 0. -/
def bytes (l : List Byte) : Memory := l.zipIdx.map fun p => (p.2, p.1)

/-- The rows of section 2.6. -/
def picture : Memory := bytes [0x11, 0x12, 0x21, 0x22, 0x31, 0x32, 0x41, 0x42]

/-- Ready CTL with a command in IR, for bus cycles on their own. -/
def ready (ir : BitVec 4) : State :=
  { g1 3 [(3, 0xA5)] with ctl := { (g1 3 [(3, 0xA5)]).ctl with bf := false, phaseDone := false, ir := ir } }

/-- CTL busy and never completing (60_exceptions.md R231). -/
def stuck : State := { g1 3 [(3, 0xA5)] with responsive := false }

/-- The block held before the first transaction of READ_BYTE (V-B5). -/
def hung : State :=
  { stuck with seqst := .running 0, pins := Pins.polling 0, latch := ⟨6, 0, 0, 0⟩ }

/-- MOVE 8, 1 accepted, CTL busy, two turns of SEQ to come. -/
def taken : State := { g1 0 [] with seqst := .running 0, latch := ⟨1, 8, 1, 0⟩, turns := [.seq, .seq] }

/-- An operation by its code, accepted, with y = 1, CTL busy and prompt. -/
def opcRunning (o : BitVec 4) : State := { g1 8 picture with seqst := .running 0, latch := ⟨o, 0, 1, 0⟩ }

/-! ### Transaction statements: vectors V-K1 to V-K18 -/

/-- V-K1. -/
theorem test_mode : gives (exec (.mode 0x32) g2) fun t => t.ctl.mode == 0x32 && t.ctl.cur == 0x0BC4 && t.ctl.bf := by decide
/-- V-K2. -/
theorem test_pitch : gives (exec (.pitch 0x08) g2) fun t => t.ctl.pitch == 0x08 && t.ctl.mode == 0x32 := by decide
/-- V-K3. -/
theorem test_nchr : gives (exec (.nchr 0x1D) g2) fun t => t.ctl.nchr == 0x1D && t.ctl.pitch == 0x07 := by decide
/-- V-K4. -/
theorem test_tdiv : gives (exec (.tdiv 0x7F) g2) fun t => t.ctl.tdiv == 0x7F && t.ctl.nchr == 0x01 := by decide
/-- V-K5, first half. -/
theorem test_startLo : gives (exec (.startLo 0x34) g2) fun t => t.ctl.start == 0x0034 := by decide
/-- V-K5, second half. -/
theorem test_startHi :
    gives (exec (.startHi 0x12) { g2 with ctl := { g2.ctl with start := 0x0034 } }) fun t => t.ctl.start == 0x1234 := by decide
/-- V-K6. -/
theorem test_curLo : gives (exec (.curLo 0x97) g2) fun t => t.ctl.cur == 0x0B97 := by decide
/-- V-K7. -/
theorem test_curHi : gives (exec (.curHi 0x00) g2) fun t => t.ctl.cur == 0x00C4 := by decide
/-- V-K8. -/
theorem test_write :
    gives (exec (.write 0xA5) g2) fun t => t.ctl.mem == [(0x0BC4, 0xA5)] && t.ctl.cur == 0x0BC5 := by decide
/-- V-K16: the advance carries into the high byte. -/
theorem test_write_carry :
    gives (exec (.write 0x11) { g2 with ctl := { g2.ctl with cur := 0x00FF } }) fun t =>
      t.ctl.mem == [(0x00FF, 0x11), (0x0BC4, 0x5A)] && t.ctl.cur == 0x0100 := by decide
/-- V-K9. -/
theorem test_read :
    gives (exec .read g2) fun t => t.smp == 0x5A && t.ctl.cur == 0x0BC5 && t.ctl.mem == [(0x0BC4, 0x5A)] := by decide
/-- V-K18 and R163: nothing written there, and the cursor wraps. -/
theorem test_read_wrap :
    gives (exec .read (g1 0xFFFF [])) fun t => t.ctl.cur == 0 := by decide
/-- V-K11. -/
theorem test_clearBit :
    gives (exec (.clearBit 0x01) g2) fun t => t.ctl.mem == [(0x0BC4, 0x58)] && t.ctl.cur == 0x0BC5 := by decide
/-- V-K13, with BITOP_ADVANCE = 0. -/
theorem test_clearBit_already_clear :
    gives (exec (.clearBit 0x00) { g2 with params := { g2.params with bitopAdvance := false } }) fun t =>
      t.ctl.mem == [(0x0BC4, 0x5A)] && t.ctl.cur == 0x0BC4 := by decide
/-- V-K10. -/
theorem test_setBit :
    gives (exec (.setBit 0x00) g2) fun t => t.ctl.mem == [(0x0BC4, 0x5B)] && t.ctl.cur == 0x0BC5 := by decide
/-- V-K14: operand bits 7:3 are ignored. -/
theorem test_setBit_high_bits : gives (exec (.setBit 0x0F) g2) fun t => t.ctl.mem == [(0x0BC4, 0xDA)] := by decide
/-- R162. -/
theorem test_reserved_commands :
    faults (exec (.reservedCmd4 0) g2) .reservedCommand ∧ faults (exec (.reservedCmd5 0) g2) .reservedCommand ∧
    faults (exec (.reservedCmd6 0) g2) .reservedCommand ∧ faults (exec (.reservedCmd7 0) g2) .reservedCommand := by decide

/-! ### Bus cycles: vectors V-B2, V-B3, V-B6 -/

/-- V-B6, its first cycle: the upper four bits of the byte are not latched. -/
theorem test_irw : gives (exec (.irw 0x05) (ready 0xC)) fun t => t.ctl.ir == 0x5 && !t.ctl.bf := by decide
theorem test_irw_busy : faults (exec (.irw 0x0C) (g1 3 [])) .transferWhileBusy := by decide
/-- R128: bit 7 is BF, whatever the other bits. -/
theorem test_str_busy : gives (exec .str (g1 3 [])) fun t => t.ctl.bf && t.seqst == .idle := by decide
/-- V-B3: under reversed wiring the logical operand is what CTL stores. -/
theorem test_dwr_reversed :
    gives (exec (.dwr 0x0D) { ready 0xC with params := { State.reset.params with reversed := true } }) fun t =>
      t.ctl.mem == [(3, 0x0D)] && t.ctl.cur == 4 && t.ctl.bf && t.pins == ⟨false, false, false, .out, 0xB0⟩ := by decide
/-- V-B6: IR reserved. -/
theorem test_dwr_reserved : faults (exec (.dwr 0) (ready 0x5)) .reservedCommand := by decide
/-- V-B2: the byte from before the advance. -/
theorem test_drd : gives (exec .drd (ready 0xD)) fun t => t.smp == 0xA5 && t.ctl.cur == 4 && t.ctl.bf := by decide
/-- V-B6. -/
theorem test_drd_not_read : faults (exec .drd (ready 0xC)) .readPhaseWithoutReadCommand := by decide

/-! ### Bit reversal: vectors V-W3, V-W6 to V-W8 -/

theorem test_rev8 : rev8 0x01 = 0x80 ∧ rev8 0x0A = 0x50 ∧ rev8 0x0D = 0xB0 ∧ rev8 0x97 = 0xE9 := by decide

/-! ### Operations: vectors V-M, V-F, V-S -/

/-- V-F10, from reset. -/
theorem test_init :
    gives (exec (.init 0 0 0) State.reset) fun t =>
      t.ctl.mode == 0x32 && t.ctl.pitch == 0x07 && t.ctl.nchr == 0x01 && t.ctl.tdiv == 0x03 && t.ctl.start == 0 &&
      t.ctl.cur == 0 && t.ctl.mem == [] := by decide
/-- V-F11. -/
theorem test_init_g2 :
    gives (exec (.init 0 0 0) g2) fun t => t.ctl.nchr == 29 && t.ctl.tdiv == 127 && t.ctl.cur == 0 := by decide
/-- V-M4. -/
theorem test_move : gives (exec (.move 100 100 0) g2) fun t => t.ctl.cur == 0x0BC4 := by decide
/-- V-M13: pos modulo 2^16. -/
theorem test_move_wraps : gives (exec (.move 65535 65535 0) g2) fun t => t.ctl.cur == 0x1FE1 := by decide
/-- V-F1. -/
theorem test_drawByte :
    gives (exec (.drawByte 0 0 0xA5) (g1 3 [])) fun t => t.ctl.mem == [(3, 0xA5)] && t.ctl.cur == 4 := by decide
/-- V-F2. -/
theorem test_readByte :
    gives (exec (.readByte 0 0 0) (g1 3 [(3, 0xA5)])) fun t => t.res == 0xA5 && t.ctl.cur == 4 := by decide
/-- V-F4: x not byte aligned, the byte is not shifted. -/
theorem test_plotByte :
    gives (exec (.plotByte 13 1 0xA5) (g1 0 [])) fun t => t.ctl.mem == [(3, 0xA5)] && t.ctl.cur == 4 := by decide
/-- V-F5. -/
theorem test_plotPixel :
    gives (exec (.plotPixel 11 2 1) (g1 0 (bytes (List.replicate 8 0)))) fun t =>
      t.ctl.mem.get 5 == some 0x08 && t.ctl.cur == 6 := by decide
/-- V-F6. -/
theorem test_plotPixel_undefined : refuses (exec (.plotPixel 11 2 2) (g1 0 [])) .undefinedPixelState := by decide
/-- V-F7. -/
theorem test_clear :
    gives (exec (.clear 0 0 0) (g1 3 [])) fun t => t.ctl.mem == bytes (List.replicate 8 0) && t.ctl.cur == 8 := by decide
/-- V-S1. -/
theorem test_scrollUp :
    gives (exec (.scrollUp 0 1 0) (g1 8 picture)) fun t =>
      t.ctl.mem == bytes [0x21, 0x22, 0x31, 0x32, 0x41, 0x42, 0, 0] && t.ctl.cur == 8 && t.lb == [0x41, 0x42] := by decide
/-- V-S7. -/
theorem test_scrollUp_all :
    gives (exec (.scrollUp 0 65535 0) (g1 8 picture)) fun t =>
      t.ctl.mem == bytes (List.replicate 8 0) && t.ctl.cur == 8 := by decide
/-- V-F12. -/
theorem test_reserved_operations :
    refuses (exec (.reservedOp8 0 0 0) (g1 0 [])) .reservedOperation ∧
    refuses (exec (.reservedOp9 0 0 0) (g1 0 [])) .reservedOperation ∧
    refuses (exec (.reservedOpA 0 0 0) (g1 0 [])) .reservedOperation ∧
    refuses (exec (.reservedOpB 0 0 0) (g1 0 [])) .reservedOperation ∧
    refuses (exec (.reservedOpC 0 0 0) (g1 0 [])) .reservedOperation ∧
    refuses (exec (.reservedOpD 0 0 0) (g1 0 [])) .reservedOperation ∧
    refuses (exec (.reservedOpE 0 0 0) (g1 0 [])) .reservedOperation ∧
    refuses (exec (.reservedOpF 0 0 0) (g1 0 [])) .reservedOperation := by decide

/-! ### The step -/

/-- A word placed where the machine takes its next statement runs (V-F1's word). -/
theorem test_step_runs_word :
    gives (step (State.reset.withFetchWord 48 0x200000000A5)) fun t => t.ctl.mem == [(0, 0xA5)] && t.program == [] := by decide
/-- V-B5: a held READ_BYTE stays where it is. -/
theorem test_step_hang : gives (step hung) fun t => t.seqst == .running 0 && t.res == 0 && t.ctl == hung.ctl := by decide
/-- 40_bus_transport.md R131: CTL's own step, SEQ being in its polling loop; only BF changes. -/
theorem test_step_ctl_turn :
    step (withTurns [.ctl, .seq] hung) = .next { hung with ctl := { hung.ctl with bf := false }, turns := [.seq] } := rfl
/-- R122: SEQ's turn at a busy CTL is one poll. -/
theorem test_step_poll :
    gives (step taken) fun t =>
      t.seqst == .running 0 && t.pins == Pins.polling 0 && t.ctl == taken.ctl && t.samples == 1 && t.turns == [.seq] := by decide
/-- R123, 10_state.md R35: SEQ's turn at a ready CTL is one transaction (CUR_LO 3 of pos = 3), not the whole of MOVE. -/
theorem test_step_transaction :
    gives (step { taken with ctl := { taken.ctl with bf := false, cur := 0x1234 } }) fun t =>
      t.seqst == .running 1 && t.ctl.cur == 0x1203 && t.ctl.bf && t.pins == Pins.idle 3 := by decide
/-- 10_state.md R35: with turns listed a request is taken and nothing more. -/
theorem test_step_accepts :
    gives (step { g1 3 [] with program := [⟨.op, 0x10008000100⟩], turns := [.seq] }) fun t =>
      t == { g1 3 [] with seqst := .running 0, latch := ⟨1, 8, 1, 0⟩ } := by decide
/-- 00_scope.md R7: BPR - 1 does not fit NCHR. -/
theorem test_step_bad_configuration :
    refuses (step { State.reset with params := { State.reset.params with width := 2056, height := 1 } }) .badConfiguration := by
  decide
/-- A packet that is no word. -/
theorem test_step_undecodable :
    refuses (step { State.reset with program := [⟨.c, 4⟩] }) (.undecodable .padding) := by decide

/-! ### Witnesses: for each obligation with hypotheses, a state and operands that meet them all -/

theorem witness_EncodeOfDecodeIsIdentity :
    decode ⟨.c, 0x0D02⟩ = .ok (.irw 0x0D) ∧ Instr.irw 0x0D ≠ .read :=
  by decide
theorem witness_ModeCommandStoresMode :
    (g1 3 []).seqst = .idle ∧ ctlAnswers (g1 3 []) :=
  ⟨rfl, ⟨rfl, .inr rfl⟩⟩
theorem witness_GeometryCommandsStoreOperand :
    (g1 3 []).seqst = .idle ∧ ctlAnswers (g1 3 []) ∧ (g1 3 []).ctl.modeSeen = true :=
  ⟨rfl, ⟨rfl, .inr rfl⟩, rfl⟩
theorem witness_GeometryBeforeModeLeavesRestAlone :
    State.reset.seqst = .idle ∧ ctlAnswers State.reset ∧ State.reset.ctl.modeSeen = false :=
  ⟨rfl, ⟨rfl, .inr rfl⟩, rfl⟩
theorem witness_StartCommandsLoadHalves :
    (g1 3 []).seqst = .idle ∧ ctlAnswers (g1 3 []) :=
  ⟨rfl, ⟨rfl, .inr rfl⟩⟩
theorem witness_CursorCommandsLoadHalves :
    g2.seqst = .idle ∧ ctlAnswers g2 ∧ prompt g2 :=
  ⟨rfl, ⟨rfl, .inr rfl⟩, rfl, rfl⟩
theorem witness_WriteCommandStoresAtCursor :
    (g1 3 []).seqst = .idle ∧ ctlAnswers (g1 3 []) :=
  ⟨rfl, ⟨rfl, .inr rfl⟩⟩
/-- Both clauses: a byte written, a byte never written. -/
theorem witness_ReadCommandReturnsByteAtCursor :
    g2.seqst = .idle ∧ ctlAnswers g2 ∧ g2.ctl.mem.get (memMap g2.params g2.ctl.cur) = some 0x5A ∧
    (g1 3 []).seqst = .idle ∧ ctlAnswers (g1 3 []) ∧ (g1 3 []).ctl.mem.get (memMap (g1 3 []).params (g1 3 []).ctl.cur) = none :=
  ⟨rfl, ⟨rfl, .inr rfl⟩, by decide, rfl, ⟨rfl, .inr rfl⟩, by decide⟩
theorem witness_ClearBitCommandClearsOneBit :
    g2.seqst = .idle ∧ ctlAnswers g2 ∧ g2.ctl.mem.get (memMap g2.params g2.ctl.cur) = some 0x5A ∧ 7 < 8 ∧
    7 ≠ (0 : Byte).toNat % 8 :=
  ⟨rfl, ⟨rfl, .inr rfl⟩, by decide, by decide, by decide⟩
theorem witness_SetBitCommandSetsOneBit :
    g2.seqst = .idle ∧ ctlAnswers g2 ∧ g2.ctl.mem.get (memMap g2.params g2.ctl.cur) = some 0x5A ∧ 0 < 8 ∧
    0 ≠ (0xFF : Byte).toNat % 8 :=
  ⟨rfl, ⟨rfl, .inr rfl⟩, by decide, by decide, by decide⟩
theorem witness_LinesHoldLastDrivenByte :
    g2.seqst = .idle ∧ ctlAnswers g2 ∧ Instr.setBit 3 ∈ [Instr.mode 3, .setBit 3] :=
  ⟨rfl, ⟨rfl, .inr rfl⟩, by decide⟩
theorem witness_AutoAdvanceIsModulo65536 :
    g2.seqst = .idle ∧ ctlAnswers g2 ∧ g2.params.bitopAdvance = true :=
  ⟨rfl, ⟨rfl, .inr rfl⟩, rfl⟩
/-- Both clauses; IR at both ends of the reserved range. -/
theorem witness_ReservedCommandsFault :
    (g1 3 []).seqst = .idle ∧ ctlAnswers (g1 3 []) ∧
    (∀ c ∈ [4, 7], (ready c).seqst = .idle ∧ (ready c).ctl.bf = false ∧ 4 ≤ (ready c).ctl.ir.toNat ∧ (ready c).ctl.ir.toNat ≤ 7) :=
  ⟨rfl, ⟨rfl, .inr rfl⟩, by decide⟩
theorem witness_BusyControllerHoldsRequest :
    stuck.seqst = .idle ∧ stuck.turns = [] ∧ stuck.ctl.bf = true ∧ stuck.responsive = false ∧ Instr.isBusCycle (.scrollUp 0 1 0) = false ∧
    Instr.namedOperation (.scrollUp 0 1 0) = true ∧ Instr.pixelStateDefined (.scrollUp 0 1 0) = true ∧
    (∀ x y d, Instr.scrollUp 0 1 0 = .scrollUp x y d → y ≠ 0) :=
  ⟨rfl, rfl, rfl, rfl, rfl, rfl, rfl, fun x y d h => by cases h; decide⟩
theorem witness_InstructionWriteLatchesCommand :
    (ready 0xC).seqst = .idle ∧ (ready 0xC).ctl.bf = false ∧ (ready 0xC).pins.dir = .out :=
  ⟨rfl, rfl, rfl⟩
theorem witness_StatusReadShowsBusyFlag :
    (g1 3 []).seqst = .idle ∧ (ready 0).seqst = .idle :=
  ⟨rfl, rfl⟩
/-- Every command, and each clause: named, reserved at both ends, READ. -/
theorem witness_DataWriteExecutesCommandInIr :
    (∀ c : BitVec 4, (ready c).seqst = .idle ∧ (ready c).ctl.bf = false ∧ (ready c).pins.dir = .out ∧
      (ready c).ctl.phaseDone = false ∧ (ready c).ctl.ir = c) ∧
    commandOf 0x0 = some .mode ∧ commandOf 0xF = some .setBit ∧ Command.setBit ≠ .read ∧ commandOf 0x4 = none ∧
    commandOf 0x7 = none :=
  by decide
/-- Both clauses: IR = READ, and IR next to it. -/
theorem witness_DataReadReturnsByteAndAdvances :
    (∀ c : BitVec 4, (ready c).seqst = .idle ∧ (ready c).ctl.bf = false ∧ (ready c).ctl.phaseDone = false ∧
      (ready c).ctl.ir = c) ∧ (0xC : BitVec 4) ≠ 0xD ∧ (ready 0xD).ctl.mem.get (memMap (ready 0xD).params (ready 0xD).ctl.cur) = some 0xA5 :=
  by decide
theorem witness_TransferWhileBusyFaults :
    (g1 3 []).seqst = .idle ∧ (g1 3 []).ctl.bf = true :=
  ⟨rfl, rfl⟩
theorem witness_BurstFaults :
    (∀ c : BitVec 4, let s : State := { ready c with ctl := { (ready c).ctl with phaseDone := true } }
      s.seqst = .idle ∧ s.ctl.bf = false ∧ s.ctl.phaseDone = true ∧ s.ctl.ir = c) ∧ commandOf 0xC = some .write :=
  by decide
theorem witness_MoveSetsCursor :
    g2.seqst = .idle ∧ prompt g2 :=
  ⟨rfl, rfl, by decide⟩
theorem witness_DrawByteStoresAtCursor :
    g2.seqst = .idle ∧ prompt g2 :=
  ⟨rfl, rfl, by decide⟩
theorem witness_PlotByteStoresAtPosition :
    g2.seqst = .idle ∧ prompt g2 :=
  ⟨rfl, rfl, by decide⟩
theorem witness_InitConfigures :
    g2.seqst = .idle ∧ prompt g2 :=
  ⟨rfl, rfl, by decide⟩
theorem witness_PlottedByteReadsBack :
    g2.seqst = .idle ∧ prompt g2 :=
  ⟨rfl, rfl, by decide⟩
/-- Both clauses: a byte written, a byte never written. -/
theorem witness_ReadByteLoadsResult :
    g2.seqst = .idle ∧ prompt g2 ∧ g2.ctl.mem.get (memMap g2.params g2.ctl.cur) = some 0x5A ∧
    (g1 3 []).seqst = .idle ∧ prompt (g1 3 []) ∧ (g1 3 []).ctl.mem.get (memMap (g1 3 []).params (g1 3 []).ctl.cur) = none :=
  ⟨rfl, ⟨rfl, by decide⟩, by decide, rfl, ⟨rfl, by decide⟩, by decide⟩
/-- The last pixel of G1 (V-M10). -/
theorem witness_InRangePositionIsOnSurface :
    paramsOk State.reset.params = true ∧ 15 < State.reset.params.width ∧ 3 < State.reset.params.height ∧
    pos State.reset.params 15 3 = 7 ∧ surfaceBytes State.reset.params = 8 :=
  by decide
/-- Both states. -/
theorem witness_PlotPixelChangesOneBit :
    (g1 5 picture).seqst = .idle ∧ prompt (g1 5 picture) ∧ ((1 : Byte) = 0 ∨ (1 : Byte) = 1) ∧ ((0 : Byte) = 0 ∨ (0 : Byte) = 1) ∧
    (g1 5 picture).ctl.mem.get (memMap (g1 5 picture).params (BitVec.ofNat 16 (pos (g1 5 picture).params 11 2))) = some 0x32 :=
  ⟨rfl, ⟨rfl, by decide⟩, by decide, by decide, by decide⟩
/-- The last surface cell and the first cell above it. -/
theorem witness_ClearZeroesSurface :
    paramsOk (g1 8 picture).params = true ∧ (g1 8 picture).seqst = .idle ∧ prompt (g1 8 picture) ∧
    7 < surfaceBytes (g1 8 picture).params ∧ surfaceBytes (g1 8 picture).params ≤ 8 :=
  ⟨by decide, rfl, ⟨rfl, by decide⟩, by decide, by decide⟩
theorem witness_ClearIsIdempotent :
    paramsOk (g1 8 picture).params = true ∧ (g1 8 picture).seqst = .idle ∧ prompt (g1 8 picture) :=
  ⟨by decide, rfl, rfl, by decide⟩
theorem witness_ScrollUpZeroDoesNothing :
    stuck.seqst = .idle :=
  rfl
/-- n = HEIGHT and the largest n. -/
theorem witness_ScrollUpByHeightIsClear :
    paramsOk g2.params = true ∧ g2.params.height ≤ (128 : BitVec 16).toNat ∧ g2.params.height ≤ (65535 : BitVec 16).toNat :=
  by decide
/-- The least and the largest n, and the cells where the clauses meet for n = 1. -/
theorem witness_ScrollUpShiftsRows :
    StateInv (g1 8 picture) ∧ (g1 8 picture).seqst = .idle ∧ prompt (g1 8 picture) ∧
    (∀ n ∈ [1, 3], 0 < n ∧ n < (g1 8 picture).params.height) ∧ (1 : BitVec 16).toNat = 1 ∧
    5 < (4 - 1) * bpr (g1 8 picture).params ∧ (4 - 1) * bpr (g1 8 picture).params ≤ 6 ∧ 7 < surfaceBytes (g1 8 picture).params ∧
    surfaceBytes (g1 8 picture).params ≤ 8 :=
  ⟨⟨by decide, by decide, by decide, rfl, rfl, rfl⟩, rfl, ⟨rfl, by decide⟩, by decide, by decide, by decide, by decide, by decide, by decide⟩
/-- The counts of section 2.6 on either side of each bound. -/
theorem witness_TransactionCounts :
    paramsOk State.reset.params = true ∧ (operationTxs State.reset.params ⟨7, 0, 0, 0⟩).length = 0 ∧ (operationTxs State.reset.params ⟨7, 0, 1, 0⟩).length = 28 ∧
    (operationTxs State.reset.params ⟨7, 0, 3, 0⟩).length = 16 ∧ (operationTxs State.reset.params ⟨7, 0, 4, 0⟩).length = 10 :=
  by decide
theorem witness_RequestWhileRunningRefused :
    hung.seqst = .running 0 :=
  rfl
theorem witness_ReservedOperationsRefused :
    (g1 0 []).seqst = .idle ∧ Instr.namedOperation (.reservedOp8 0 0 0) = false ∧
    Instr.namedOperation (.reservedOpF 0 0 0) = false :=
  ⟨rfl, rfl, rfl⟩
theorem witness_UndefinedPixelStateRefused :
    (g1 0 []).seqst = .idle ∧ (2 : Byte) ≠ 0 ∧ (2 : Byte) ≠ 1 :=
  ⟨rfl, by decide, by decide⟩
/-- Each clause on its own. -/
theorem witness_BadConfigurationRefused :
    (let p := { State.reset.params with width := 0 }; p.width = 0) ∧ (let p := { State.reset.params with width := 12 }; p.width % 8 ≠ 0) ∧
    (let p := { State.reset.params with height := 0 }; p.height = 0) ∧
    (let p := { State.reset.params with width := 2056, height := 1 }; 255 < p.width / 8 - 1) ∧
    (let p := { State.reset.params with width := 2048, height := 257 }; 65536 < p.width * p.height / 8) :=
  by decide
theorem witness_StepRunsDecodedStatement :
    paramsOk State.reset.params = true ∧ (State.reset.withFetchWord 16 0xCA5).seqst = .idle ∧
    (∀ l, (State.reset.withFetchWord 16 0xCA5).turns ≠ .ctl :: l) ∧
    (State.reset.withFetchWord 16 0xCA5).program = ⟨.t, 0xCA5⟩ :: [] ∧ decode ⟨.t, 0xCA5⟩ = .ok (.write 0xA5) :=
  ⟨by decide, rfl, fun _ h => (by cases h), rfl, by decide⟩
theorem witness_FetchedWordRuns :
    paramsOk State.reset.params = true ∧ State.reset.seqst = .idle ∧ decodeTableWord 8 2 = some (.irw 0) :=
  ⟨by decide, rfl, by decide⟩
/-- Both clauses. -/
theorem witness_StepGoesOnWithRunningList :
    paramsOk hung.params = true ∧ hung.seqst = .running 0 ∧ hung.turns = [] ∧ (withTurns [.seq] hung).turns = .seq :: [] :=
  ⟨by decide, rfl, rfl, rfl⟩
/-- Both clauses: a turn of CTL while SEQ is running, and an idle block. -/
theorem witness_CompletionClearsOnlyBusyFlag :
    paramsOk hung.params = true ∧ (withTurns [.ctl, .seq] hung).turns = .ctl :: [.seq] ∧ hung.ctl.bf = true ∧
    paramsOk (g1 0 []).params = true ∧ (g1 0 []).seqst = .idle ∧ (g1 0 []).program = [] ∧ (g1 0 []).turns = [] ∧
    (g1 0 []).responsive = true ∧ (g1 0 []).ctl.bf = true :=
  ⟨by decide, rfl, rfl, by decide, rfl, rfl, rfl, rfl, rfl⟩
/-- At rest, held in the polling loop, and accepted before its first poll. -/
theorem witness_StepKeepsInvariant :
    StateInv (g1 8 picture) ∧ gives (step (g1 8 picture)) (fun _ => true) ∧ StateInv hung ∧ gives (step hung) (fun _ => true) ∧
    StateInv taken ∧ gives (step taken) (fun _ => true) :=
  ⟨⟨by decide, by decide, by decide, rfl, rfl, rfl⟩, by decide, ⟨by decide, by decide, by decide, by decide, .inr rfl⟩, by decide, ⟨by decide, by decide, by decide, by decide, .inl rfl⟩, by decide⟩
theorem witness_StepKeepsParameters :
    gives (step hung) fun _ => true :=
  by decide
theorem witness_OperationsNeverFault :
    operationsOnly { State.reset with program := [⟨.op, 0⟩, ⟨.op, 0x90000000000⟩] } :=
  ⟨rfl, by decide⟩
/-- With no turn listed, and at turns of SEQ. -/
theorem witness_HangLastsForEver :
    paramsOk hung.params = true ∧ held 0 hung ∧ hung.responsive = false ∧ (∀ m ∈ hung.turns, m = .seq) ∧
    held 0 (withTurns [.seq, .seq] hung) ∧ (∀ m ∈ (withTurns [.seq, .seq] hung).turns, m = .seq) :=
  ⟨by decide, ⟨rfl, rfl, rfl, by decide⟩, rfl, by decide, ⟨rfl, rfl, rfl, by decide⟩, by decide⟩
/-- An operation, and a READ statement. -/
theorem witness_ResponsiveOperationCompletes :
    (let s : State := { hung with turns := [.seq, .ctl], responsive := true };
      StateInv s ∧ s.seqst = .running 0 ∧ s.rawTx = none ∧ s.responsive = true) ∧
    (let s : State := { hung with rawTx := some .recv, responsive := true };
      StateInv s ∧ s.seqst = .running 0 ∧ s.rawTx = some .recv ∧ s.responsive = true ∧ gives (run 1 s) (fun _ => true)) :=
  ⟨⟨⟨by decide, by decide, by decide, by decide, .inr rfl⟩, rfl, rfl, rfl⟩, ⟨by decide, by decide, by decide, by decide, .inr rfl⟩, rfl, rfl, rfl, by decide⟩
/-- A request; and running lists, of the least and the greatest code. -/
theorem witness_OnlyInitWritesConfiguration :
    (Instr.isOperation (.clear 0 0 0) = true ∧ (∀ x y d, Instr.clear 0 0 0 ≠ .init x y d) ∧
      gives (exec (.clear 0 0 0) (g1 3 [])) (fun _ => true)) ∧
    (∀ o ∈ [1, 6, 7], (opcRunning o).seqst = .running 0 ∧ (opcRunning o).rawTx = none ∧ (opcRunning o).latch.opc ≠ 0 ∧
      gives (step (opcRunning o)) (fun _ => true)) :=
  ⟨⟨rfl, fun _ _ _ h => (by cases h), by decide⟩, by decide⟩
/-- A request; then the steps: a held READ statement, a running MOVE, the completion of an idle block. -/
theorem witness_OnlyReadByteWritesResult :
    ((∀ x y d, Instr.read ≠ .readByte x y d) ∧ gives (exec .read g2) (fun t => t.res == 0)) ∧
    (gives (step { hung with rawTx := some .recv, responsive := true }) (fun t => t.res == 0)) ∧
    ((opcRunning 1).latch.opc ≠ 6 ∧ gives (step (opcRunning 1)) (fun t => t.res == 0)) ∧
    (g2.seqst = .idle ∧ g2.program = [] ∧ gives (step g2) (fun t => t.res == 0)) :=
  ⟨⟨fun _ _ _ h => (by cases h), by decide⟩, by decide, by decide, rfl, rfl, by decide⟩
theorem witness_WiringIsInvisible :
    StateInv (g1 8 picture) ∧ StateInv hung :=
  ⟨⟨by decide, by decide, by decide, rfl, rfl, rfl⟩, by decide, by decide, by decide, by decide, .inr rfl⟩
/-- A busy CTL; a ready one before a send, a receive into LB, a send from LB. -/
theorem witness_SeqTurnIsPollOrTransaction :
    (∀ l : List Turn, (withTurns (.seq :: l) hung).seqst = .running 0 ∧ (withTurns (.seq :: l) hung).turns = .seq :: l) ∧
    paramsOk hung.params = true ∧ hung.ctl.bf = true ∧ (currentTxs hung).drop 0 = .recvRes :: [] ∧ taken.ctl.bf = true ∧
    (let s : State := { taken with ctl := { taken.ctl with bf := false } };
      paramsOk s.params = true ∧ s.seqst = .running 0 ∧ s.turns = .seq :: [.seq] ∧ s.ctl.bf = false ∧
      (currentTxs s).drop 0 = sendOf .curLo 3 :: [sendOf .curHi 0] ∧ Command.curLo ≠ .read) ∧
    (let s := opcRunning 7;
      (currentTxs s).drop 2 = .recvLb 0 :: (currentTxs s).drop 3 ∧ (currentTxs s).drop 6 = .sendLb 0 :: (currentTxs s).drop 7) :=
  ⟨fun _ => ⟨rfl, rfl⟩, by decide, rfl, rfl, rfl, by decide, by decide⟩
theorem witness_RequestAloneIsAccepted :
    (withTurns [.seq] (g1 3 [])).seqst = .idle ∧ (withTurns [.seq] (g1 3 [])).turns ≠ [] ∧
    (∀ i ∈ [Instr.move 8 1 0, .read, .mode 3], i.isBusCycle = false ∧ i.namedOperation = true ∧ i.pixelStateDefined = true ∧
      (i = .move 8 1 0 → i.isOperation = true) ∧ (i = .read → i.isOperation = false)) :=
  ⟨rfl, by decide, by decide⟩
theorem witness_WholeStepIsAtomicSteps :
    hung.turns = [] ∧ (g1 8 picture).turns = [] :=
  ⟨rfl, rfl⟩

end Sys2Proof.Tests
end

section
/-! PROOFS of the family 00_scope.md: the parameters (O42, O50), the atomic steps of host, SEQ and CTL (O58, O59, O60), with the
lemmas they share: what does not depend on the turns to come, and what an instruction is to an idle block. -/

namespace Sys2Proof.Machine

/-! ### Every step keeps the parameters -/

/-- A bad configuration in the words of 00_scope.md R6 and R7. -/
theorem paramsOk_eq_false {p : Params} (h : p.width = 0 ∨ p.width % 8 ≠ 0 ∨ p.height = 0 ∨ 255 < p.width / 8 - 1 ∨
    65536 < p.width * p.height / 8) : paramsOk p = false := by
  rw [← Bool.not_eq_true]
  simp only [paramsOk, Bool.and_eq_true, decide_eq_true_eq, beq_iff_eq]
  unfold bpr surfaceBytes
  omega

theorem step_of_paramsOk {s : State} (h : paramsOk s.params = true) : step s = mapNext endTurn (act s) := if_pos h

theorem step_of_not_paramsOk {s : State} (h : paramsOk s.params = false) : step s = .refused .badConfiguration :=
  if_neg (by simp [h])

/-- Settling changes BF at most. -/
theorem settled_eq (s : State) : ∃ b, settled s = { s with ctl := { s.ctl with bf := b } } := by
  obtain ⟨h, -⟩ | ⟨h, -⟩ := settled_cases s
  · exact ⟨false, h⟩
  · exact ⟨s.ctl.bf, h⟩

/-- The parameters and the turns to come are as they were. -/
def sameParamsTurns (s t : State) : Prop := t.params = s.params ∧ t.turns = s.turns

/-- No transaction, and nothing around one, moves the parameters or the turns. -/
theorem kept_sameParamsTurns : Kept (fun _ => True) sameParamsTurns where
  trans := fun h k => ⟨k.1.trans h.1, k.2.trans h.2⟩
  between := fun _ _ _ _ _ _ _ => ⟨rfl, rfl⟩
  transfer := fun _ hb hd h => by
    obtain ⟨c, o, l, r, v, n, rfl, -⟩ := transfer_cases hb hd h
    exact ⟨rfl, rfl⟩

/-- No instruction moves the parameters or the turns. -/
theorem exec_sameParamsTurns {i : Instr} {s t : State} (h : exec i s = .next t) : sameParamsTurns s t := by
  obtain ⟨-, ⟨r, -, h⟩ | ⟨q, -, -, -, h⟩ | ⟨rs, rw, dir, b, u, -, hu, h⟩⟩ := exec_cases h
  · exact (kept_sameParamsTurns.startList (fun _ _ => trivial) h :)
  · exact (kept_sameParamsTurns.startList (fun _ _ => trivial) h :)
  · obtain ⟨c, o, sm, n, m, rfl, -⟩ := busCycle_cases h
    obtain rfl | rfl := hu <;> exact ⟨rfl, rfl⟩

/-- No agent's step moves the parameters or the turns. -/
theorem act_sameParamsTurns {s t : State} (h : act s = .next t) : sameParamsTurns s t := by
  obtain ⟨-, rfl⟩ | ⟨-, ⟨i, -, h⟩ | ⟨-, -, rfl⟩ | ⟨p, rest, i, -, -, -, h⟩⟩ := act_cases h
  · exact ⟨rfl, rfl⟩
  · exact kept_sameParamsTurns.resume (fun _ _ => trivial) h
  · obtain ⟨b, hb⟩ := settled_eq s
    rw [hb]; exact ⟨rfl, rfl⟩
  · obtain ⟨b, hb⟩ := settled_eq s
    rw [hb] at h
    exact (exec_sameParamsTurns h :)

/-- Settles O42: the check of the parameters comes before anything else a step does (log 21). -/
theorem badConfigurationRefused : Obligations.BadConfigurationRefused :=
  fun _ h => step_of_not_paramsOk (paramsOk_eq_false h)

/-- Settles O50, by the cases of a step: no agent moves the parameters. -/
theorem stepKeepsParameters : Obligations.StepKeepsParameters := by
  intro s t h
  obtain ⟨-, u, hu, rfl⟩ := step_cases h
  exact (act_sameParamsTurns hu).1

/-! ### What SEQ and the bus do does not depend on the turns to come -/

@[simp] theorem withTurns_params (l : List Turn) (s : State) : (withTurns l s).params = s.params := rfl
@[simp] theorem withTurns_ctl (l : List Turn) (s : State) : (withTurns l s).ctl = s.ctl := rfl
@[simp] theorem withTurns_pins (l : List Turn) (s : State) : (withTurns l s).pins = s.pins := rfl
@[simp] theorem withTurns_seqst (l : List Turn) (s : State) : (withTurns l s).seqst = s.seqst := rfl
@[simp] theorem withTurns_program (l : List Turn) (s : State) : (withTurns l s).program = s.program := rfl
@[simp] theorem withTurns_turns (l : List Turn) (s : State) : (withTurns l s).turns = l := rfl
@[simp] theorem withTurns_samples (l : List Turn) (s : State) : (withTurns l s).samples = s.samples := rfl
@[simp] theorem withTurns_withTurns (l m : List Turn) (s : State) : withTurns l (withTurns m s) = withTurns l s := rfl
@[simp] theorem endTurn_withTurns (m : Turn) (l : List Turn) (s : State) :
    endTurn (withTurns (m :: l) s) = withTurns l s := rfl

theorem withTurns_self {s : State} {l : List Turn} (h : s.turns = l) : withTurns l s = s := by subst h; rfl

@[simp] theorem mapNext_next (f : State → State) (s : State) : mapNext f (.next s) = .next (f s) := rfl
@[simp] theorem mapNext_fault (f : State → State) (r : Fault) : mapNext f (.fault r) = .fault r := rfl
@[simp] theorem mapNext_refused (f : State → State) (r : Refusal) : mapNext f (.refused r) = .refused r := rfl

theorem mapNext_mapNext (f g : State → State) (o : Answer) : mapNext f (mapNext g o) = mapNext (f ∘ g) o := by
  cases o <;> rfl

/-- A function that leaves an answer's next state alone leaves the answer alone. -/
theorem mapNext_eq_self {f : State → State} {o : Answer} (h : ∀ t, o = .next t → f t = t) : mapNext f o = o := by
  cases o with
  | next t => rw [mapNext_next, h t rfl]
  | fault r => rfl
  | refused r => rfl

/-- What the computation answers does not depend on the turns to come, and it leaves them alone. -/
def TurnBlind (f : State → Answer) : Prop := ∀ l s, f (withTurns l s) = mapNext (withTurns l) (f s)

theorem TurnBlind.andThen {f g : State → Answer} (hf : TurnBlind f) (hg : TurnBlind g) :
    TurnBlind fun s => andThen (f s) g := by
  intro l s
  show Machine.andThen (f (withTurns l s)) g = mapNext (withTurns l) (Machine.andThen (f s) g)
  rw [hf l s]
  cases f s with
  | next u => exact hg l u
  | fault r => rfl
  | refused r => rfl

/-- An update that leaves the turns alone may come first. -/
theorem TurnBlind.comp {f : State → Answer} {u : State → State} (hf : TurnBlind f)
    (hu : ∀ l s, u (withTurns l s) = withTurns l (u s)) : TurnBlind fun s => f (u s) := by
  intro l s
  show f (u (withTurns l s)) = _
  rw [hu, hf]

/-- An update that leaves the turns alone, as an answer. -/
theorem turnBlind_next {u : State → State} (hu : ∀ l s, u (withTurns l s) = withTurns l (u s)) :
    TurnBlind fun s => .next (u s) := fun l s => congrArg Host.Outcome.next (hu l s)

theorem dataLines_withTurns (b : Byte) (l : List Turn) (s : State) :
    dataLines b (withTurns l s) = ((dataLines b s).1, withTurns l (dataLines b s).2) := by
  unfold dataLines
  rw [withTurns_pins]
  cases s.pins.dir with
  | out => rfl
  | inp => cases s.pins.e && s.pins.rw <;> rfl

theorem memRead_withTurns (a : Addr) (l : List Turn) (s : State) :
    memRead (withTurns l s) a = ((memRead s a).1, withTurns l (memRead s a).2) := by
  unfold memRead
  rw [withTurns_ctl, withTurns_params]
  cases s.ctl.mem.get (memMap s.params a) <;> rfl

theorem statusSample_withTurns (l : List Turn) (s : State) :
    statusSample (withTurns l s) = withTurns l (statusSample s) := by
  simp only [statusSample, withTurns_params, withTurns_ctl, withTurns_samples, dataLines_withTurns]
  rfl

theorem cycleIrw_turnBlind : TurnBlind cycleIrw := by
  intro l s
  simp only [cycleIrw, withTurns_ctl, dataLines_withTurns, withTurns_params]
  cases s.ctl.bf <;> rfl

theorem cycleDwr_turnBlind : TurnBlind cycleDwr := by
  intro l s
  simp only [cycleDwr, withTurns_ctl, dataLines_withTurns, withTurns_params, ctlExec_withTurns]
  cases s.ctl.bf
  case true => rfl
  cases commandOf s.ctl.ir with
  | none => rfl
  | some k =>
    by_cases hk : k = .read
    · simp [hk]
    · cases s.ctl.phaseDone
      · simp only [hk, if_false]
        rfl
      · simp [hk]

theorem cycleDrd_turnBlind : TurnBlind cycleDrd := by
  intro l s
  simp only [cycleDrd, withTurns_ctl, memRead_withTurns, dataLines_withTurns, withTurns_params]
  cases s.ctl.bf
  case true => rfl
  by_cases hr : commandOf s.ctl.ir = some .read
  · cases s.ctl.phaseDone
    · simp only [hr]
      rfl
    · simp [hr]
  · simp [hr]

/-- The bus cycle the levels of RS and RW select (30_encoding.md R91). -/
def selectedCycle (s : State) : Answer :=
  match s.pins.rs, s.pins.rw with
  | true, false => cycleIrw s
  | true, true => .next (statusSample s)
  | false, false => cycleDwr s
  | false, true => cycleDrd s

theorem strobe_eq (s : State) : strobe s = andThen (selectedCycle (assertE s)) fun u => .next (deassertE u) := rfl

theorem selectedCycle_turnBlind : TurnBlind selectedCycle := by
  intro l s
  unfold selectedCycle
  rw [withTurns_pins]
  cases s.pins.rs <;> cases s.pins.rw
  · exact cycleDwr_turnBlind l s
  · exact cycleDrd_turnBlind l s
  · exact cycleIrw_turnBlind l s
  · exact turnBlind_next statusSample_withTurns l s

theorem strobe_turnBlind : TurnBlind strobe :=
  (selectedCycle_turnBlind.comp (u := assertE) fun _ _ => rfl).andThen (turnBlind_next (u := deassertE) fun _ _ => rfl)

theorem sendPhases_turnBlind (c : BitVec 4) (d : Byte) : TurnBlind (sendPhases c d) :=
  (strobe_turnBlind.comp (u := fun s => drive (commandByte c) (setSelect true false s)) fun _ _ => rfl).andThen
    (strobe_turnBlind.comp (u := fun s => drive d (setSelect false false s)) fun _ _ => rfl)

theorem receivePhases_turnBlind : TurnBlind receivePhases :=
  (strobe_turnBlind.comp (u := fun s => drive (commandByte (codeOf .read)) (setSelect true false s)) fun _ _ => rfl).andThen
    ((strobe_turnBlind.comp (u := fun s => setSelect false true (setDir .inp s)) fun _ _ => rfl).andThen
      (turnBlind_next (u := fun s => setDir .out (setSelect false false s)) fun _ _ => rfl))

/-- A transaction does not depend on the turns to come. -/
theorem transfer_turnBlind (x : Tx) : TurnBlind (transfer x) := by
  cases x with
  | send c d => exact sendPhases_turnBlind c d
  | sendLb k => exact fun l s => sendPhases_turnBlind (codeOf .write) (s.lb.getD k 0) l s
  | recv => exact receivePhases_turnBlind
  | recvLb k =>
    exact receivePhases_turnBlind.andThen (turnBlind_next (u := fun u => { u with lb := u.lb.set k u.smp }) fun _ _ => rfl)
  | recvRes => exact receivePhases_turnBlind.andThen (turnBlind_next (u := fun u => { u with res := u.smp }) fun _ _ => rfl)

theorem poll_withTurns (l : List Turn) (s : State) : poll (withTurns l s) = withTurns l (poll s) := by
  rw [poll_eq, poll_eq]; rfl

theorem afterTx_withTurns (i : Nat) (ts : List Tx) (l : List Turn) (s : State) :
    afterTx i ts (withTurns l s) = withTurns l (afterTx i ts s) := by
  cases ts <;> rfl

/-- An atomic step of SEQ does not depend on the turns to come. -/
theorem seqStep_turnBlind (i : Nat) (ts : List Tx) : TurnBlind (seqStep i ts) := by
  intro l s
  cases ts with
  | nil => rfl
  | cons x ts =>
    cases hb : s.ctl.bf with
    | true => rw [seqStep_busy hb, seqStep_busy (s := withTurns l s) hb, poll_withTurns]; rfl
    | false =>
      rw [seqStep_ready hb, seqStep_ready (s := withTurns l s) hb, poll_withTurns]
      exact (transfer_turnBlind x).andThen (turnBlind_next (afterTx_withTurns i ts)) l (stopPolling (poll s))

/-- A bus cycle on its own does not depend on the turns to come. -/
theorem busCycle_turnBlind (rs rw : Bool) (dir : Dir) : TurnBlind (busCycle rs rw dir) := by
  intro l s
  unfold busCycle
  rw [withTurns_seqst]
  split
  · exact (strobe_turnBlind.comp (u := fun s => setSelect rs rw (setDir dir s)) fun _ _ => rfl).andThen
      (turnBlind_next (u := fun u => setDir .out (setSelect false false u)) fun _ _ => rfl) l s
  · rfl

/-! ### What an instruction is to the host -/

/-- The list of a named operation is empty only for SCROLL_UP 0 (44_scroll_engine.md R213). -/
theorem operationTxs_ne_nil (p : Params) {q : Latches} (hq : q.opc.toNat < 8) (hn : q.opc = 7 → q.y ≠ 0) :
    operationTxs p q ≠ [] := by
  obtain ⟨o, x, y, d⟩ := q
  dsimp only at hq hn
  by_cases h7 : o = 7
  · subst h7
    have hy : y.toNat ≠ 0 := fun h => hn rfl (BitVec.eq_of_toNat_eq h)
    show scrollUpTxs p y.toNat ≠ []
    simp [scrollUpTxs, hy, blankTxs, moveTxs]
  · have ho : o = 0 ∨ o = 1 ∨ o = 2 ∨ o = 3 ∨ o = 4 ∨ o = 5 ∨ o = 6 := by
      clear hn
      decide +revert
    obtain rfl | rfl | rfl | rfl | rfl | rfl | rfl := ho <;> exact List.cons_ne_nil _ _

/-- What an instruction is to an idle block (00_scope.md R11). -/
inductive Presented (i : Instr) : Prop where
  /-- A transaction statement (30_encoding.md R104): SEQ takes up the list of its one transaction. -/
  | transaction (r : RawTx) (ho : i.isOperation = false)
      (h : ∀ s, s.seqst = .idle → exec i s = startList [r.tx] { s with rawTx := some r })
  /-- An operation with a meaning (30_encoding.md R94): the latches take its fields, SEQ takes up its list. -/
  | operation (q : Latches) (ho : i.isOperation = true) (he : encode i = wordOp q.opc.toNat q.x q.y q.d)
      (hq : q.opc.toNat < 8) (hn : q.opc = 7 → i = .scrollUp q.x q.y q.d)
      (h : ∀ s, s.seqst = .idle → exec i s = startList (operationTxs s.params q) { s with latch := q, rawTx := none })
  /-- A reserved operation or an undefined pixel state (30_encoding.md R100, R101). -/
  | refused (r : Refusal) (hw : i.namedOperation = false ∨ i.pixelStateDefined = false)
      (h : ∀ s, s.seqst = .idle → exec i s = .refused r)
  /-- A bus cycle on its own (30_encoding.md R91). -/
  | cycle (hc : i.isBusCycle = true) (h : TurnBlind (exec i))

theorem exec_plotPixel {x y : BitVec 16} {d : Byte} {s : State} (hi : s.seqst = .idle) (hd : d = 0 ∨ d = 1) :
    exec (.plotPixel x y d) s =
      startList (plotPixelTxs s.params x.toNat y.toNat d) { s with latch := ⟨4, x, y, d⟩, rawTx := none } := by
  have hn : ¬(s.seqst = .idle ∧ d ≠ 0 ∧ d ≠ 1) := by tauto
  exact (if_neg hn).trans (if_pos hi)

theorem exec_plotPixel_undefined {x y : BitVec 16} {d : Byte} {s : State} (hi : s.seqst = .idle) (h0 : d ≠ 0) (h1 : d ≠ 1) :
    exec (.plotPixel x y d) s = .refused .undefinedPixelState := if_pos ⟨hi, h0, h1⟩

/-- Every instruction is one of the four kinds. -/
theorem presented (i : Instr) : Presented i := by
  cases i with
  | irw b => exact .cycle rfl fun l s => busCycle_turnBlind true false s.pins.dir l (drive b s)
  | dwr b => exact .cycle rfl fun l s => busCycle_turnBlind false false s.pins.dir l (drive b s)
  | str => exact .cycle rfl (busCycle_turnBlind true true .inp)
  | drd => exact .cycle rfl (busCycle_turnBlind false true .inp)
  | init x y d => exact .operation ⟨0, x, y, d⟩ rfl rfl (by simp) (by simp) fun s hi => if_pos hi
  | move x y d => exact .operation ⟨1, x, y, d⟩ rfl rfl (by simp) (by simp) fun s hi => if_pos hi
  | drawByte x y d => exact .operation ⟨2, x, y, d⟩ rfl rfl (by simp) (by simp) fun s hi => if_pos hi
  | plotByte x y d => exact .operation ⟨3, x, y, d⟩ rfl rfl (by simp) (by simp) fun s hi => if_pos hi
  | plotPixel x y d =>
    by_cases hd : d = 0 ∨ d = 1
    · exact .operation ⟨4, x, y, d⟩ rfl rfl (by simp) (by simp) fun s hi => exec_plotPixel hi hd
    · obtain ⟨h0, h1⟩ := not_or.1 hd
      exact .refused _ (.inr (by rw [Instr.pixelStateDefined, beq_false_of_ne h0, beq_false_of_ne h1]; rfl))
        fun s hi => exec_plotPixel_undefined hi h0 h1
  | clear x y d => exact .operation ⟨5, x, y, d⟩ rfl rfl (by simp) (by simp) fun s hi => if_pos hi
  | readByte x y d => exact .operation ⟨6, x, y, d⟩ rfl rfl (by simp) (by simp) fun s hi => if_pos hi
  | scrollUp x y d => exact .operation ⟨7, x, y, d⟩ rfl rfl (by simp) (fun _ => rfl) fun s hi => if_pos hi
  | reservedOp8 | reservedOp9 | reservedOpA | reservedOpB | reservedOpC | reservedOpD | reservedOpE | reservedOpF =>
    exact .refused .reservedOperation (.inl rfl) fun s hi => if_pos hi
  | mode d => exact .transaction (.send (codeOf .mode) d) rfl fun s hi => if_pos hi
  | pitch d => exact .transaction (.send (codeOf .pitch) d) rfl fun s hi => if_pos hi
  | nchr d => exact .transaction (.send (codeOf .nchr) d) rfl fun s hi => if_pos hi
  | tdiv d => exact .transaction (.send (codeOf .tdiv) d) rfl fun s hi => if_pos hi
  | startLo d => exact .transaction (.send (codeOf .startLo) d) rfl fun s hi => if_pos hi
  | startHi d => exact .transaction (.send (codeOf .startHi) d) rfl fun s hi => if_pos hi
  | curLo d => exact .transaction (.send (codeOf .curLo) d) rfl fun s hi => if_pos hi
  | curHi d => exact .transaction (.send (codeOf .curHi) d) rfl fun s hi => if_pos hi
  | write d => exact .transaction (.send (codeOf .write) d) rfl fun s hi => if_pos hi
  | read => exact .transaction .recv rfl fun s hi => if_pos hi
  | clearBit d => exact .transaction (.send (codeOf .clearBit) d) rfl fun s hi => if_pos hi
  | setBit d => exact .transaction (.send (codeOf .setBit) d) rfl fun s hi => if_pos hi
  | reservedCmd4 d => exact .transaction (.send 4 d) rfl fun s hi => if_pos hi
  | reservedCmd5 d => exact .transaction (.send 5 d) rfl fun s hi => if_pos hi
  | reservedCmd6 d => exact .transaction (.send 6 d) rfl fun s hi => if_pos hi
  | reservedCmd7 d => exact .transaction (.send 7 d) rfl fun s hi => if_pos hi

/-- Settles O59, by the kinds of instruction: a request with turns listed is accepted, with none it runs. -/
theorem requestAloneIsAccepted : Obligations.RequestAloneIsAccepted := by
  intro i s hi ht hcyc hnamed hpixel hscroll
  cases presented i with
  | transaction r ho h =>
    have hacc := startList_accept (s := { s with rawTx := some r }) ht (List.cons_ne_nil r.tx [])
    refine ⟨_, (h s hi).trans hacc, rfl, by simp [ho], fun _ => rfl, List.cons_ne_nil _ _, ?_⟩
    rw [h (withTurns [] s) hi, startList_run rfl]
    rfl
  | operation q ho he hq hn h =>
    have hne : operationTxs s.params q ≠ [] := operationTxs_ne_nil _ hq fun h7 => hscroll _ _ _ (hn h7)
    have hacc := startList_accept (s := { s with latch := q, rawTx := none }) ht hne
    refine ⟨_, (h s hi).trans hacc, rfl, fun _ => ⟨rfl, he⟩, by simp [ho], hne, ?_⟩
    rw [h (withTurns [] s) hi, startList_run rfl]
    rfl
  | refused r hw h => simp [hnamed, hpixel] at hw
  | cycle hc h => simp [hcyc] at hc

/-! ### One step without turns is a run of atomic steps -/

theorem run_succ (k : Nat) (s : State) : run (k + 1) s = andThen (step s) (run k) := by
  simp only [run, Host.Core.run, core]
  cases step s <;> rfl

theorem run_one (s : State) : run 1 s = step s := by
  rw [run_succ]
  cases step s <;> rfl

/-- A listed turn of CTL is its completion (40_bus_transport.md R131). -/
theorem step_ctlTurn {s : State} (hp : paramsOk s.params = true) (l : List Turn) :
    step (withTurns (.ctl :: l) s) = .next (withTurns l (ctlCompletion s)) := by
  exact step_of_paramsOk (s := withTurns (.ctl :: l) s) hp

/-- A listed turn of a running SEQ is one atomic step of its list (10_state.md R35). -/
theorem step_seqTurn {s : State} {i : Nat} (hp : paramsOk s.params = true) (hs : s.seqst = .running i) (l : List Turn) :
    step (withTurns (.seq :: l) s) = mapNext (withTurns l) (seqStep i ((currentTxs s).drop i) s) := by
  have hact : act (withTurns (.seq :: l) s) = seqStep i ((currentTxs s).drop i) (withTurns (.seq :: l) s) := by
    rw [act_of_not_ctl (by simp), withTurns_seqst, hs]
    rfl
  rw [step_of_paramsOk (s := withTurns (.seq :: l) s) hp, hact, seqStep_turnBlind, mapNext_mapNext]
  rfl

/-- Some turns lead a running SEQ in atomic steps to the answer `o`. -/
def reachedAtomically (s : State) (o : Answer) : Prop := ∃ l, l ≠ [] ∧ run l.length (withTurns l s) = o

/-- A step at the head turn, then the atomic steps of what it leaves. -/
theorem reachedAtomically.cons {s t : State} {o : Answer} {m : Turn}
    (hm : ∀ l, step (withTurns (m :: l) s) = .next (withTurns l t)) (h : reachedAtomically t o) : reachedAtomically s o := by
  obtain ⟨l, -, hl⟩ := h
  refine ⟨m :: l, List.cons_ne_nil _ _, ?_⟩
  rw [List.length_cons, run_succ, hm, andThen_next, hl]

/-- An answer that one listed turn gives. -/
theorem reachedAtomically.of_step {s : State} {o : Answer} {m : Turn} (h : step (withTurns [m] s) = o) :
    reachedAtomically s o := ⟨[m], List.cons_ne_nil _ _, by rw [List.length_singleton, run_one, h]⟩

/-- SEQ at transaction i of its list, `ts` being what is left of it, and no turn listed. -/
structure AtList (i : Nat) (ts : List Tx) (s : State) : Prop where
  legal : paramsOk s.params = true
  running : s.seqst = .running i
  left : (currentTxs s).drop i = ts
  turns : s.turns = []

theorem AtList.step_seqTurn {i : Nat} {ts : List Tx} {s : State} (h : AtList i ts s) (l : List Turn) :
    step (withTurns (.seq :: l) s) = mapNext (withTurns l) (seqStep i ts s) := by
  rw [Machine.step_seqTurn h.legal h.running, h.left]

/-- Steps that move neither the operation, nor its place in it, leave SEQ at the same transaction. -/
theorem AtList.of_eq {i : Nat} {ts : List Tx} {s t : State} (h : AtList i ts s) (hp : t.params = s.params)
    (hl : t.latch = s.latch) (hr : t.rawTx = s.rawTx) (hs : t.seqst = s.seqst) (ht : t.turns = s.turns) : AtList i ts t where
  legal := hp ▸ h.legal
  running := hs.trans h.running
  left := by rw [← h.left, currentTxs, currentTxs, hp, hl, hr]
  turns := ht.trans h.turns

/-- A ready CTL: the first transaction of a list takes effect after the poll. -/
theorem runTxs_ready {s : State} (hb : s.ctl.bf = false) (i : Nat) (x : Tx) (ts : List Tx) :
    runTxs i (x :: ts) s =
      andThen (transfer x (stopPolling (poll s))) fun u => runTxs (i + 1) ts { u with seqst := .running (i + 1) } := by
  conv_lhs => unfold runTxs
  rw [waitReady_ready hb]
  rw [if_neg (by rw [stopPolling_poll]; simp [hb])]

/-- A busy CTL that is responsive: the list goes on as from the completion that follows the first poll. -/
theorem runTxs_completes {s : State} (hb : s.ctl.bf = true) (hr : s.responsive = true) (i : Nat) (x : Tx) (ts : List Tx) :
    runTxs i (x :: ts) s = runTxs i (x :: ts) (ctlCompletion (poll s)) := by
  unfold runTxs
  rw [waitReady_completes hb hr, waitReady_ready (s := ctlCompletion (poll s)) rfl]

/-- A transaction after its poll moves neither the operation nor the turns. -/
theorem transfer_after_poll_keeps {x : Tx} {s u : State} (hb : s.ctl.bf = false)
    (hu : transfer x (stopPolling (poll s)) = .next u) :
    u.params = s.params ∧ u.latch = s.latch ∧ u.rawTx = s.rawTx ∧ u.turns = s.turns := by
  rw [stopPolling_poll] at hu
  obtain ⟨c, o, l, r, v, n, rfl, -⟩ := transfer_cases (by exact hb) rfl hu
  exact ⟨rfl, rfl, rfl, rfl⟩

/-- After a transaction that is not the last SEQ is at the next one. -/
theorem AtList.next {i : Nat} {x y : Tx} {ts : List Tx} {s u : State} (h : AtList i (x :: y :: ts) s)
    (hb : s.ctl.bf = false) (hu : transfer x (stopPolling (poll s)) = .next u) :
    AtList (i + 1) (y :: ts) { u with seqst := .running (i + 1) } := by
  obtain ⟨hp, hl, hr, ht⟩ := transfer_after_poll_keeps hb hu
  have htail : (currentTxs s).drop (i + 1) = y :: ts := by rw [← List.tail_drop, h.left, List.tail_cons]
  have hat : AtList (i + 1) (y :: ts) { s with seqst := .running (i + 1) } := ⟨h.legal, rfl, htail, h.turns⟩
  exact hat.of_eq hp hl hr rfl ht

/-- The turn of SEQ at a ready CTL carries out one transaction; if that leads on atomically, so does the list. -/
theorem AtList.reached_ready {i : Nat} {x : Tx} {ts : List Tx} {s : State} (h : AtList i (x :: ts) s)
    (hb : s.ctl.bf = false) (ih : ∀ u, AtList (i + 1) ts u → reachedAtomically u (runTxs (i + 1) ts u)) :
    reachedAtomically s (runTxs i (x :: ts) s) := by
  have hstep := h.step_seqTurn
  simp only [seqStep_ready hb] at hstep
  rw [runTxs_ready hb]
  cases hu : transfer x (stopPolling (poll s)) with
  | fault r => exact .of_step ((hstep []).trans (by rw [hu]; rfl))
  | refused r => exact .of_step ((hstep []).trans (by rw [hu]; rfl))
  | next u =>
    cases ts with
    | nil =>
      obtain ⟨-, -, -, ht⟩ := transfer_after_poll_keeps hb hu
      refine .of_step ((hstep []).trans ?_)
      rw [hu]
      exact congrArg Host.Outcome.next (withTurns_self (s := finish u) (ht.trans h.turns))
    | cons y ts => exact .cons (fun l => (hstep l).trans (by rw [hu]; rfl)) (ih _ (h.next hb hu))

/-- All the atomic steps a list takes are reached by turns (log 9): SEQ's where CTL is ready, SEQ's and CTL's before it where CTL
completes late, and one poll where it never completes. -/
theorem runTxs_reachedAtomically (ts : List Tx) :
    ∀ (i : Nat) (s : State), AtList i ts s → reachedAtomically s (runTxs i ts s) := by
  induction ts with
  | nil =>
    intro i s h
    exact .of_step ((h.step_seqTurn []).trans (congrArg Host.Outcome.next (withTurns_self (s := finish s) h.turns)))
  | cons x ts ih =>
    intro i s h
    cases hb : s.ctl.bf with
    | false => exact h.reached_ready hb (ih (i + 1))
    | true =>
      have hpoll : { poll s with seqst := .running i } = poll s := by rw [poll_eq, ← h.running]
      have hstep : ∀ l, step (withTurns (.seq :: l) s) = .next (withTurns l (poll s)) := fun l => by
        rw [h.step_seqTurn, seqStep_busy hb, hpoll]; rfl
      have hat : AtList i (x :: ts) (poll s) := by
        rw [poll_eq]; exact h.of_eq rfl rfl rfl rfl rfl
      cases hr : s.responsive with
      | false =>
        rw [runTxs_held hb hr, hpoll]
        exact .of_step ((hstep []).trans (congrArg Host.Outcome.next (withTurns_self hat.turns)))
      | true =>
        have hat' : AtList i (x :: ts) (ctlCompletion (poll s)) := hat.of_eq rfl rfl rfl rfl rfl
        rw [runTxs_completes hb hr]
        exact .cons hstep (.cons (step_ctlTurn hat.legal) (hat'.reached_ready rfl (ih (i + 1))))

/-- Where a turn is listed, settling does nothing (log 10). -/
theorem settled_withTurns (m : Turn) (l : List Turn) (s : State) : settled (withTurns (m :: l) s) = withTurns (m :: l) s :=
  if_neg (by simp)

/-- What the host finds where no turn is listed, one turn of CTL reaches, or none. -/
theorem reachedAtomically.of_settled {s : State} {o : Answer} (hp : paramsOk s.params = true)
    (h : reachedAtomically (settled s) o) : reachedAtomically s o := by
  obtain ⟨hs, -⟩ | ⟨hs, -⟩ := settled_cases s
  · exact .cons (step_ctlTurn hp) (hs ▸ h)
  · exact hs ▸ h

/-- What the host's turn does at an idle block that has settled (log 11): its next statement, if it has one. -/
def hostAct (s : State) : Answer :=
  match s.program with
  | [] => .next s
  | p :: rest =>
    match decode p with
    | .error e => .refused (.undecodable e)
    | .ok i => exec i { s with program := rest }

/-- At an idle block a turn that is not CTL's is the host's. -/
theorem act_of_idle {s : State} (hi : s.seqst = .idle) (h : ∀ l, s.turns ≠ .ctl :: l) : act s = hostAct (settled s) := by
  obtain ⟨b, hb⟩ := settled_eq s
  rw [act_of_not_ctl h, hi, hb]
  rfl

/-- A listed turn of the host. -/
theorem step_hostTurn {s : State} (hp : paramsOk s.params = true) (hi : s.seqst = .idle) (l : List Turn) :
    step (withTurns (.seq :: l) s) = mapNext endTurn (hostAct (withTurns (.seq :: l) s)) := by
  rw [step_of_paramsOk (s := withTurns (.seq :: l) s) hp, act_of_idle (s := withTurns (.seq :: l) s) hi (by simp),
    settled_withTurns]

/-- A request that SEQ takes up: the host's turn accepts it, and the list's atomic steps follow. -/
theorem startList_reachedAtomically {ts : List Tx} {s t : State} (hp : paramsOk t.params = true) (ht : t.turns = [])
    (hts : currentTxs t = ts)
    (hm : ∀ l, step (withTurns (.seq :: l) s) = mapNext endTurn (startList ts (withTurns (.seq :: l) t))) :
    reachedAtomically s (startList ts t) := by
  cases ts with
  | nil => exact .of_step ((hm []).trans (congrArg Host.Outcome.next (withTurns_self (s := finish t) ht)))
  | cons x ts =>
    rw [startList_run ht]
    exact .cons (t := { t with seqst := .running 0 }) hm (runTxs_reachedAtomically _ 0 _ ⟨hp, rfl, hts, ht⟩)

/-- What an instruction answers an idle block where no turn is listed is reached from any state whose turn of the host runs it. -/
theorem exec_reachedAtomically {s t : State} {i : Instr} (hp : paramsOk t.params = true) (ht : t.turns = [])
    (hi : t.seqst = .idle) (hm : ∀ l, step (withTurns (.seq :: l) s) = mapNext endTurn (exec i (withTurns (.seq :: l) t))) :
    reachedAtomically s (exec i t) := by
  cases presented i with
  | transaction r ho h =>
    rw [h _ hi]
    refine startList_reachedAtomically hp ht rfl fun l => ?_
    rw [hm, h _ (by exact hi)]
    rfl
  | operation q ho he hl hn h =>
    rw [h _ hi]
    refine startList_reachedAtomically hp ht rfl fun l => ?_
    rw [hm, h _ (by exact hi)]
    rfl
  | refused r hw h =>
    refine .of_step ((hm []).trans ?_)
    rw [h _ (by exact hi), h _ hi]
    rfl
  | cycle hc h =>
    refine .of_step ((hm []).trans ?_)
    rw [h, mapNext_mapNext]
    exact mapNext_eq_self fun u hu => withTurns_self ((exec_sameParamsTurns hu).2.trans ht)

/-- What the host's turn answers where no turn is listed is reached atomically. -/
theorem hostAct_reachedAtomically {s : State} (hp : paramsOk s.params = true) (ht : s.turns = []) (hi : s.seqst = .idle) :
    reachedAtomically s (hostAct s) := by
  have hstep := step_hostTurn hp hi
  unfold hostAct at hstep ⊢
  simp only [withTurns_program] at hstep
  cases hq : s.program with
  | nil =>
    rw [hq] at hstep
    exact .of_step ((hstep []).trans (congrArg Host.Outcome.next (withTurns_self ht)))
  | cons p rest =>
    rw [hq] at hstep
    dsimp only at hstep ⊢
    cases hd : decode p with
    | error e =>
      rw [hd] at hstep
      exact .of_step (hstep [])
    | ok i =>
      rw [hd] at hstep
      exact exec_reachedAtomically (t := { s with program := rest }) hp ht hi hstep

/-- Where no turn is listed, ending the turn changes nothing. -/
theorem step_of_no_turns {s : State} (hp : paramsOk s.params = true) (ht : s.turns = []) : step s = act s := by
  rw [step_of_paramsOk hp]
  refine mapNext_eq_self fun t h => ?_
  obtain ⟨-, hturns⟩ := act_sameParamsTurns h
  exact withTurns_self (l := t.turns.tail) (by rw [hturns, ht]; rfl)

/-- Settles O60, by who acts: a running SEQ, the host with a statement, or an idle host. -/
theorem wholeStepIsAtomicSteps : Obligations.WholeStepIsAtomicSteps := by
  intro s ht
  show reachedAtomically s (step s)
  cases hp : paramsOk s.params with
  | false =>
    exact .of_step (m := .seq) ((step_of_not_paramsOk (s := withTurns [.seq] s) hp).trans (step_of_not_paramsOk hp).symm)
  | true =>
    rw [step_of_no_turns hp ht]
    cases hs : s.seqst with
    | running i =>
      have hact : act s = runTxs i ((currentTxs s).drop i) s := by
        rw [act_of_not_ctl (by simp [ht]), hs]
        simp only [resume, ht]
      rw [hact]
      exact runTxs_reachedAtomically _ i s ⟨hp, hs, rfl, ht⟩
    | idle =>
      rw [act_of_idle hs (by simp [ht])]
      obtain ⟨b, hb⟩ := settled_eq s
      refine .of_settled hp (hostAct_reachedAtomically ?_ ?_ ?_) <;> rw [hb]
      · exact hp
      · exact ht
      · exact hs

/-! ### SEQ's turn -/

/-- What a command makes of CTL depends on nothing of SEQ: not on its lines, nor on what it has sampled. -/
theorem ctlExec_ctl_congr (k : Command) (d : Byte) {s t : State} (hp : t.params = s.params) (hc : t.ctl = s.ctl)
    (hn : t.draws = s.draws) : (ctlExec k d t).ctl = (ctlExec k d s).ctl := by
  have hbit : ∀ f : Byte → Byte, (ctlBitOp f t).ctl = (ctlBitOp f s).ctl := by
    intro f
    unfold ctlBitOp memRead
    rw [hp, hc]
    cases s.ctl.mem.get (memMap s.params s.ctl.cur) <;> cases s.params.bitopAdvance <;> simp [hp, hc, hn, memWrite_ctl]
  have hgeo : ∀ f : Ctl → Ctl, (geometryStore t f).ctl = (geometryStore s f).ctl := by
    intro f
    unfold geometryStore
    rw [hc]
    cases s.ctl.modeSeen <;> simp [hc, hn]
  cases k with
  | pitch => exact hgeo fun c => { c with pitch := d }
  | nchr => exact hgeo fun c => { c with nchr := d }
  | tdiv => exact hgeo fun c => { c with tdiv := d }
  | clearBit => exact hbit (withBitClear · (bitNumber d))
  | setBit => exact hbit (withBitSet · (bitNumber d))
  | write => simp [ctlExec, ctlWrite, hp, hc]
  | mode => simp [ctlExec, ctlMode, hc]
  | startLo => simp [ctlExec, ctlStartLo, hc]
  | startHi => simp [ctlExec, ctlStartHi, hc]
  | curLo => simp [ctlExec, ctlCurLo, hc]
  | curHi => simp [ctlExec, ctlCurHi, hc]
  | read => exact hc

/-- The transaction SEQ's turn carries out at a ready CTL (00_scope.md R11), the turn over. -/
theorem step_seqTurn_ready {s u : State} {i : Nat} {l : List Turn} {x : Tx} {ts : List Tx} (hp : paramsOk s.params = true)
    (hs : s.seqst = .running i) (ht : s.turns = .seq :: l) (hx : (currentTxs s).drop i = x :: ts) (hb : s.ctl.bf = false)
    (hu : transfer x (stopPolling (poll s)) = .next u) : step s = .next (withTurns l (afterTx i ts u)) := by
  have hstep := step_seqTurn hp hs l
  rwa [withTurns_self ht, hx, seqStep_ready hb, hu] at hstep

/-- What is left of a list decides SEQST after a transaction; nothing else that the turn leaves depends on it. -/
theorem afterTx_eq (i : Nat) (ts : List Tx) (u : State) :
    afterTx i ts u = { u with
      seqst := if ts.isEmpty then .idle else .running (i + 1), rawTx := if ts.isEmpty then none else u.rawTx } := by
  cases ts <;> rfl

/-- A transaction at SEQ's turn, then what the turn leaves alone. -/
theorem transactionTurnDone_of_transfer {s u : State} {x : Tx} (hb : s.ctl.bf = false)
    (hu : transfer x (stopPolling (poll s)) = .next u) (i : Nat) (ts : List Tx) (l : List Turn) :
    transactionTurnDone i ts l s (withTurns l (afterTx i ts u)) := by
  rw [stopPolling_poll] at hu
  obtain ⟨c, o, lb, r, v, n, rfl, -⟩ := transfer_cases (by exact hb) rfl hu
  rw [afterTx_eq]
  exact ⟨rfl, rfl, rfl, rfl, rfl, rfl, rfl, rfl⟩

/-- A `send` of a named command that SEQ's turn carries out: the command executes on CTL (40_bus_transport.md R123, R129). -/
theorem seqTurn_send {s : State} {i : Nat} {l : List Turn} {x : Tx} {ts : List Tx} (hp : paramsOk s.params = true)
    (hs : s.seqst = .running i) (ht : s.turns = .seq :: l) (hx : (currentTxs s).drop i = x :: ts) (hb : s.ctl.bf = false)
    {k : Command} {d : Byte} (hk : k ≠ .read)
    (htr : transfer x (stopPolling (poll s)) = sendPhases (codeOf k) d (stopPolling (poll s))) :
    ∃ t, step s = .next t ∧ transactionTurnDone i ts l s t ∧ t.lb = s.lb ∧ t.res = s.res ∧
      t.ctl = { (ctlExec k d { s with ctl := { s.ctl with ir := codeOf k, phaseDone := false } }).ctl with
        bf := true, phaseDone := true } := by
  have hu := htr.trans (sendPhases_named (by rw [stopPolling_poll]; exact hb) (by rw [stopPolling_poll]) hk d)
  refine ⟨_, step_seqTurn_ready hp hs ht hx hb hu, transactionTurnDone_of_transfer hb hu i ts l, ?_⟩
  obtain ⟨c, n, he, -⟩ := ctlExec_frame k d (afterIrw (codeOf k) (stopPolling (poll s)))
  have hctl : (ctlExec k d (afterIrw (codeOf k) (stopPolling (poll s)))).ctl =
      (ctlExec k d { s with ctl := { s.ctl with ir := codeOf k, phaseDone := false } }).ctl := by
    rw [stopPolling_poll]
    exact ctlExec_ctl_congr k d rfl rfl rfl
  rw [afterTx_eq, ← hctl]
  unfold afterDwr
  rw [he, stopPolling_poll]
  exact ⟨rfl, rfl, rfl⟩

/-- What a `receive` samples is the byte at the cursor, where that has been written (20_memory.md R63). -/
theorem afterReceive_smp {s : State} {v : Byte} (h : s.ctl.mem.get (memMap s.params s.ctl.cur) = some v) :
    (afterReceive (stopPolling (poll s))).smp = v := by
  rw [stopPolling_poll]
  simp [afterReceive, memRead, h]

/-- What a `receive` leaves (40_bus_transport.md R124, R130): the cursor advanced, the byte in the sample, and where its kind
says. -/
def received (x : Tx) (s t : State) : Prop :=
  t.ctl = { s.ctl with ir := codeOf .read, cur := s.ctl.cur + 1, bf := true, phaseDone := true } ∧
  (∀ v, s.ctl.mem.get (memMap s.params s.ctl.cur) = some v → t.smp = v) ∧
  (x = .recv → t.lb = s.lb ∧ t.res = s.res) ∧ (x = .recvRes → t.lb = s.lb ∧ t.res = t.smp) ∧
  (∀ j, x = .recvLb j → t.lb = s.lb.set j t.smp ∧ t.res = s.res)

/-- A `receive` after the poll that found CTL ready. -/
theorem transfer_receive {x : Tx} {s : State} (hb : s.ctl.bf = false) (hx : x = .recv ∨ x = .recvRes ∨ ∃ j, x = .recvLb j) :
    ∃ u, transfer x (stopPolling (poll s)) = .next u ∧ received x s u := by
  have hsmp := @afterReceive_smp s
  have hrec := receivePhases_ready (s := stopPolling (poll s)) (by rw [stopPolling_poll]; exact hb)
    (by rw [stopPolling_poll])
  rw [stopPolling_poll] at hsmp hrec ⊢
  obtain rfl | rfl | ⟨j, rfl⟩ := hx
  · exact ⟨_, hrec, rfl, @hsmp, fun _ => ⟨rfl, rfl⟩, nofun, nofun⟩
  · exact ⟨_, congrArg (andThen · fun u => .next { u with res := u.smp }) hrec, rfl, @hsmp, nofun,
      fun _ => ⟨rfl, rfl⟩, nofun⟩
  · refine ⟨_, congrArg (andThen · fun u => .next { u with lb := u.lb.set j u.smp }) hrec, rfl, @hsmp, nofun, nofun, ?_⟩
    rintro _ ⟨⟩
    exact ⟨rfl, rfl⟩

/-- Settles O58: SEQ's turn at a busy CTL is the poll, at a ready one the transaction by its kind. -/
theorem seqTurnIsPollOrTransaction : Obligations.SeqTurnIsPollOrTransaction := by
  intro s i l x ts hp hs ht hx
  refine ⟨fun hb => ?_, fun hb => ⟨fun k d hk hxk => ?_, fun hr => ?_⟩⟩
  · refine ⟨_, statusByte_bit7 true (Config.statusBits s.samples), ?_⟩
    have hstep := step_seqTurn hp hs l
    rw [withTurns_self ht, hx, seqStep_busy hb, poll_eq, hb, ← hs] at hstep
    exact hstep
  · refine seqTurn_send hp hs ht hx hb hk ?_
    obtain rfl | ⟨rfl, j, rfl, rfl⟩ := hxk
    · rfl
    · rw [stopPolling_poll]; rfl
  · obtain ⟨u, hu, hrec⟩ := transfer_receive hb hr
    refine ⟨_, step_seqTurn_ready hp hs ht hx hb hu, transactionTurnDone_of_transfer hb hu i ts l, ?_⟩
    rw [afterTx_eq]
    exact hrec

end Sys2Proof.Machine
end

section
/-! PROOFS of the family 10_state.md: reset (O47, O48), a running list (O45), and who writes the configuration registers (O54)
and the result register (O55), with the lemmas they share: what an operation's list holds. -/

namespace Sys2Proof.Machine

/-! ### Reset -/

/-- Settles O47: the fields of State.reset. -/
theorem resetLeavesSequencerIdle : Obligations.ResetLeavesSequencerIdle := ⟨rfl, rfl, rfl, rfl, rfl⟩

/-- Settles O48: the geometry of State.reset is legal, its memory lists nothing, and its SEQ is at rest. -/
theorem resetMeetsInvariant : Obligations.ResetMeetsInvariant := by
  have hparams : paramsOk State.reset.params = true := by decide
  have hidle : sequencerInv State.reset := ⟨rfl, rfl, rfl⟩
  exact ⟨hparams, List.Pairwise.nil, rfl, hidle⟩

/-! ### A running list -/

/-- At a turn that is not CTL's a running SEQ goes on with its list. -/
theorem act_of_running {s : State} {i : Nat} (h : ∀ l, s.turns ≠ .ctl :: l) (hs : s.seqst = .running i) :
    act s = resume i s := by
  rw [act_of_not_ctl h, hs]

/-- Where no turn is listed SEQ goes on to the end of its list (log 9). -/
theorem resume_of_no_turns {s : State} (ht : s.turns = []) (i : Nat) : resume i s = runTxs i ((currentTxs s).drop i) s := by
  rw [resume, ht]

/-- Settles O45, by whether a turn is listed. -/
theorem stepGoesOnWithRunningList : Obligations.StepGoesOnWithRunningList := by
  refine fun s i hp hs => ⟨fun ht => ?_, fun l ht => ?_⟩
  · rw [step_of_no_turns hp ht, act_of_running (by simp [ht]) hs, resume_of_no_turns ht]
  · have hstep := step_seqTurn hp hs l
    rwa [withTurns_self ht] at hstep

/-! ### What an operation's list holds -/

/-- The commands of the drawing operations: the cursor's and the display memory's. -/
def drawingCommand : Command → Bool
  | .curLo | .curHi | .write | .clearBit | .setBit => true
  | _ => false

/-- A transaction of the operations other than INIT and READ_BYTE. -/
def Tx.isDrawing : Tx → Prop
  | .send c _ => ∃ k, c = codeOf k ∧ drawingCommand k = true
  | .sendLb _ | .recvLb _ => True
  | .recv | .recvRes => False

theorem sendOf_isDrawing {k : Command} (hk : drawingCommand k = true) (d : Byte) : (sendOf k d).isDrawing := ⟨k, rfl, hk⟩

theorem moveTxs_drawing (p : Params) (x y : Nat) : ∀ t ∈ moveTxs p x y, t.isDrawing := by
  have hlo := sendOf_isDrawing (k := .curLo) rfl (posLo (pos p x y))
  have hhi := sendOf_isDrawing (k := .curHi) rfl (posHi (pos p x y))
  simp [moveTxs, hlo, hhi]

theorem drawByteTxs_drawing (b : Byte) : ∀ t ∈ drawByteTxs b, t.isDrawing :=
  List.forall_mem_singleton.2 (sendOf_isDrawing rfl b)

theorem zeroTxs_drawing (n : Nat) : ∀ t ∈ zeroTxs n, t.isDrawing := fun _ ht =>
  List.eq_of_mem_replicate ht ▸ sendOf_isDrawing rfl 0

theorem plotByteTxs_drawing (p : Params) (x y : Nat) (b : Byte) : ∀ t ∈ plotByteTxs p x y b, t.isDrawing :=
  List.forall_mem_append.2 ⟨moveTxs_drawing p x y, drawByteTxs_drawing b⟩

theorem plotPixelTxs_drawing (p : Params) (x y : Nat) (b : Byte) : ∀ t ∈ plotPixelTxs p x y b, t.isDrawing :=
  List.forall_mem_append.2 ⟨moveTxs_drawing p x y,
    List.forall_mem_singleton.2 (sendOf_isDrawing (by split <;> rfl) (bitOperand x))⟩

theorem clearTxs_drawing (p : Params) : ∀ t ∈ clearTxs p, t.isDrawing :=
  List.forall_mem_append.2 ⟨moveTxs_drawing p 0 0, zeroTxs_drawing (surfaceBytes p)⟩

theorem relocateRowTxs_drawing (p : Params) (n j : Nat) : ∀ t ∈ relocateRowTxs p n j, t.isDrawing := by
  have hrecv : ∀ t ∈ (List.range (bpr p)).map Tx.recvLb, t.isDrawing := List.forall_mem_map.2 fun _ _ => trivial
  have hsend : ∀ t ∈ (List.range (bpr p)).map Tx.sendLb, t.isDrawing := List.forall_mem_map.2 fun _ _ => trivial
  simp only [relocateRowTxs, List.forall_mem_append]
  exact ⟨⟨⟨moveTxs_drawing p 0 (j + n), hrecv⟩, moveTxs_drawing p 0 j⟩, hsend⟩

theorem scrollUpTxs_drawing (p : Params) (n : Nat) : ∀ t ∈ scrollUpTxs p n, t.isDrawing := by
  unfold scrollUpTxs
  split
  · exact List.forall_mem_nil _
  · refine List.forall_mem_append.2 ⟨List.forall_mem_flatMap.2 fun j _ => relocateRowTxs_drawing p n j, ?_⟩
    exact List.forall_mem_append.2 ⟨moveTxs_drawing p 0 _, zeroTxs_drawing _⟩

/-- A transaction of the latched operation (10_state.md R35): INIT's, READ_BYTE's receive, or one of the drawing operations. -/
theorem mem_operationTxs {p : Params} {q : Latches} {t : Tx} (h : t ∈ operationTxs p q) :
    (q.opc = 0 ∧ t ∈ initTxs p) ∨ (q.opc = 6 ∧ t = .recvRes) ∨ t.isDrawing := by
  unfold operationTxs at h
  split at h
  · rename_i ho; exact .inl ⟨BitVec.eq_of_toNat_eq ho, h⟩
  · exact .inr (.inr (moveTxs_drawing _ _ _ t h))
  · exact .inr (.inr (drawByteTxs_drawing _ t h))
  · exact .inr (.inr (plotByteTxs_drawing _ _ _ _ t h))
  · exact .inr (.inr (plotPixelTxs_drawing _ _ _ _ t h))
  · exact .inr (.inr (clearTxs_drawing _ t h))
  · rename_i ho; exact .inr (.inl ⟨BitVec.eq_of_toNat_eq ho, List.mem_singleton.1 h⟩)
  · exact .inr (.inr (scrollUpTxs_drawing _ _ t h))
  · cases h

/-! ### Who writes the configuration registers -/

/-- A transaction that sends no configuration command: a drawing one or a receive. -/
def Tx.sparesConfiguration (t : Tx) : Prop := ∀ c d, t = .send c d → t.isDrawing

/-- Of the operations only INIT sends configuration commands (43_framebuffer_ops.md R195). -/
theorem operationTxs_spareConfiguration {p : Params} {q : Latches} (hq : q.opc ≠ 0) :
    ∀ t ∈ operationTxs p q, t.sparesConfiguration := by
  rintro t h c d rfl
  obtain ⟨ho, -⟩ | ⟨-, h⟩ | h := mem_operationTxs h
  · exact absurd ho hq
  · cases h
  · exact h

theorem sameConfiguration.trans {s t u : State} (h : sameConfiguration s t) (k : sameConfiguration t u) :
    sameConfiguration s u := by
  obtain ⟨h1, h2, h3, h4, h5, h6⟩ := h
  obtain ⟨k1, k2, k3, k4, k5, k6⟩ := k
  exact ⟨k1.trans h1, k2.trans h2, k3.trans h3, k4.trans h4, k5.trans h5, k6.trans h6⟩

/-- The commands that draw touch the cursor and display memory only (41_controller_commands.md R156 to R161). -/
theorem ctlExec_sameConfiguration {k : Command} (hk : drawingCommand k = true) (d : Byte) (s : State) :
    sameConfiguration s (ctlExec k d s) := by
  have hbit : ∀ f : Byte → Byte, sameConfiguration s (ctlBitOp f s) := by
    intro f
    unfold ctlBitOp
    obtain ⟨v, -, h⟩ | ⟨-, h⟩ := memRead_cases s s.ctl.cur <;> rw [h] <;> cases s.params.bitopAdvance <;>
      exact ⟨rfl, rfl, rfl, rfl, rfl, rfl⟩
  cases k with
  | curLo | curHi | write => exact ⟨rfl, rfl, rfl, rfl, rfl, rfl⟩
  | clearBit => exact hbit (withBitClear · (bitNumber d))
  | setBit => exact hbit (withBitSet · (bitNumber d))
  | _ => cases hk

/-- A `send` of a drawing command leaves the configuration alone. -/
theorem sendPhases_sameConfiguration {k : Command} (hk : drawingCommand k = true) {d : Byte} {w u : State}
    (hb : w.ctl.bf = false) (hd : w.pins.dir = .out) (h : sendPhases (codeOf k) d w = .next u) : sameConfiguration w u := by
  have hread : k ≠ .read := by rintro rfl; cases hk
  rw [sendPhases_named hb hd hread] at h
  obtain rfl := Host.Outcome.next.inj h
  exact (ctlExec_sameConfiguration hk d (afterIrw (codeOf k) w) :)

/-- A transaction that sends no configuration command, and all that is around one, leaves the configuration alone. -/
theorem kept_sameConfiguration : Kept Tx.sparesConfiguration sameConfiguration where
  trans := sameConfiguration.trans
  between := fun _ _ _ _ _ _ _ => ⟨rfl, rfl, rfl, rfl, rfl, rfl⟩
  transfer := fun {x w u} hx hb hd h => by
    have hrecv := receivePhases_ready hb hd
    cases x with
    | send c d =>
      obtain ⟨k, rfl, hk⟩ := hx c d rfl
      exact sendPhases_sameConfiguration hk hb hd h
    | sendLb j => exact sendPhases_sameConfiguration (k := .write) rfl hb hd h
    | recv =>
      obtain rfl := Host.Outcome.next.inj (hrecv.symm.trans h)
      exact ⟨rfl, rfl, rfl, rfl, rfl, rfl⟩
    | recvLb j | recvRes =>
      simp only [transfer, hrecv, andThen_next] at h
      obtain rfl := Host.Outcome.next.inj h
      exact ⟨rfl, rfl, rfl, rfl, rfl, rfl⟩

/-- Settles O54: the lists of the other operations send no configuration command, when taken up and at every later step. -/
theorem onlyInitWritesConfiguration : Obligations.OnlyInitWritesConfiguration := by
  refine ⟨fun i s t hop hinit h => ?_, fun n s t hs hraw hopc h => ?_⟩
  · obtain ⟨-, ⟨r, ho, -⟩ | ⟨q, -, h0, -, h⟩ | ⟨-, -, -, -, -, ho, -⟩⟩ := exec_cases h
    · simp [hop] at ho
    · have hq : q.opc ≠ 0 := fun h => by
        obtain ⟨x, y, d, rfl⟩ := h0 h
        exact hinit x y d rfl
      exact (kept_sameConfiguration.startList (operationTxs_spareConfiguration hq) h :)
    · simp [hop] at ho
  · obtain ⟨-, u, hu, rfl⟩ := step_cases h
    obtain ⟨-, rfl⟩ | ⟨-, ⟨i, -, h⟩ | ⟨hi, -⟩ | ⟨-, -, -, hi, -⟩⟩ := act_cases hu
    · exact ⟨rfl, rfl, rfl, rfl, rfl, rfl⟩
    · have hlist : ∀ x ∈ currentTxs s, x.sparesConfiguration := by
        simpa only [currentTxs, hraw] using operationTxs_spareConfiguration hopc
      exact (kept_sameConfiguration.resume hlist h :)
    · simp [hs] at hi
    · simp [hs] at hi

/-! ### Who writes the result register -/

/-- Of the operations only READ_BYTE receives into RES (43_framebuffer_ops.md R191). -/
theorem recvRes_mem_operationTxs {p : Params} {q : Latches} (h : Tx.recvRes ∈ operationTxs p q) : q.opc = 6 := by
  obtain ⟨-, h⟩ | ⟨h, -⟩ | h := mem_operationTxs h
  · simp [initTxs, sendOf] at h
  · exact h
  · cases h

theorem RawTx.tx_ne_recvRes (r : RawTx) : r.tx ≠ .recvRes := by cases r <;> simp [RawTx.tx]

/-- RES is as it was. -/
def sameResult (s t : State) : Prop := t.res = s.res

/-- A transaction that does not receive into RES, and all that is around one, leaves RES alone. -/
theorem kept_sameResult : Kept (· ≠ .recvRes) sameResult where
  trans := fun h k => Eq.trans k h
  between := fun _ _ _ _ _ _ _ => rfl
  transfer := fun hx hb hd h => by
    obtain ⟨c, o, l, r, v, n, rfl, -, -, -, hr, -⟩ := transfer_cases hb hd h
    exact hr hx

/-- No instruction but READ_BYTE writes RES. -/
theorem exec_sameResult {i : Instr} {s t : State} (hi : ∀ x y d, i ≠ .readByte x y d) (h : exec i s = .next t) :
    sameResult s t := by
  obtain ⟨-, ⟨r, -, h⟩ | ⟨q, -, -, h6, h⟩ | ⟨rs, rw, dir, b, u, -, hu, h⟩⟩ := exec_cases h
  · exact (kept_sameResult.startList (List.forall_mem_singleton.2 r.tx_ne_recvRes) h :)
  · have hlist : ∀ x ∈ operationTxs s.params q, x ≠ .recvRes := by
      rintro _ hx rfl
      obtain ⟨x, y, d, rfl⟩ := h6 (recvRes_mem_operationTxs hx)
      exact hi x y d rfl
    exact (kept_sameResult.startList hlist h :)
  · obtain ⟨c, o, sm, n, m, rfl, -⟩ := busCycle_cases h
    obtain rfl | rfl := hu <;> rfl

/-- The list in execution receives into RES only where it is READ_BYTE's. -/
theorem currentTxs_ne_recvRes {s : State} (h : s.rawTx = none → s.latch.opc ≠ 6) : ∀ x ∈ currentTxs s, x ≠ .recvRes := by
  unfold currentTxs
  cases hr : s.rawTx with
  | some r => exact List.forall_mem_singleton.2 r.tx_ne_recvRes
  | none =>
    rintro _ hx rfl
    exact h hr (recvRes_mem_operationTxs hx)

/-- Settles O55, by what a step can be: no instruction but READ_BYTE and no list but READ_BYTE's receives into RES. -/
theorem onlyReadByteWritesResult : Obligations.OnlyReadByteWritesResult := by
  refine ⟨fun i s t hi h => exec_sameResult hi h, fun s t hrun hhost h => ?_⟩
  obtain ⟨-, u, hu, rfl⟩ := step_cases h
  obtain ⟨b, hb⟩ := settled_eq s
  obtain ⟨-, rfl⟩ | ⟨-, ⟨n, hs, h⟩ | ⟨-, -, rfl⟩ | ⟨p, rest, i, hi, hp, hd, h⟩⟩ := act_cases hu
  · rfl
  · exact (kept_sameResult.resume (currentTxs_ne_recvRes (hrun n hs)) h :)
  · rw [hb]; rfl
  · have hne : ∀ x y d, i ≠ .readByte x y d := by
      rintro x y d rfl
      exact hhost p rest x y d hi hp hd
    rw [hb] at h
    exact (exec_sameResult hne h :)

end Sys2Proof.Machine
end

section
/-! PROOFS of the family 20_memory.md: nothing above the transport depends on REVERSED (O57), with what each operation of the
block answers under another wiring. -/

namespace Sys2Proof.Machine

/-! ### What CTL does is the same under either wiring -/

@[simp] theorem withWiring_ctl (r : Bool) (o : Byte) (s : State) : (withWiring r o s).ctl = s.ctl := rfl
@[simp] theorem withWiring_seqst (r : Bool) (o : Byte) (s : State) : (withWiring r o s).seqst = s.seqst := rfl
@[simp] theorem withWiring_program (r : Bool) (o : Byte) (s : State) : (withWiring r o s).program = s.program := rfl
@[simp] theorem withWiring_turns (r : Bool) (o : Byte) (s : State) : (withWiring r o s).turns = s.turns := rfl
@[simp] theorem withWiring_responsive (r : Bool) (o : Byte) (s : State) : (withWiring r o s).responsive = s.responsive := rfl
@[simp] theorem withWiring_bitopAdvance (r : Bool) (o : Byte) (s : State) :
    (withWiring r o s).params.bitopAdvance = s.params.bitopAdvance := rfl
@[simp] theorem withWiring_dir (r : Bool) (o : Byte) (s : State) : (withWiring r o s).pins.dir = s.pins.dir := rfl
@[simp] theorem memMap_withWiring (a : Addr) (r : Bool) (o : Byte) (s : State) :
    memMap (withWiring r o s).params a = memMap s.params a := rfl

theorem memRead_withWiring (a : Addr) (r : Bool) (o : Byte) (s : State) :
    memRead (withWiring r o s) a = ((memRead s a).1, withWiring r o (memRead s a).2) := by
  unfold memRead
  rw [withWiring_ctl, memMap_withWiring]
  cases s.ctl.mem.get (memMap s.params a) <;> rfl

/-- A bit command reads and writes memory at the cursor only. -/
theorem ctlBitOp_withWiring (f : Byte → Byte) (r : Bool) (o : Byte) (s : State) :
    ctlBitOp f (withWiring r o s) = withWiring r o (ctlBitOp f s) := by
  unfold ctlBitOp
  rw [withWiring_ctl, withWiring_bitopAdvance, memRead_withWiring]
  cases s.params.bitopAdvance <;> rfl

theorem geometryStore_withWiring (f : Ctl → Ctl) (r : Bool) (o : Byte) (s : State) :
    geometryStore (withWiring r o s) f = withWiring r o (geometryStore s f) := by
  unfold geometryStore
  rw [withWiring_ctl]
  cases s.ctl.modeSeen <;> rfl

/-- An effect of CTL is one of logical bytes: it depends neither on the wiring nor on the lines (20_memory.md R66). -/
theorem ctlExec_withWiring (k : Command) (d : Byte) (r : Bool) (o : Byte) (s : State) :
    ctlExec k d (withWiring r o s) = withWiring r o (ctlExec k d s) := by
  cases k with
  | pitch => exact geometryStore_withWiring (fun c => { c with pitch := d }) r o s
  | nchr => exact geometryStore_withWiring (fun c => { c with nchr := d }) r o s
  | tdiv => exact geometryStore_withWiring (fun c => { c with tdiv := d }) r o s
  | clearBit => exact ctlBitOp_withWiring (withBitClear · (bitNumber d)) r o s
  | setBit => exact ctlBitOp_withWiring (withBitSet · (bitNumber d)) r o s
  | _ => rfl

/-- What a command leaves is the same but for the wiring and the lines, where what it found was. -/
theorem ctlExec_congr_withWiring (k : Command) (d : Byte) {r : Bool} {o : Byte} {s t : State}
    (h : withWiring r o s = withWiring r o t) : withWiring r o (ctlExec k d s) = withWiring r o (ctlExec k d t) := by
  rw [← ctlExec_withWiring, h, ctlExec_withWiring]

/-! ### Answers that show the wiring nowhere but in REVERSED and on the lines -/

/-- From a state that meets `pre`, two blocks that differ in REVERSED and in the byte on the data lines only answer states that
differ in these only, and fault or are refused alike. -/
def WiringBlind (pre : State → Prop) (f : State → Answer) : Prop :=
  ∀ r o s, pre s → mapNext (withWiring r o) (f (withWiring r o s)) = mapNext (withWiring r o) (f s)

/-- Answers that agree but for what `F` forgets agree so after a further step that respects `F`. -/
theorem mapNext_andThen_congr {F : State → State} {a b : Answer} {g : State → Answer} (h : mapNext F a = mapNext F b)
    (hg : ∀ u v, F u = F v → mapNext F (g u) = mapNext F (g v)) :
    mapNext F (andThen a g) = mapNext F (andThen b g) := by
  cases a with
  | next u =>
    cases b with
    | next v => exact hg u v (Host.Outcome.next.inj h)
    | fault e => cases h
    | refused e => cases h
  | fault e => cases b <;> cases h; rfl
  | refused e => cases b <;> cases h; rfl

theorem WiringBlind.andThen {pre : State → Prop} {f g : State → Answer} (hf : WiringBlind pre f)
    (hg : WiringBlind (fun _ => True) g) : WiringBlind pre fun s => andThen (f s) g := by
  intro r o s hs
  refine mapNext_andThen_congr (hf r o s hs) fun u v huv => ?_
  calc mapNext (withWiring r o) (g u)
      = mapNext (withWiring r o) (g (withWiring r o u)) := (hg r o u trivial).symm
    _ = mapNext (withWiring r o) (g (withWiring r o v)) := by rw [huv]
    _ = mapNext (withWiring r o) (g v) := hg r o v trivial

/-- An update that leaves the wiring and the data lines alone may come first. -/
theorem WiringBlind.comp {pre post : State → Prop} {f : State → Answer} {u : State → State} (hf : WiringBlind post f)
    (hu : ∀ r o s, u (withWiring r o s) = withWiring r o (u s)) (hpost : ∀ s, pre s → post (u s)) :
    WiringBlind pre fun s => f (u s) := by
  intro r o s hs
  show mapNext _ (f (u (withWiring r o s))) = _
  rw [hu, hf r o (u s) (hpost s hs)]

/-- An update that shows the wiring on the lines at most, as an answer. -/
theorem wiringBlind_next {pre : State → Prop} {u : State → State}
    (hu : ∀ r o s, withWiring r o (u (withWiring r o s)) = withWiring r o (u s)) : WiringBlind pre fun s => .next (u s) :=
  fun r o s _ => congrArg Host.Outcome.next (hu r o s)

/-! ### A transaction -/

/-- The bus is SEQ's and CTL is ready: what a transaction finds after its wait (40_bus_transport.md R122). -/
def busReleased (s : State) : Prop := s.ctl.bf = false ∧ s.pins.dir = .out

/-- The two phases of a `send` undo the wiring (40_bus_transport.md R134). -/
theorem sendPhases_wiringBlind (c : BitVec 4) (d : Byte) : WiringBlind busReleased (sendPhases c d) := by
  rintro r o s ⟨hb, hd⟩
  rw [sendPhases_ready hb hd, sendPhases_ready (s := withWiring r o s) hb hd]
  cases commandOf c with
  | none => rfl
  | some k =>
    have hexec : withWiring r o (ctlExec k d (afterIrw c (withWiring r o s))) = withWiring r o (ctlExec k d (afterIrw c s)) :=
      ctlExec_congr_withWiring k d rfl
    dsimp only
    split
    · rfl
    · exact congrArg (fun u : State => (.next { u with ctl := endDataPhase u.ctl, pins := Pins.idle o } : Answer)) hexec

/-- The two phases of a `receive` undo the wiring (40_bus_transport.md R134). -/
theorem receivePhases_wiringBlind : WiringBlind busReleased receivePhases := by
  rintro r o s ⟨hb, hd⟩
  rw [receivePhases_ready hb hd, receivePhases_ready (s := withWiring r o s) hb hd, mapNext_next, mapNext_next]
  unfold afterReceive
  rw [withWiring_ctl, memRead_withWiring]
  rfl

theorem transfer_wiringBlind (x : Tx) : WiringBlind busReleased (transfer x) := by
  cases x with
  | send c d => exact sendPhases_wiringBlind c d
  | sendLb k => exact fun r o s => sendPhases_wiringBlind (codeOf .write) (s.lb.getD k 0) r o s
  | recv => exact receivePhases_wiringBlind
  | recvLb k =>
    exact receivePhases_wiringBlind.andThen
      (wiringBlind_next (u := fun u => { u with lb := u.lb.set k u.smp }) fun _ _ _ => rfl)
  | recvRes =>
    exact receivePhases_wiringBlind.andThen (wiringBlind_next (u := fun u => { u with res := u.smp }) fun _ _ _ => rfl)

/-! ### SEQ and its list -/

theorem poll_withWiring (r : Bool) (o : Byte) (s : State) : poll (withWiring r o s) = withWiring r o (poll s) := by
  rw [poll_eq, poll_eq]; rfl

/-- A poll that finds CTL ready releases the bus. -/
theorem busReleased_after_poll {s : State} (hb : s.ctl.bf = false) : busReleased (stopPolling (poll s)) := by
  rw [stopPolling_poll]
  exact ⟨hb, rfl⟩

theorem runTxs_wiringBlind (ts : List Tx) : ∀ i, WiringBlind (fun _ => True) (runTxs i ts) := by
  induction ts with
  | nil => exact fun _ _ _ _ _ => rfl
  | cons x ts ih =>
    intro i
    have hrest : WiringBlind (fun _ => True) fun u => runTxs (i + 1) ts { u with seqst := .running (i + 1) } :=
      (ih (i + 1)).comp (u := fun u => { u with seqst := .running (i + 1) }) (fun _ _ _ => rfl) fun _ h => h
    have hready : WiringBlind (fun s => s.ctl.bf = false) (runTxs i (x :: ts)) := by
      intro r o s hb
      rw [runTxs_ready hb, runTxs_ready (s := withWiring r o s) hb, poll_withWiring]
      exact (transfer_wiringBlind x).andThen hrest r o (stopPolling (poll s)) (busReleased_after_poll hb)
    intro r o s _
    cases hb : s.ctl.bf with
    | false => exact hready r o s hb
    | true =>
      cases hr : s.responsive with
      | true =>
        rw [runTxs_completes hb hr, runTxs_completes (s := withWiring r o s) hb hr, poll_withWiring]
        exact hready r o (ctlCompletion (poll s)) rfl
      | false =>
        rw [runTxs_held hb hr, runTxs_held (s := withWiring r o s) hb hr, poll_withWiring]
        rfl

theorem seqStep_wiringBlind (i : Nat) (ts : List Tx) : WiringBlind (fun _ => True) (seqStep i ts) := by
  intro r o s _
  cases ts with
  | nil => rfl
  | cons x ts =>
    cases hb : s.ctl.bf with
    | true => rw [seqStep_busy hb, seqStep_busy (s := withWiring r o s) hb, poll_withWiring]; rfl
    | false =>
      rw [seqStep_ready hb, seqStep_ready (s := withWiring r o s) hb, poll_withWiring]
      have hafter : WiringBlind (fun _ => True) fun u => .next (afterTx i ts u) :=
        wiringBlind_next fun r o u => by cases ts <;> rfl
      exact (transfer_wiringBlind x).andThen hafter r o (stopPolling (poll s)) (busReleased_after_poll hb)

/-- An operation's transactions carry logical bytes (20_memory.md R66). -/
theorem operationTxs_withWiring (q : Latches) (r : Bool) (o : Byte) (s : State) :
    operationTxs (withWiring r o s).params q = operationTxs s.params q := rfl

theorem currentTxs_withWiring (r : Bool) (o : Byte) (s : State) : currentTxs (withWiring r o s) = currentTxs s := rfl

theorem resume_wiringBlind (i : Nat) : WiringBlind (fun _ => True) (resume i) := by
  intro r o s _
  unfold resume
  rw [currentTxs_withWiring, withWiring_turns]
  cases s.turns with
  | nil => exact runTxs_wiringBlind _ i r o s trivial
  | cons m l => exact seqStep_wiringBlind i _ r o s trivial

theorem startList_wiringBlind (ts : List Tx) : WiringBlind (fun _ => True) (startList ts) := by
  intro r o s _
  obtain ⟨rfl, h⟩ | ⟨hts, ht, h⟩ | ⟨-, ht, h⟩ := startList_cases ts s
  · rfl
  · rw [h, startList_accept (s := withWiring r o s) ht hts]
    rfl
  · rw [h, startList_run (s := withWiring r o s) ht]
    exact runTxs_wiringBlind ts 0 r o { s with seqst := .running 0 } trivial

/-! ### A bus cycle on its own -/

/-- SEQ samples while CTL drives the lines (30_encoding.md R91). -/
def reading (s : State) : Prop := s.pins.dir = .inp ∧ s.pins.e = true ∧ s.pins.rw = true

/-- While SEQ drives, the lines carry its byte (10_state.md R32). -/
theorem dataLines_drive {s : State} (hd : s.pins.dir = .out) (v b : Byte) :
    dataLines v (drive b s) = (wire s.params b, drive b s) := by
  simp [dataLines, hd]

/-- IRW latches the bits of the logical byte driven (40_bus_transport.md R127). -/
theorem cycleIrw_wiringBlind (b : Byte) : WiringBlind (fun s => s.pins.dir = .out) fun s => cycleIrw (drive b s) := by
  intro r o s hd
  simp only [cycleIrw, dataLines_drive hd, dataLines_drive (s := withWiring r o s) hd, drive_ctl, drive_params,
    withWiring_ctl, wire_wire]
  split <;> rfl

/-- DWR executes the command in IR with the logical byte driven (40_bus_transport.md R129). -/
theorem cycleDwr_wiringBlind (b : Byte) : WiringBlind (fun s => s.pins.dir = .out) fun s => cycleDwr (drive b s) := by
  intro r o s hd
  have hexec (k : Command) :
      withWiring r o (ctlExec k b (drive b (withWiring r o s))) = withWiring r o (ctlExec k b (drive b s)) :=
    ctlExec_congr_withWiring k b rfl
  simp only [cycleDwr, dataLines_drive hd, dataLines_drive (s := withWiring r o s) hd, drive_ctl, drive_params,
    withWiring_ctl, wire_wire]
  split
  · rfl
  cases commandOf s.ctl.ir with
  | none => rfl
  | some k =>
    dsimp only
    split
    · rfl
    split
    · rfl
    · exact congrArg (fun u : State => (.next { u with ctl := endDataPhase u.ctl } : Answer)) (hexec k)

/-- A status sample is of the logical status byte (40_bus_transport.md R128). -/
theorem statusSample_wiringBlind : WiringBlind reading fun s => .next (statusSample s) := by
  rintro r o s ⟨hd, he, hr⟩
  dsimp only
  rw [statusSample_polling hd he hr, statusSample_polling (s := withWiring r o s) hd he hr]
  rfl

/-- DRD samples the logical byte at the cursor (40_bus_transport.md R130). -/
theorem cycleDrd_reading {s : State} (h : reading s) :
    cycleDrd s = if s.ctl.bf then .fault .transferWhileBusy
      else if commandOf s.ctl.ir ≠ some .read then .fault .readPhaseWithoutReadCommand
      else if s.ctl.phaseDone then .fault .burstNotSupported
      else .next { s with
        ctl := { s.ctl with cur := advance s.ctl.cur, bf := true, phaseDone := true }
        smp := (memRead s s.ctl.cur).1
        draws := (memRead s s.ctl.cur).2.draws } := by
  obtain ⟨hd, he, hr⟩ := h
  obtain ⟨v, -, h⟩ | ⟨-, h⟩ := memRead_cases s s.ctl.cur <;>
    simp [cycleDrd, h, dataLines, hd, he, hr, advanceCur, endDataPhase]

theorem cycleDrd_wiringBlind : WiringBlind reading cycleDrd := by
  intro r o s h
  rw [cycleDrd_reading h, cycleDrd_reading (s := withWiring r o s) h, withWiring_ctl, memRead_withWiring]
  split
  · rfl
  split
  · rfl
  split <;> rfl

/-- The pulse and the return to the idle condition add nothing that shows the wiring. -/
theorem busCycle_wiringBlind {pre : State → Prop} {rs rw : Bool} {dir : Dir} {u : State → State}
    (hu : ∀ s, (u s).seqst = s.seqst)
    (h : WiringBlind pre fun s => selectedCycle (assertE (setSelect rs rw (setDir dir (u s))))) :
    WiringBlind pre fun s => busCycle rs rw dir (u s) := by
  have hpulse := h.andThen (wiringBlind_next (u := deassertE) fun _ _ _ => rfl)
  have hcycle := hpulse.andThen (wiringBlind_next (u := fun u => setDir .out (setSelect false false u)) fun _ _ _ => rfl)
  intro r o s hs
  dsimp only
  unfold busCycle
  rw [hu, hu, withWiring_seqst]
  split
  · exact hcycle r o s hs
  · rfl

/-- A bus cycle that writes, by a block that drives the lines. -/
theorem busCycle_drive_wiringBlind (rs : Bool) (b : Byte) :
    WiringBlind (fun s => s.pins.dir = .out) fun s => busCycle rs false s.pins.dir (drive b s) := by
  have hcycle : WiringBlind (fun _ => True) fun s => selectedCycle (assertE (setSelect rs false (setDir .out (drive b s)))) := by
    cases rs with
    | true =>
      exact (cycleIrw_wiringBlind b).comp (u := fun s => assertE (setSelect true false (setDir .out s))) (fun _ _ _ => rfl)
        fun _ _ => rfl
    | false =>
      exact (cycleDwr_wiringBlind b).comp (u := fun s => assertE (setSelect false false (setDir .out s))) (fun _ _ _ => rfl)
        fun _ _ => rfl
  intro r o s hd
  dsimp only
  rw [withWiring_dir, hd]
  exact busCycle_wiringBlind (u := drive b) (fun _ => rfl) hcycle r o s trivial

/-- A bus cycle that reads: SEQ leaves the lines to CTL. -/
theorem busCycle_read_wiringBlind (rs : Bool) : WiringBlind (fun _ => True) (busCycle rs true .inp) := by
  refine busCycle_wiringBlind (u := id) (fun _ => rfl) ?_
  cases rs with
  | true =>
    exact statusSample_wiringBlind.comp (u := fun s => assertE (setSelect true true (setDir .inp s))) (fun _ _ _ => rfl)
      fun _ _ => ⟨rfl, rfl, rfl⟩
  | false =>
    exact cycleDrd_wiringBlind.comp (u := fun s => assertE (setSelect false true (setDir .inp s))) (fun _ _ _ => rfl)
      fun _ _ => ⟨rfl, rfl, rfl⟩

/-! ### An instruction and a step -/

/-- A block at rest drives the lines (40_bus_transport.md R125). -/
def atRest (s : State) : Prop := s.seqst = .idle ∧ s.pins.dir = .out

theorem exec_busCycle_wiringBlind {i : Instr} (hi : i.isBusCycle = true) : WiringBlind atRest (exec i) := by
  cases i with
  | irw b => exact fun r o s hs => busCycle_drive_wiringBlind true b r o s hs.2
  | dwr b => exact fun r o s hs => busCycle_drive_wiringBlind false b r o s hs.2
  | str => exact fun r o s _ => busCycle_read_wiringBlind true r o s trivial
  | drd => exact fun r o s _ => busCycle_read_wiringBlind false r o s trivial
  | _ => cases hi

theorem exec_wiringBlind (i : Instr) : WiringBlind atRest (exec i) := by
  cases presented i with
  | transaction x ho h =>
    intro r o s hs
    rw [h s hs.1, h (withWiring r o s) hs.1]
    exact startList_wiringBlind _ r o { s with rawTx := some x } trivial
  | operation q ho he hq hn h =>
    intro r o s hs
    rw [h s hs.1, h (withWiring r o s) hs.1, operationTxs_withWiring]
    exact startList_wiringBlind _ r o { s with latch := q, rawTx := none } trivial
  | refused e hw h =>
    intro r o s hs
    rw [h s hs.1, h (withWiring r o s) hs.1]
  | cycle hc h => exact exec_busCycle_wiringBlind hc

theorem hostAct_wiringBlind : WiringBlind atRest hostAct := by
  intro r o s hs
  unfold hostAct
  rw [withWiring_program]
  cases s.program with
  | nil => rfl
  | cons p rest =>
    dsimp only
    cases decode p with
    | error e => rfl
    | ok i => exact exec_wiringBlind i r o { s with program := rest } hs

theorem settled_withWiring (r : Bool) (o : Byte) (s : State) : settled (withWiring r o s) = withWiring r o (settled s) := by
  unfold settled
  rw [withWiring_turns, withWiring_responsive]
  split <;> rfl

/-- A turn of CTL is its completion (40_bus_transport.md R131). -/
theorem act_of_ctl {s : State} {l : List Turn} (h : s.turns = .ctl :: l) : act s = .next (ctlCompletion s) := by
  rw [act, h]

/-- The invariant keeps the lines of an idle block at rest. -/
theorem atRest_of_sequencerInv {s : State} (h : sequencerInv s) (hi : s.seqst = .idle) : atRest s := by
  rw [sequencerInv, hi] at h
  obtain ⟨-, hpins, -⟩ := h
  exact ⟨hi, by rw [hpins]; rfl⟩

theorem act_wiringBlind : WiringBlind sequencerInv act := by
  intro r o s hinv
  by_cases hctl : ∃ l, s.turns = .ctl :: l
  · obtain ⟨l, hl⟩ := hctl
    rw [act_of_ctl hl, act_of_ctl (s := withWiring r o s) hl]
    rfl
  have hseq : ∀ l, s.turns ≠ .ctl :: l := fun l hl => hctl ⟨l, hl⟩
  cases hs : s.seqst with
  | running i =>
    rw [act_of_running hseq hs, act_of_running (s := withWiring r o s) hseq hs]
    exact resume_wiringBlind i r o s trivial
  | idle =>
    have hrest : atRest (settled s) := by
      obtain ⟨b, hb⟩ := settled_eq s
      rw [hb]
      exact atRest_of_sequencerInv hinv hs
    rw [act_of_idle hs hseq, act_of_idle (s := withWiring r o s) hs hseq, settled_withWiring]
    exact hostAct_wiringBlind r o (settled s) hrest

/-- Settles O57, by the agent whose turn it is: each drives and samples logical bytes through the wiring, which undoes itself
(`wire_wire`), and an idle block's lines are its own. -/
theorem wiringIsInvisible : Obligations.WiringIsInvisible := by
  rintro r o s ⟨hp, -, -, hseq⟩
  rw [step_of_paramsOk hp, step_of_paramsOk (s := withWiring r o s) hp]
  exact act_wiringBlind.andThen (wiringBlind_next (u := endTurn) fun _ _ _ => rfl) r o s hseq

end Sys2Proof.Machine
end

section
/-! PROOFS of the family 30_encoding.md: fields an operation does not use (O38), the refused operation words (O40, O41), and the
decoded statement an idle block runs (O43, O44), with the lemmas they share: what SEQ does with a list does not depend on the
latches. -/

namespace Sys2Proof.Machine

/-! ### What CTL and SEQ do with a list does not depend on the latches -/

@[simp] theorem withLatch_params (q : Latches) (s : State) : (withLatch q s).params = s.params := rfl
@[simp] theorem withLatch_ctl (q : Latches) (s : State) : (withLatch q s).ctl = s.ctl := rfl

theorem memRead_withLatch (a : Addr) (q : Latches) (s : State) :
    memRead (withLatch q s) a = ((memRead s a).1, withLatch q (memRead s a).2) := by
  unfold memRead
  rw [withLatch_ctl, withLatch_params]
  cases s.ctl.mem.get (memMap s.params a) <;> rfl

theorem ctlBitOp_withLatch (f : Byte → Byte) (q : Latches) (s : State) :
    ctlBitOp f (withLatch q s) = withLatch q (ctlBitOp f s) := by
  unfold ctlBitOp
  rw [withLatch_ctl, withLatch_params, memRead_withLatch]
  cases s.params.bitopAdvance <;> rfl

theorem geometryStore_withLatch (f : Ctl → Ctl) (q : Latches) (s : State) :
    geometryStore (withLatch q s) f = withLatch q (geometryStore s f) := by
  unfold geometryStore
  rw [withLatch_ctl]
  cases s.ctl.modeSeen <;> rfl

/-- CTL does not see SEQ's latches (10_state.md R33). -/
theorem ctlExec_withLatch (k : Command) (d : Byte) (q : Latches) (s : State) :
    ctlExec k d (withLatch q s) = withLatch q (ctlExec k d s) := by
  cases k with
  | pitch => exact geometryStore_withLatch (fun c => { c with pitch := d }) q s
  | nchr => exact geometryStore_withLatch (fun c => { c with nchr := d }) q s
  | tdiv => exact geometryStore_withLatch (fun c => { c with tdiv := d }) q s
  | clearBit => exact ctlBitOp_withLatch (withBitClear · (bitNumber d)) q s
  | setBit => exact ctlBitOp_withLatch (withBitSet · (bitNumber d)) q s
  | _ => rfl

theorem afterDwr_withLatch (k : Command) (d : Byte) (q : Latches) (s : State) :
    afterDwr k d (withLatch q s) = withLatch q (afterDwr k d s) := by
  unfold afterDwr
  rw [ctlExec_withLatch]
  rfl

theorem afterReceive_withLatch (q : Latches) (s : State) : afterReceive (withLatch q s) = withLatch q (afterReceive s) := by
  unfold afterReceive
  rw [withLatch_ctl, memRead_withLatch]
  rfl

/-- From a state that meets `pre`, what the computation answers does not depend on the latches, and it leaves them alone. -/
def LatchBlind (pre : State → Prop) (f : State → Answer) : Prop :=
  ∀ q s, pre s → f (withLatch q s) = mapNext (withLatch q) (f s)

theorem LatchBlind.andThen {pre : State → Prop} {f g : State → Answer} (hf : LatchBlind pre f)
    (hg : LatchBlind (fun _ => True) g) : LatchBlind pre fun s => andThen (f s) g := by
  intro q s hs
  dsimp only
  rw [hf q s hs]
  cases f s with
  | next u => exact hg q u trivial
  | fault r => rfl
  | refused r => rfl

/-- The two phases of a `send` on a ready CTL carry their own byte. -/
theorem sendPhases_latchBlind (c : BitVec 4) (d : Byte) : LatchBlind busReleased (sendPhases c d) := by
  rintro q s ⟨hb, hd⟩
  rw [sendPhases_ready hb hd, sendPhases_ready (s := withLatch q s) hb hd]
  cases commandOf c with
  | none => rfl
  | some k =>
    dsimp only
    split
    · rfl
    · exact congrArg Host.Outcome.next (afterDwr_withLatch k d q (afterIrw c s))

theorem receivePhases_latchBlind : LatchBlind busReleased receivePhases := by
  rintro q s ⟨hb, hd⟩
  rw [receivePhases_ready hb hd, receivePhases_ready (s := withLatch q s) hb hd, afterReceive_withLatch]
  rfl

theorem transfer_latchBlind (x : Tx) : LatchBlind busReleased (transfer x) := by
  cases x with
  | send c d => exact sendPhases_latchBlind c d
  | sendLb k => exact fun q s => sendPhases_latchBlind (codeOf .write) (s.lb.getD k 0) q s
  | recv => exact receivePhases_latchBlind
  | recvLb k => exact receivePhases_latchBlind.andThen fun _ _ _ => rfl
  | recvRes => exact receivePhases_latchBlind.andThen fun _ _ _ => rfl

theorem poll_withLatch (q : Latches) (s : State) : poll (withLatch q s) = withLatch q (poll s) := by
  rw [poll_eq, poll_eq]; rfl

/-- The transactions of a list carry their operands: running it to its end reads no latch. -/
theorem runTxs_latchBlind (ts : List Tx) : ∀ i, LatchBlind (fun _ => True) (runTxs i ts) := by
  induction ts with
  | nil => exact fun _ _ _ _ => rfl
  | cons x ts ih =>
    intro i
    have hrest : LatchBlind (fun _ => True) fun u => runTxs (i + 1) ts { u with seqst := .running (i + 1) } :=
      fun q u => ih (i + 1) q { u with seqst := .running (i + 1) }
    have hready : LatchBlind (fun s => s.ctl.bf = false) (runTxs i (x :: ts)) := by
      intro q s hb
      rw [runTxs_ready hb, runTxs_ready (s := withLatch q s) hb, poll_withLatch]
      exact (transfer_latchBlind x).andThen hrest q (stopPolling (poll s)) (busReleased_after_poll hb)
    intro q s _
    cases hb : s.ctl.bf with
    | false => exact hready q s hb
    | true =>
      cases hr : s.responsive with
      | true =>
        rw [runTxs_completes hb hr, runTxs_completes (s := withLatch q s) hb hr, poll_withLatch]
        exact hready q (ctlCompletion (poll s)) rfl
      | false =>
        rw [runTxs_held hb hr, runTxs_held (s := withLatch q s) hb hr, poll_withLatch]
        rfl

theorem startList_latchBlind (ts : List Tx) : LatchBlind (fun _ => True) (startList ts) := by
  intro q s _
  obtain ⟨rfl, h⟩ | ⟨hts, ht, h⟩ | ⟨-, ht, h⟩ := startList_cases ts s
  · rfl
  · rw [h, startList_accept (s := withLatch q s) ht hts]
    rfl
  · rw [h, startList_run (s := withLatch q s) ht]
    exact runTxs_latchBlind ts 0 q { s with seqst := .running 0 } trivial

/-! ### Fields an operation does not use -/

/-- What taking up a list answers agrees, but for the latches, whatever the latches held. -/
theorem startList_latch_congr (ts : List Tx) (l q q' : Latches) (s : State) :
    mapNext (withLatch l) (startList ts (withLatch q s)) = mapNext (withLatch l) (startList ts (withLatch q' s)) := by
  rw [startList_latchBlind ts q s trivial, startList_latchBlind ts q' s trivial, mapNext_mapNext, mapNext_mapNext]
  rfl

/-- Two requests with one transaction list have answers that agree but for the latches (30_encoding.md R102). -/
theorem acceptOperation_latch_congr (o o' : BitVec 4) (x y x' y' : BitVec 16) (d d' : Byte) (l : Latches) (ts : List Tx)
    (s : State) :
    mapNext (withLatch l) (acceptOperation o x y d ts s) = mapNext (withLatch l) (acceptOperation o' x' y' d' ts s) := by
  unfold acceptOperation
  split
  · exact startList_latch_congr ts l ⟨o, x, y, d⟩ ⟨o', x', y', d'⟩ { s with rawTx := none }
  · rfl

/-- Settles O38: none of the six transaction lists mentions a field its operation does not use, and taking up a list and running
it read no latch. -/
theorem unusedFieldsChangeNothing : Obligations.UnusedFieldsChangeNothing := by
  intro x y x' y' d d' l s
  refine ⟨?init, ?clear, ?readByte, ?move, ?drawByte, ?scrollUp⟩
  case init => exact acceptOperation_latch_congr 0 0 x y x' y' d d' l (initTxs s.params) s
  case clear => exact acceptOperation_latch_congr 5 5 x y x' y' d d' l (clearTxs s.params) s
  case readByte => exact acceptOperation_latch_congr 6 6 x y x' y' d d' l readByteTxs s
  case move => exact acceptOperation_latch_congr 1 1 x y x y d d' l (moveTxs s.params x.toNat y.toNat) s
  case drawByte => exact acceptOperation_latch_congr 2 2 x y x' y' d d l (drawByteTxs d) s
  case scrollUp => exact acceptOperation_latch_congr 7 7 x y x' y d d' l (scrollUpTxs s.params y.toNat) s

/-! ### Refused operation words -/

theorem refuseReserved_of_idle {s : State} (hi : s.seqst = .idle) : refuseReserved s = .refused .reservedOperation :=
  if_pos hi

/-- Settles O40, by the constructors: the eight reserved codes are all one refusal. -/
theorem reservedOperationsRefused : Obligations.ReservedOperationsRefused := by
  intro i s hi hn
  cases i with
  | reservedOp8 | reservedOp9 | reservedOpA | reservedOpB | reservedOpC | reservedOpD | reservedOpE | reservedOpF =>
    exact refuseReserved_of_idle hi
  | _ => cases hn

/-- Settles O41: the check of the pixel state comes before the request is accepted. -/
theorem undefinedPixelStateRefused : Obligations.UndefinedPixelStateRefused :=
  fun _ _ _ _ hi h0 h1 => exec_plotPixel_undefined hi h0 h1

/-! ### The statement an idle block runs -/

@[simp] theorem settled_program (s : State) : (settled s).program = s.program := by
  obtain ⟨b, hb⟩ := settled_eq s
  rw [hb]

/-- A statement that decodes is run, and taken off the host's list (log 11). -/
theorem hostAct_of_decoded {s : State} {p : Packet} {rest : List Packet} {i : Instr} (hq : s.program = p :: rest)
    (hd : decode p = .ok i) : hostAct s = exec i { s with program := rest } := by
  simp only [hostAct, hq, hd]

/-- Settles O43: the parameters are legal, the turn is the host's, and its statement decodes. -/
theorem stepRunsDecodedStatement : Obligations.StepRunsDecodedStatement := by
  intro s p rest i hp hi ht hq hd
  rw [step_of_paramsOk hp, act_of_idle hi ht, hostAct_of_decoded ((settled_program s).trans hq) hd]

theorem withFetchWord_of_idle {s : State} (hi : s.seqst = .idle) (nbits w : Nat) :
    s.withFetchWord nbits w =
      { s with program := packetOf nbits w :: s.program, turns := s.turns.dropWhile (· == Turn.ctl) } := by
  simp only [State.withFetchWord, hi]

/-- The turns left to come begin with no turn of CTL (log 11). -/
theorem dropWhile_ctl_ne_cons (ts l : List Turn) : ts.dropWhile (· == Turn.ctl) ≠ .ctl :: l := by
  intro h
  have hhead := ts.head?_dropWhile_not (· == Turn.ctl)
  rw [h] at hhead
  cases hhead

/-- Settling does not look at what the host has to present (log 10). -/
theorem settled_withProgram (ps : List Packet) (s : State) :
    settled { s with program := ps } = { settled s with program := ps } := by
  unfold settled
  dsimp only
  split <;> rfl

theorem decode_of_decodeTableWord {nbits w : Nat} {i : Instr} (h : decodeTableWord nbits w = some i) :
    decode (packetOf nbits w) = .ok i := by
  unfold decodeTableWord at h
  cases hd : decode (packetOf nbits w) with
  | error e => rw [hd] at h; cases h
  | ok j => rw [hd] at h; cases h; rfl

/-- Settles O44 from O43: the word placed is the host's next statement, and the next turn is not CTL's. -/
theorem fetchedWordRuns : Obligations.FetchedWordRuns := by
  intro nbits w i s hp hi hw
  rw [withFetchWord_of_idle hi]
  have hstep := stepRunsDecodedStatement
    { s with program := packetOf nbits w :: s.program, turns := s.turns.dropWhile (· == Turn.ctl) }
    (packetOf nbits w) s.program i hp hi (dropWhile_ctl_ne_cons s.turns) rfl (decode_of_decodeTableWord hw)
  rw [hstep, ← settled_withProgram]
  rfl

end Sys2Proof.Machine
end

section
/-! PROOFS of the family 40_bus_transport.md: the invariant every step keeps (O49), the lines after a transaction (O13), a request
that is held (O16), the bus cycles (O17 to O22), the wiring (O23), CTL's completion (O46), and the completion of a running list
under every interleaving (O53). -/

namespace Sys2Proof.Machine

/-! ### Every step keeps the invariant -/

/-- A running SEQ is at a transaction of its list (10_state.md R35). -/
theorem StateInv.index_lt {s : State} {i : Nat} (h : StateInv s) (hs : s.seqst = .running i) : i < (currentTxs s).length := by
  obtain ⟨-, -, -, hseq⟩ := h
  rw [sequencerInv, hs] at hseq
  obtain ⟨hi, -⟩ := hseq
  exact hi

/-- A run of SEQ that leaves it at rest, or at a transaction of its list, keeps the invariant. -/
theorem StateInv.of_keepsRun {s t : State} (h : StateInv s) (hk : keepsRun s t) (ht : sequencerInv t) : StateInv t := by
  obtain ⟨hp, hm, hl, -⟩ := h
  obtain ⟨kp, -, -, -, -, kl, km⟩ := hk
  exact ⟨kp ▸ hp, km hm, by rw [kl, kp, hl], ht⟩

/-- The invariant of SEQ at rest. -/
theorem sequencerInv_of_idle {s : State} (hi : s.seqst = .idle) (hr : s.rawTx = none) (hp : ∃ o, s.pins = Pins.idle o) :
    sequencerInv s := by
  obtain ⟨o, ho⟩ := hp
  rw [sequencerInv, hi]
  exact ⟨hi, by rw [ho]; rfl, hr⟩

/-- The invariant of a running SEQ: before the first poll of a transaction's wait, or in the polling loop. -/
theorem sequencerInv_of_running {s : State} {i : Nat} (hi : s.seqst = .running i) (hl : i < (currentTxs s).length)
    (hp : ∃ o, s.pins = Pins.idle o ∨ s.pins = Pins.polling o) : sequencerInv s := by
  rw [sequencerInv, hi]
  obtain ⟨o, ho | ho⟩ := hp
  · exact ⟨hl, .inl (by rw [ho]; rfl)⟩
  · exact ⟨hl, .inr (by rw [ho]; rfl)⟩

/-- The list in execution is that of the latches, the parameters and the transaction statement. -/
theorem currentTxs_of_keepsRun {s t : State} (h : keepsRun s t) (hr : t.rawTx = s.rawTx) : currentTxs t = currentTxs s := by
  obtain ⟨hp, hl, -⟩ := h
  rw [currentTxs, currentTxs, hp, hl, hr]

/-- SEQ that runs the rest of its list ends at rest or is held at one of the list's transactions. -/
theorem runTxs_sequencerInv {i : Nat} {s t : State} (hi : i < (currentTxs s).length)
    (h : runTxs i ((currentTxs s).drop i) s = .next t) : keepsRun s t ∧ sequencerInv t := by
  obtain ⟨hk, ⟨hs, hr, ho⟩ | ⟨j, hj, hs, hr, ⟨o, ho⟩, -, -⟩⟩ := runTxs_cases h
  · obtain ho | ⟨he, -⟩ := ho
    · exact ⟨hk, sequencerInv_of_idle hs hr ho⟩
    · exact absurd he (List.drop_eq_nil_iff.not.2 (by omega))
  · rw [List.length_drop] at hj
    exact ⟨hk, sequencerInv_of_running hs (by rw [currentTxs_of_keepsRun hk hr]; omega) ⟨o, .inr ho⟩⟩

/-- SEQ's atomic step leaves it at rest, in the polling loop, or at the next transaction with the lines idle. -/
theorem seqStep_sequencerInv {i : Nat} {s t : State} (hi : i < (currentTxs s).length)
    (h : seqStep i ((currentTxs s).drop i) s = .next t) : keepsRun s t ∧ sequencerInv t := by
  obtain ⟨hk, ⟨hs, hr, ho⟩ | ⟨-, -, rfl⟩ | ⟨hj, hs, hr, o, ho⟩⟩ := seqStep_cases h
  · obtain ho | ⟨he, -⟩ := ho
    · exact ⟨hk, sequencerInv_of_idle hs hr ho⟩
    · exact absurd he (List.drop_eq_nil_iff.not.2 (by omega))
  · have hr : (poll s).rawTx = s.rawTx := by rw [poll_eq]
    have hpins : (poll s).pins = Pins.polling s.pins.dout := by rw [poll_eq]
    exact ⟨hk, sequencerInv_of_running rfl (by rwa [currentTxs_of_keepsRun hk hr]) ⟨_, .inr hpins⟩⟩
  · rw [List.length_drop] at hj
    exact ⟨hk, sequencerInv_of_running hs (by rw [currentTxs_of_keepsRun hk hr]; omega) ⟨o, .inl ho⟩⟩

theorem resume_sequencerInv {i : Nat} {s t : State} (hi : i < (currentTxs s).length) (h : resume i s = .next t) :
    keepsRun s t ∧ sequencerInv t := by
  unfold resume at h
  split at h
  · exact runTxs_sequencerInv hi h
  · exact seqStep_sequencerInv hi h

/-- SEQ that takes up its list with the lines idle ends at rest, or is at one of the list's transactions. -/
theorem startList_sequencerInv {s t : State} (hp : ∃ o, s.pins = Pins.idle o)
    (h : startList (currentTxs s) s = .next t) : keepsRun s t ∧ sequencerInv t := by
  obtain ⟨-, h'⟩ | ⟨hne, -, h'⟩ | ⟨hne, -, h'⟩ := startList_cases (currentTxs s) s <;> rw [h'] at h
  · obtain rfl := Host.Outcome.next.inj h
    exact ⟨⟨rfl, rfl, rfl, rfl, rfl, rfl, id⟩, sequencerInv_of_idle rfl rfl hp⟩
  · obtain rfl := Host.Outcome.next.inj h
    obtain ⟨o, ho⟩ := hp
    exact ⟨⟨rfl, rfl, rfl, rfl, rfl, rfl, id⟩, sequencerInv_of_running rfl (List.length_pos_iff.2 hne) ⟨o, .inl ho⟩⟩
  · exact (runTxs_sequencerInv (s := { s with seqst := .running 0 }) (List.length_pos_iff.2 hne) h :)

/-- An instruction leaves SEQ at rest, or at a transaction of the list it has taken up. -/
theorem exec_keepsInvariant {i : Instr} {s t : State} (hinv : StateInv s) (h : exec i s = .next t) : StateInv t := by
  obtain ⟨hi, hlist⟩ := exec_cases h
  have ⟨hp, hm, hl, hseq⟩ := hinv
  rw [sequencerInv, hi] at hseq
  obtain ⟨-, hpins, hraw⟩ := hseq
  obtain ⟨r, -, h⟩ | ⟨q, -, -, -, h⟩ | ⟨rs, rw, dir, b, u, -, hu, h⟩ := hlist
  · obtain ⟨hk, hs⟩ := startList_sequencerInv (s := { s with rawTx := some r }) ⟨_, hpins⟩ h
    exact hinv.of_keepsRun hk hs
  · obtain ⟨hk, hs⟩ := startList_sequencerInv (s := { s with latch := q, rawTx := none }) ⟨_, hpins⟩ h
    have hinv' : StateInv { s with latch := q, rawTx := none } := ⟨hp, hm, hl, sequencerInv_of_idle hi rfl ⟨_, hpins⟩⟩
    exact hinv'.of_keepsRun hk hs
  · obtain ⟨c, o, sm, n, m, rfl, hw, -⟩ := busCycle_cases h
    obtain rfl | rfl := hu <;>
      exact hinv.of_keepsRun ⟨rfl, rfl, rfl, rfl, rfl, rfl, hw⟩ (sequencerInv_of_idle hi hraw ⟨o, rfl⟩)

/-- The invariant says nothing of BF, nor of what the host has to present. -/
theorem StateInv.with_bf {s : State} (h : StateInv s) (b : Bool) (ps : List Packet) :
    StateInv { s with ctl := { s.ctl with bf := b }, program := ps } := h

/-- Settles O49, by the agent whose turn it is: SEQ leaves the lines idle or in its polling loop, CTL touches BF only. -/
theorem stepKeepsInvariant : Obligations.StepKeepsInvariant := by
  intro s t hinv h
  obtain ⟨-, u, hu, rfl⟩ := step_cases h
  obtain ⟨b, hb⟩ := settled_eq s
  suffices hu : StateInv u from hu
  obtain ⟨-, rfl⟩ | ⟨-, ⟨i, hs, h⟩ | ⟨-, -, rfl⟩ | ⟨p, rest, i, -, -, -, h⟩⟩ := act_cases hu
  · exact hinv.with_bf false s.program
  · obtain ⟨hk, hseq⟩ := resume_sequencerInv (hinv.index_lt hs) h
    exact hinv.of_keepsRun hk hseq
  · rw [hb]
    exact hinv.with_bf b s.program
  · rw [hb] at h
    exact exec_keepsInvariant (hinv.with_bf b rest) h

/-! ### The lines after a transaction, and a request that is held -/

/-- An answer leaves the lines idle, with the logical byte `d` through the wiring of `s` on the data lines. -/
def leavesLines (s : State) (d : Byte) (o : Answer) : Prop := ∃ t, o = .next t ∧ t.pins = Pins.idle (wire s.params d)

/-- A transaction statement that an idle SEQ carries out after its wait, CTL answering. -/
theorem issueTransaction_answers {s : State} (hi : s.seqst = .idle) (ha : ctlAnswers s) (r : RawTx) :
    ∃ w, w.ctl.bf = false ∧ w.pins.dir = .out ∧ w.params = s.params ∧
      issueTransaction r s = andThen (transfer r.tx w) fun u => .next (finish u) := by
  obtain ⟨ht, hb⟩ := ha
  obtain ⟨m, f, hrun⟩ := runTxs_answers_cons (x := r.tx) (s := { s with rawTx := some r, seqst := .running 0 }) hb
  refine ⟨{ s with
    ctl := { s.ctl with bf := false }, pins := ⟨true, true, false, .out, s.pins.dout⟩, smp := f, samples := m
    seqst := .running 0, rawTx := some r }, rfl, rfl, rfl, ?_⟩
  rw [issueTransaction_run hi ht, hrun]
  rfl

/-- SEQ drives the operand last (40_bus_transport.md R123). -/
theorem issueTransaction_send_lines {s : State} (hi : s.seqst = .idle) (ha : ctlAnswers s) {k : Command} (hk : k ≠ .read)
    (d : Byte) : leavesLines s d (issueTransaction (.send (codeOf k) d) s) := by
  obtain ⟨w, hb, hd, hp, h⟩ := issueTransaction_answers hi ha (.send (codeOf k) d)
  have hsend : transfer (.send (codeOf k) d) w = _ := sendPhases_named hb hd hk d
  refine ⟨_, h.trans (congrArg (andThen · fun u => .next (finish u)) hsend), ?_⟩
  rw [← hp]
  rfl

/-- SEQ drives READ's command byte last (40_bus_transport.md R124). -/
theorem issueTransaction_recv_lines {s : State} (hi : s.seqst = .idle) (ha : ctlAnswers s) :
    leavesLines s (commandByte (codeOf .read)) (issueTransaction .recv s) := by
  obtain ⟨w, hb, hd, hp, h⟩ := issueTransaction_answers hi ha .recv
  have hrecv : transfer .recv w = _ := receivePhases_ready hb hd
  refine ⟨_, h.trans (congrArg (andThen · fun u => .next (finish u)) hrecv), ?_⟩
  rw [← hp]
  rfl

/-- Settles O13: each of the eleven is a `send` of a named command, READ is the `receive`. -/
theorem linesHoldLastDrivenByte : Obligations.LinesHoldLastDrivenByte := by
  intro d s hi ha
  have hsend (k : Command) (hk : k ≠ .read) := issueTransaction_send_lines hi ha hk d
  refine ⟨?_, issueTransaction_recv_lines hi ha⟩
  simp only [List.forall_mem_cons]
  exact ⟨hsend .mode nofun, hsend .pitch nofun, hsend .nchr nofun, hsend .tdiv nofun, hsend .startLo nofun,
    hsend .startHi nofun, hsend .curLo nofun, hsend .curHi nofun, hsend .write nofun, hsend .clearBit nofun,
    hsend .setBit nofun, List.forall_mem_nil _⟩

/-- A list that SEQ takes up while CTL is busy for good: one poll, and SEQ is held before the first transaction. -/
theorem startList_held {ts : List Tx} {s : State} (hts : ts ≠ []) (ht : s.turns = []) (hb : s.ctl.bf = true)
    (hr : s.responsive = false) : startList ts s = .next { poll s with seqst := .running 0 } := by
  obtain ⟨x, ts, rfl⟩ := List.exists_cons_of_ne_nil hts
  rw [startList_run ht, runTxs_held (s := { s with seqst := .running 0 }) hb hr, poll_eq, poll_eq]

/-- The poll that finds CTL busy holds SEQ at its list and changes nothing else. -/
theorem held_of_poll {s : State} (hb : s.ctl.bf = true) (hts : currentTxs s ≠ []) :
    held 0 { poll s with seqst := .running 0 } ∧ (poll s).ctl = s.ctl ∧ keepsSeq s { poll s with seqst := .running 0 } ∧
      (poll s).turns = s.turns := by
  rw [poll_eq]
  exact ⟨⟨rfl, rfl, hb, List.length_pos_iff.2 hts⟩, rfl, ⟨rfl, rfl, rfl, rfl, rfl⟩, rfl⟩

/-- Settles O16, by the kinds of instruction: a transaction statement's list and a named operation's have a first transaction,
and its wait does not end. -/
theorem busyControllerHoldsRequest : Obligations.BusyControllerHoldsRequest := by
  intro i s hi ht hb hr hcyc hnamed hpixel hscroll
  cases presented i with
  | transaction r ho h =>
    have hne : [r.tx] ≠ [] := List.cons_ne_nil _ _
    exact ⟨_, (h s hi).trans (startList_held (s := { s with rawTx := some r }) hne ht hb hr), held_of_poll hb hne⟩
  | operation q ho he hq hn h =>
    have hne : operationTxs s.params q ≠ [] := operationTxs_ne_nil _ hq fun h7 => hscroll _ _ _ (hn h7)
    exact ⟨_, (h s hi).trans (startList_held (s := { s with latch := q, rawTx := none }) hne ht hb hr), held_of_poll hb hne⟩
  | refused r hw h => simp [hnamed, hpixel] at hw
  | cycle hc h => simp [hcyc] at hc

/-! ### The bus cycles -/

/-- The lines of a bus cycle while E is asserted (40_bus_transport.md R121), DOUT as given. -/
def withPulse (rs rw : Bool) (dir : Dir) (o : Byte) (s : State) : State := { s with pins := ⟨rs, rw, true, dir, o⟩ }

/-- The lines in the idle condition, DOUT as it is (log 15). -/
def releaseLines (s : State) : State := { s with pins := Pins.idle s.pins.dout }

/-- A bus cycle on its own, SEQ being idle: the cycle that RS and RW select, then the idle lines. -/
theorem busCycle_of_idle {s : State} (hi : s.seqst = .idle) (rs rw : Bool) (dir : Dir) :
    busCycle rs rw dir s = mapNext releaseLines (selectedCycle (withPulse rs rw dir s.pins.dout s)) := by
  rw [busCycle, if_pos hi, strobe_eq]
  show andThen (andThen (selectedCycle (withPulse rs rw dir s.pins.dout s)) _) _ = _
  cases selectedCycle (withPulse rs rw dir s.pins.dout s) <;> rfl

/-- What CTL answers to IRW's pulse is what the instruction answers, but for the idle lines. -/
theorem exec_irw_of_cycle {s : State} (hi : s.seqst = .idle) (b : Byte) {o : Answer}
    (h : cycleIrw (withPulse true false s.pins.dir (wire s.params b) s) = o) : exec (.irw b) s = mapNext releaseLines o :=
  h ▸ busCycle_of_idle (s := drive b s) hi true false s.pins.dir

theorem exec_str_of_idle {s : State} (hi : s.seqst = .idle) :
    exec .str s = .next (releaseLines (statusSample (withPulse true true .inp s.pins.dout s))) :=
  busCycle_of_idle hi true true .inp

/-- What CTL answers to DWR's pulse is what the instruction answers, but for the idle lines. -/
theorem exec_dwr_of_cycle {s : State} (hi : s.seqst = .idle) (b : Byte) {o : Answer}
    (h : cycleDwr (withPulse false false s.pins.dir (wire s.params b) s) = o) : exec (.dwr b) s = mapNext releaseLines o :=
  h ▸ busCycle_of_idle (s := drive b s) hi false false s.pins.dir

/-- What CTL answers to DRD's pulse is what the instruction answers, but for the idle lines. -/
theorem exec_drd_of_cycle {s : State} (hi : s.seqst = .idle) {o : Answer}
    (h : cycleDrd (withPulse false true .inp s.pins.dout s) = o) : exec .drd s = mapNext releaseLines o :=
  h ▸ busCycle_of_idle hi false true .inp

/-- A bus cycle on its own leaves SEQ, its latches and the lines as they are at rest. -/
theorem exec_busCycleDone {i : Instr} (hc : i.isBusCycle = true) {s t : State} (h : exec i s = .next t) :
    busCycleDone s t := by
  have hcycle : ∃ rs rw dir b u, (u = s ∨ u = drive b s) ∧ busCycle rs rw dir u = .next t := by
    cases i with
    | irw b => exact ⟨_, _, _, b, _, .inr rfl, h⟩
    | dwr b => exact ⟨_, _, _, b, _, .inr rfl, h⟩
    | str => exact ⟨_, _, _, 0, _, .inl rfl, h⟩
    | drd => exact ⟨_, _, _, 0, _, .inl rfl, h⟩
    | _ => cases hc
  obtain ⟨rs, rw, dir, b, u, hu, h⟩ := hcycle
  obtain ⟨c, o, sm, n, m, rfl, -, hi⟩ := busCycle_cases h
  obtain rfl | rfl := hu <;> exact ⟨hi, rfl, rfl, rfl, rfl, rfl, rfl, rfl, rfl, rfl⟩

/-! ### What CTL answers to a cycle -/

theorem cycleIrw_busy {s : State} (hb : s.ctl.bf = true) : cycleIrw s = .fault .transferWhileBusy := if_pos hb

theorem cycleDwr_busy {s : State} (hb : s.ctl.bf = true) : cycleDwr s = .fault .transferWhileBusy := if_pos hb

theorem cycleDrd_busy {s : State} (hb : s.ctl.bf = true) : cycleDrd s = .fault .transferWhileBusy := if_pos hb

/-- IRW at a ready CTL, SEQ driving: bits 3:0 of the logical byte become IR (40_bus_transport.md R127). -/
theorem cycleIrw_ready {s : State} {b : Byte} (hb : s.ctl.bf = false) (hd : s.pins.dir = .out)
    (ho : s.pins.dout = wire s.params b) :
    cycleIrw s = .next { s with ctl := { s.ctl with ir := commandBits b, phaseDone := false } } := by
  simp [cycleIrw, hb, dataLines, hd, ho]

theorem cycleDwr_reserved {s : State} (hb : s.ctl.bf = false) (hk : commandOf s.ctl.ir = none) :
    cycleDwr s = .fault .reservedCommand := by
  simp [cycleDwr, hb, hk]

theorem cycleDwr_read {s : State} (hb : s.ctl.bf = false) (hk : commandOf s.ctl.ir = some .read) :
    cycleDwr s = .fault .writePhaseAfterRead := by
  simp [cycleDwr, hb, hk]

theorem cycleDwr_burst {s : State} {k : Command} (hb : s.ctl.bf = false) (hk : commandOf s.ctl.ir = some k)
    (hr : k ≠ .read) (hp : s.ctl.phaseDone = true) : cycleDwr s = .fault .burstNotSupported := by
  simp [cycleDwr, hb, hk, hr, hp]

/-- DWR at a ready CTL, SEQ driving: the command in IR executes with the logical byte (40_bus_transport.md R129). -/
theorem cycleDwr_named {s : State} {k : Command} {b : Byte} (hb : s.ctl.bf = false) (hd : s.pins.dir = .out)
    (ho : s.pins.dout = wire s.params b) (hk : commandOf s.ctl.ir = some k) (hr : k ≠ .read) (hp : s.ctl.phaseDone = false) :
    cycleDwr s = .next { ctlExec k b s with ctl := endDataPhase (ctlExec k b s).ctl } := by
  simp [cycleDwr, hb, dataLines, hd, ho, hk, hr, hp]

theorem cycleDrd_not_read {s : State} (hb : s.ctl.bf = false) (hk : commandOf s.ctl.ir ≠ some .read) :
    cycleDrd s = .fault .readPhaseWithoutReadCommand := by
  simp [cycleDrd, hb, hk]

theorem cycleDrd_burst {s : State} (hb : s.ctl.bf = false) (hk : commandOf s.ctl.ir = some .read)
    (hp : s.ctl.phaseDone = true) : cycleDrd s = .fault .burstNotSupported := by
  simp [cycleDrd, hb, hk, hp]

/-- DRD at a ready CTL: the byte at the cursor is sampled, then the cursor advances (40_bus_transport.md R130). -/
theorem cycleDrd_ready {s : State} (h : reading s) (hb : s.ctl.bf = false) (hk : commandOf s.ctl.ir = some .read)
    (hp : s.ctl.phaseDone = false) :
    cycleDrd s = .next { s with
      ctl := { s.ctl with cur := advance s.ctl.cur, bf := true, phaseDone := true }
      smp := (memRead s s.ctl.cur).1, draws := (memRead s s.ctl.cur).2.draws } := by
  simp [cycleDrd_reading h, hb, hk, hp]

/-- READ's code is 0xD (30_encoding.md R92). -/
theorem commandOf_eq_read_iff : ∀ c : BitVec 4, commandOf c = some .read ↔ c = 0xD := by decide

/-- What CTL latches of a byte is its bits 3:0 (40_bus_transport.md R127). -/
theorem commandBits_eq (b : Byte) : commandBits b = b.extractLsb' 0 4 := BitVec.setWidth_eq_extractLsb' (by decide)

/-! ### The bus cycles settled -/

/-- Settles O17: IRW at a ready CTL. -/
theorem instructionWriteLatchesCommand : Obligations.InstructionWriteLatchesCommand := by
  intro db s hi hb hd
  have h := exec_irw_of_cycle hi db (cycleIrw_ready (b := db) hb hd rfl)
  rw [commandBits_eq] at h
  exact ⟨_, h, rfl, exec_busCycleDone rfl h, rfl⟩

/-- Settles O18: the status byte, whose bit 7 is BF, passes the wiring twice. -/
theorem statusReadShowsBusyFlag : Obligations.StatusReadShowsBusyFlag := by
  intro s hi
  have h := exec_str_of_idle hi
  rw [statusSample_polling rfl rfl rfl] at h
  exact ⟨_, h, rfl, statusByte_bit7 _ _, exec_busCycleDone rfl h⟩

/-- Settles O19, by what IR holds: a named command other than READ executes, a reserved code or READ faults. -/
theorem dataWriteExecutesCommandInIr : Obligations.DataWriteExecutesCommandInIr := by
  intro d s hi hb hd
  refine ⟨fun k hk hr hp => ?named, fun hk => ?reserved, fun hk => ?read⟩
  case named =>
    have h := exec_dwr_of_cycle hi d (cycleDwr_named (b := d) hb hd rfl hk hr hp)
    have hctl : (ctlExec k d (withPulse false false s.pins.dir (wire s.params d) s)).ctl = (ctlExec k d s).ctl :=
      ctlExec_ctl_congr k d rfl rfl rfl
    obtain ⟨c, n, he, -⟩ := ctlExec_frame k d (withPulse false false s.pins.dir (wire s.params d) s)
    refine ⟨_, h, ?_, exec_busCycleDone rfl h, ?_⟩
    · rw [← hctl]; rfl
    · rw [he]; rfl
  case reserved => exact exec_dwr_of_cycle hi d (cycleDwr_reserved hb hk)
  case read => exact exec_dwr_of_cycle hi d (cycleDwr_read hb ((commandOf_eq_read_iff _).2 hk))

/-- Settles O20, by whether IR holds READ. -/
theorem dataReadReturnsByteAndAdvances : Obligations.DataReadReturnsByteAndAdvances := by
  intro s hi hb
  refine ⟨fun hk hp => ?read, fun hk => ?other⟩
  case read =>
    have h := exec_drd_of_cycle hi (cycleDrd_ready ⟨rfl, rfl, rfl⟩ hb ((commandOf_eq_read_iff _).2 hk) hp)
    refine ⟨_, h, rfl, fun v hv => ?_, exec_busCycleDone rfl h⟩
    simp [releaseLines, withPulse, memRead, hv]
  case other => exact exec_drd_of_cycle hi (cycleDrd_not_read hb ((commandOf_eq_read_iff _).not.2 hk))

/-- Settles O21: CTL checks BF before anything else. -/
theorem transferWhileBusyFaults : Obligations.TransferWhileBusyFaults := fun d _ hi hb =>
  ⟨exec_irw_of_cycle hi d (cycleIrw_busy hb), exec_dwr_of_cycle hi d (cycleDwr_busy hb),
    exec_drd_of_cycle hi (cycleDrd_busy hb)⟩

/-- Settles O22: the check for a burst is the last of a data phase. -/
theorem burstFaults : Obligations.BurstFaults := fun d _ hi hb hp =>
  ⟨fun _ hk hr => exec_dwr_of_cycle hi d (cycleDwr_burst hb hk hr hp),
    fun hk => exec_drd_of_cycle hi (cycleDrd_burst hb ((commandOf_eq_read_iff _).2 hk) hp)⟩

/-! ### The wiring, and CTL's completion -/

/-- Bit i of `rev8 b` is bit 7-i of b (40_bus_transport.md R120). -/
theorem getLsbD_rev8 (b : Byte) {i : Nat} (hi : i < 8) : (rev8 b).getLsbD i = b.getLsbD (7 - i) := by
  simp only [rev8, BitVec.getLsbD_append]
  interval_cases i <;> simp

/-- Settles O23. -/
theorem wiringIsItsOwnInverse : Obligations.WiringIsItsOwnInverse :=
  fun p b => ⟨wire_wire p b, fun _ hi => getLsbD_rev8 b hi, rfl⟩

/-- A host with nothing to present leaves the block as it is. -/
theorem hostAct_of_no_statement {s : State} (h : s.program = []) : hostAct s = .next s := by
  rw [hostAct, h]

/-- Settles O46: the turn is CTL's; or the block is idle, no turn is listed, and CTL settles. -/
theorem completionClearsOnlyBusyFlag : Obligations.CompletionClearsOnlyBusyFlag := by
  refine fun s hp => ⟨fun l hl => ?_, fun hi hq ht hr => ?_⟩
  · have hstep := step_ctlTurn hp l
    rwa [withTurns_self hl] at hstep
  · have hsettled : settled s = ctlCompletion s := if_pos ⟨ht, hr⟩
    rw [step_of_no_turns hp ht, act_of_idle hi (by simp [ht]), hsettled]
    exact hostAct_of_no_statement (s := ctlCompletion s) hq

/-! ### A running list completes, however its steps are cut and interleaved -/

/-- What a list leaves, but for the turns and for how often SEQ polled: `withoutPolls`, with the sample where it is the byte that
the statement `r` in execution returns (30_encoding.md R104). -/
def listEffect (r : Option RawTx) (s : State) : State :=
  { s with turns := [], samples := 0, smp := if r = some .recv then s.smp else 0 }

/-- What a transaction finds after its wait, whatever the wait was (40_bus_transport.md R122): CTL ready, and the lines, the
sample, its count and the turns forgotten. -/
def waitEnded (s : State) : State :=
  { s with ctl := { s.ctl with bf := false }, pins := Pins.idle 0, turns := [], samples := 0, smp := 0 }

/-- The state with other lines, sample, count of samples and turns. -/
def withPolls (p : Pins) (v : Byte) (m : Nat) (l : List Turn) (s : State) : State :=
  { s with pins := p, smp := v, samples := m, turns := l }

theorem waitEnded_of_ready {s : State} (hb : s.ctl.bf = false) : waitEnded s = withPolls (Pins.idle 0) 0 0 [] s := by
  have hc : { s.ctl with bf := false } = s.ctl := by rw [← hb]
  rw [waitEnded, hc]
  rfl

/-- The answers agree in what a list leaves. -/
def sameEffect (r : Option RawTx) (o o' : Answer) : Prop := mapNext (listEffect r) o = mapNext (listEffect r) o'

theorem sameEffect.symm {r : Option RawTx} {o o' : Answer} (h : sameEffect r o o') : sameEffect r o' o := Eq.symm h

/-- Answers that agree in the sample too agree without it. -/
theorem sameEffect.weaken {o o' : Answer} (h : sameEffect (some .recv) o o') (r : Option RawTx) : sameEffect r o o' := by
  have h' := congrArg (mapNext (listEffect r)) h
  rwa [mapNext_mapNext, mapNext_mapNext] at h'

/-- Answers that agree in what a list leaves agree so after a further step that respects it. -/
theorem sameEffect.andThen {r : Option RawTx} {o o' : Answer} {g : State → Answer} (h : sameEffect r o o')
    (hg : ∀ u v, o = .next u → listEffect r u = listEffect r v → sameEffect r (g u) (g v)) :
    sameEffect r (andThen o g) (andThen o' g) := by
  cases o with
  | next u =>
    cases o' with
    | next v => exact hg u v rfl (Host.Outcome.next.inj h)
    | fault e => cases h
    | refused e => cases h
  | fault e => cases o' <;> cases h; rfl
  | refused e => cases o' <;> cases h; rfl

@[simp] theorem withPolls_ctl (p : Pins) (v : Byte) (m : Nat) (l : List Turn) (s : State) :
    (withPolls p v m l s).ctl = s.ctl := rfl
@[simp] theorem withPolls_params (p : Pins) (v : Byte) (m : Nat) (l : List Turn) (s : State) :
    (withPolls p v m l s).params = s.params := rfl

theorem memRead_withPolls (a : Addr) (p : Pins) (v : Byte) (m : Nat) (l : List Turn) (s : State) :
    memRead (withPolls p v m l s) a = ((memRead s a).1, withPolls p v m l (memRead s a).2) := by
  unfold memRead
  rw [withPolls_ctl, withPolls_params]
  cases s.ctl.mem.get (memMap s.params a) <;> rfl

theorem ctlBitOp_withPolls (f : Byte → Byte) (p : Pins) (v : Byte) (m : Nat) (l : List Turn) (s : State) :
    ctlBitOp f (withPolls p v m l s) = withPolls p v m l (ctlBitOp f s) := by
  unfold ctlBitOp
  rw [withPolls_ctl, withPolls_params, memRead_withPolls]
  cases s.params.bitopAdvance <;> rfl

theorem geometryStore_withPolls (f : Ctl → Ctl) (p : Pins) (v : Byte) (m : Nat) (l : List Turn) (s : State) :
    geometryStore (withPolls p v m l s) f = withPolls p v m l (geometryStore s f) := by
  unfold geometryStore
  rw [withPolls_ctl]
  cases s.ctl.modeSeen <;> rfl

/-- An effect of CTL depends on nothing that polls change. -/
theorem ctlExec_withPolls (k : Command) (d : Byte) (p : Pins) (v : Byte) (m : Nat) (l : List Turn) (s : State) :
    ctlExec k d (withPolls p v m l s) = withPolls p v m l (ctlExec k d s) := by
  cases k with
  | pitch => exact geometryStore_withPolls (fun c => { c with pitch := d }) p v m l s
  | nchr => exact geometryStore_withPolls (fun c => { c with nchr := d }) p v m l s
  | tdiv => exact geometryStore_withPolls (fun c => { c with tdiv := d }) p v m l s
  | clearBit => exact ctlBitOp_withPolls (withBitClear · (bitNumber d)) p v m l s
  | setBit => exact ctlBitOp_withPolls (withBitSet · (bitNumber d)) p v m l s
  | _ => rfl

/-- A `receive` drives the lines and samples a byte of its own: of what polls change it leaves the count and the turns. -/
theorem afterReceive_withPolls (p : Pins) (v : Byte) (m : Nat) (l : List Turn) (s : State) :
    afterReceive (withPolls p v m l s) = withPolls (afterReceive s).pins (afterReceive s).smp m l (afterReceive s) := by
  unfold afterReceive
  rw [withPolls_ctl, memRead_withPolls]
  rfl

/-- A `send` leaves the same whatever its wait was. -/
theorem sendPhases_waitEnded {s : State} (h : busReleased s) {r : Option RawTx} (hr : r ≠ some .recv) (c : BitVec 4)
    (d : Byte) : sameEffect r (sendPhases c d s) (sendPhases c d (waitEnded s)) := by
  obtain ⟨hb, hd⟩ := h
  rw [sameEffect, sendPhases_ready hb hd, sendPhases_ready (s := waitEnded s) rfl rfl]
  cases commandOf c with
  | none => rfl
  | some k =>
    have hirw : afterIrw c (waitEnded s) = withPolls (afterIrw c s).pins 0 0 [] (afterIrw c s) := by
      rw [waitEnded_of_ready hb]; rfl
    have heffect : listEffect r (afterDwr k d (afterIrw c s)) = listEffect r (afterDwr k d (afterIrw c (waitEnded s))) := by
      unfold afterDwr listEffect
      rw [hirw, ctlExec_withPolls, if_neg hr, if_neg hr]
      rfl
    dsimp only
    split
    · rfl
    · exact congrArg Host.Outcome.next heffect

/-- A `receive` leaves and returns the same whatever its wait was. -/
theorem receivePhases_waitEnded {s : State} (h : busReleased s) :
    sameEffect (some .recv) (receivePhases s) (receivePhases (waitEnded s)) := by
  obtain ⟨hb, hd⟩ := h
  rw [sameEffect, receivePhases_ready hb hd, receivePhases_ready (s := waitEnded s) rfl rfl, waitEnded_of_ready hb,
    afterReceive_withPolls]
  rfl

/-- A transaction leaves the same whatever its wait was. -/
theorem transfer_waitEnded {s : State} (h : busReleased s) {r : Option RawTx} {x : Tx} (hr : r = some .recv → x = .recv) :
    sameEffect r (transfer x s) (transfer x (waitEnded s)) := by
  have hrecv := receivePhases_waitEnded h
  have hnot (hx : x ≠ .recv) : r ≠ some .recv := fun h => hx (hr h)
  cases x with
  | send c d => exact sendPhases_waitEnded h (hnot nofun) c d
  | sendLb j => exact sendPhases_waitEnded h (hnot nofun) (codeOf .write) (s.lb.getD j 0)
  | recv => exact hrecv.weaken r
  | recvLb j =>
    have hstore : sameEffect (some .recv) (transfer (.recvLb j) s) (transfer (.recvLb j) (waitEnded s)) :=
      hrecv.andThen fun u v _ huv => congrArg (fun w : State => (.next { w with lb := w.lb.set j w.smp } : Answer)) huv
    exact hstore.weaken r
  | recvRes =>
    have hstore : sameEffect (some .recv) (transfer .recvRes s) (transfer .recvRes (waitEnded s)) :=
      hrecv.andThen fun u v _ huv => congrArg (fun w : State => (.next { w with res := w.smp } : Answer)) huv
    exact hstore.weaken r

/-- A transaction leaves the same from any two states that differ in what a wait changes only. -/
theorem transfer_congr_waitEnded {s s' : State} (h : busReleased s) (h' : busReleased s') (hw : waitEnded s = waitEnded s')
    {r : Option RawTx} {x : Tx} (hr : r = some .recv → x = .recv) : sameEffect r (transfer x s) (transfer x s') := by
  have hs := transfer_waitEnded h hr
  rw [hw] at hs
  exact hs.trans (transfer_waitEnded h' hr).symm

/-- A responsive CTL, and two states that differ in nothing but what a wait makes of them: a list leaves the same from both, if
what follows its first transaction does. -/
theorem runTxs_cons_waitEnded {r : Option RawTx} {x : Tx} {ts : List Tx} {i : Nat} {s s' : State} (hs : s.responsive = true)
    (h : waitEnded s = waitEnded s') (hr : r = some .recv → x = .recv)
    (hrest : ∀ u v, u.responsive = true → listEffect r u = listEffect r v →
      sameEffect r (runTxs (i + 1) ts { u with seqst := .running (i + 1) })
        (runTxs (i + 1) ts { v with seqst := .running (i + 1) })) :
    sameEffect r (runTxs i (x :: ts) s) (runTxs i (x :: ts) s') := by
  have hs' : s'.responsive = true := (congrArg State.responsive h).symm.trans hs
  obtain ⟨m, f, hrun⟩ := runTxs_answers_cons (x := x) (.inr hs)
  obtain ⟨m', f', hrun'⟩ := runTxs_answers_cons (x := x) (.inr hs')
  rw [hrun, hrun']
  refine sameEffect.andThen ?_ fun u v hu huv => ?_
  · exact transfer_congr_waitEnded ⟨rfl, rfl⟩ ⟨rfl, rfl⟩ (by exact h) hr
  · obtain ⟨⟨-, -, -, hresp, -⟩, -⟩ := transfer_keeps rfl rfl hu
    exact hrest u v (hresp.trans hs) huv

/-- A responsive CTL: a list leaves the same from any two states that differ in nothing but what the wait for its first
transaction makes of them. -/
theorem runTxs_waitEnded {r : Option RawTx} (ts : List Tx) : ∀ {i : Nat} {x : Tx} {s s' : State}, s.responsive = true →
    waitEnded s = waitEnded s' → (r = some .recv → x :: ts = [.recv]) →
    sameEffect r (runTxs i (x :: ts) s) (runTxs i (x :: ts) s') := by
  induction ts with
  | nil =>
    intro i x s s' hs h hr
    exact runTxs_cons_waitEnded hs h (fun he => (List.cons.inj (hr he)).1) fun u v _ huv =>
      congrArg (fun w : State => (.next (finish w) : Answer)) huv
  | cons y ts ih =>
    intro i x s s' hs h hr
    have hnot : r ≠ some .recv := fun he => by cases hr he
    refine runTxs_cons_waitEnded hs h (fun he => absurd he hnot) fun u v hu huv => ?_
    have hw := congrArg (fun w : State => waitEnded { w with seqst := .running (i + 1) }) huv
    exact ih hu hw fun he => absurd he hnot

/-- With no turn listed, a step is all that is left of the list (log 9). -/
theorem AtList.step_whole {i : Nat} {ts : List Tx} {s : State} (h : AtList i ts s) : step s = runTxs i ts s := by
  rw [← h.left]
  exact (stepGoesOnWithRunningList s i h.legal h.running).1 h.turns

/-- The run from `s`, at the turns `l`, completes the list `ts` in time: within one step more than the turns. -/
def completesInTime (r : Option RawTx) (l : List Turn) (s : State) (o : Answer) : Prop :=
  ∃ k, k ≤ l.length + 1 ∧ sameEffect r (run k (withTurns l s)) o

/-- One step answers what is wanted. -/
theorem completesInTime.of_step {r : Option RawTx} {l : List Turn} {s : State} {o : Answer}
    (h : sameEffect r (step (withTurns l s)) o) : completesInTime r l s o := ⟨1, by omega, by rwa [run_one]⟩

/-- A step at the head turn, then a run that completes in time. -/
theorem completesInTime.cons {r : Option RawTx} {m : Turn} {l : List Turn} {s t : State} {o o' : Answer}
    (hm : step (withTurns (m :: l) s) = .next (withTurns l t)) (h : completesInTime r l t o') (ho : sameEffect r o' o) :
    completesInTime r (m :: l) s o := by
  obtain ⟨k, hk, h⟩ := h
  refine ⟨k + 1, by rw [List.length_cons]; omega, ?_⟩
  rw [run_succ, hm]
  exact h.trans ho

/-- SEQ's turn at a ready CTL: the transaction takes effect, and the rest of the list completes in time if it does from any
state. -/
theorem AtList.completes_ready {r : Option RawTx} {l : List Turn} {i : Nat} {x : Tx} {ts : List Tx} {s : State}
    (h : AtList i (x :: ts) s) (hb : s.ctl.bf = false)
    (ih : ts ≠ [] → ∀ u, AtList (i + 1) ts u → u.responsive = s.responsive →
      completesInTime r l u (runTxs (i + 1) ts u)) :
    completesInTime r (.seq :: l) s (runTxs i (x :: ts) s) := by
  have hstep := h.step_seqTurn l
  rw [seqStep_ready hb] at hstep
  rw [runTxs_ready hb]
  cases hu : transfer x (stopPolling (poll s)) with
  | fault e => exact .of_step (by rw [hstep, hu]; rfl)
  | refused e => exact .of_step (by rw [hstep, hu]; rfl)
  | next u =>
    cases ts with
    | nil => exact .of_step (by rw [hstep, hu]; rfl)
    | cons y ts =>
      have hresp : u.responsive = s.responsive := by
        rw [stopPolling_poll] at hu
        obtain ⟨⟨-, -, -, hresp, -⟩, -⟩ := transfer_keeps (by exact hb) rfl hu
        exact hresp
      exact .cons (hstep.trans (by rw [hu]; rfl)) (ih (List.cons_ne_nil _ _) _ (h.next hb hu) hresp) rfl

/-- A running list completes in time, whatever turns are listed: a turn of CTL and a poll leave SEQ at the same transaction, and
a transaction at the next. -/
theorem AtList.completes {r : Option RawTx} (l : List Turn) : ∀ {i : Nat} {x : Tx} {ts : List Tx} {s : State},
    AtList i (x :: ts) s → s.responsive = true → (r = some .recv → x :: ts = [.recv]) →
    completesInTime r l s (runTxs i (x :: ts) s) := by
  induction l with
  | nil =>
    intro i x ts s h _ _
    exact .of_step (by rw [withTurns_self h.turns, h.step_whole]; rfl)
  | cons m l ih =>
    intro i x ts s h hs hr
    cases m with
    | ctl =>
      have hat : AtList i (x :: ts) (ctlCompletion s) := h.of_eq rfl rfl rfl rfl rfl
      exact .cons (step_ctlTurn h.legal l) (ih hat hs hr) (runTxs_waitEnded ts hs rfl hr)
    | seq =>
      cases hb : s.ctl.bf with
      | true =>
        have hpoll : { poll s with seqst := .running i } = poll s := by rw [poll_eq, ← h.running]
        have hstep : step (withTurns (.seq :: l) s) = .next (withTurns l (poll s)) := by
          rw [h.step_seqTurn, seqStep_busy hb, hpoll]; rfl
        have hat : AtList i (x :: ts) (poll s) := by
          rw [poll_eq]; exact h.of_eq rfl rfl rfl rfl rfl
        have hs' : (poll s).responsive = true := by rw [poll_eq]; exact hs
        have hwait : waitEnded (poll s) = waitEnded s := by rw [poll_eq]; rfl
        exact .cons hstep (ih hat hs' hr) (runTxs_waitEnded ts hs' hwait hr)
      | false =>
        refine h.completes_ready hb fun hne u hat hu => ?_
        obtain ⟨y, ys, rfl⟩ := List.exists_cons_of_ne_nil hne
        exact ih hat (hu.trans hs) fun he => by cases hr he

/-- The transactions of a running operation are named (40_bus_transport.md R126). -/
theorem operationTxs_named {p : Params} {q : Latches} : ∀ x ∈ operationTxs p q, x.named := by
  intro x hx
  obtain ⟨-, hx⟩ | ⟨-, rfl⟩ | hx := mem_operationTxs hx
  · have hsend (k : Command) (hk : k ≠ .read) (d : Byte) : (sendOf k d).named := ⟨k, rfl, hk⟩
    have hinit : ∀ x ∈ initTxs p, x.named := by
      simp only [initTxs, List.forall_mem_cons]
      exact ⟨hsend .mode nofun _, hsend .pitch nofun _, hsend .nchr nofun _, hsend .tdiv nofun _, hsend .startLo nofun _,
        hsend .startHi nofun _, hsend .curLo nofun _, hsend .curHi nofun _, List.forall_mem_nil _⟩
    exact hinit x hx
  · trivial
  · cases x with
    | send c d =>
      obtain ⟨k, hc, hk⟩ := hx
      exact ⟨k, hc, by rintro rfl; cases hk⟩
    | _ => trivial

/-- Where one of two answers that agree is a next state, so is the other. -/
theorem sameEffect.of_next {r : Option RawTx} {t : State} {o : Answer} (h : sameEffect r (.next t) o) :
    ∃ u, o = .next u ∧ listEffect r t = listEffect r u := by
  cases o with
  | next u => exact ⟨u, rfl, Host.Outcome.next.inj h⟩
  | fault e => cases h
  | refused e => cases h

/-- A list whose CTL is responsive ends with SEQ idle, if it does not fault. -/
theorem runTxs_idle {ts : List Tx} {i : Nat} {s t : State} (hs : s.responsive = true) (h : runTxs i ts s = .next t) :
    t.seqst = .idle := by
  obtain ⟨-, ⟨hi, -⟩ | ⟨-, -, -, -, -, -, hr⟩⟩ := runTxs_cases h
  · exact hi
  · simp [hs] at hr

/-- The list in execution of a block that meets the invariant has a transaction left; a receive statement's is its only one. -/
theorem StateInv.left {s : State} {i : Nat} (h : StateInv s) (hs : s.seqst = .running i) :
    ∃ x ts, (currentTxs s).drop i = x :: ts ∧ (s.rawTx = some .recv → x :: ts = [.recv]) := by
  have hi := h.index_lt hs
  obtain ⟨x, ts, hx⟩ := List.exists_cons_of_ne_nil (List.drop_eq_nil_iff.not.2 (Nat.not_le.2 hi))
  refine ⟨x, ts, hx, fun hr => ?_⟩
  have hlist : currentTxs s = [.recv] := by rw [currentTxs, hr]; rfl
  rw [hlist, List.length_singleton] at hi
  rw [← hx, hlist, Nat.lt_one_iff.1 hi, List.drop_zero]

/-- Settles O53 by induction on the turns listed (`AtList.completes`): the run leaves what the whole list leaves as one step, and
that ends with SEQ idle, an operation's without a fault. -/
theorem responsiveOperationCompletes : Obligations.ResponsiveOperationCompletes := by
  intro s i hinv hs hr
  obtain ⟨x, ts, hx, hrecv⟩ := hinv.left hs
  have hp : paramsOk s.params = true := hinv.1
  have hat : AtList i (x :: ts) (withTurns [] s) := ⟨hp, hs, hx, rfl⟩
  obtain ⟨k, hk, heff⟩ := hat.completes s.turns hr hrecv
  rw [← hat.step_whole] at heff
  change sameEffect s.rawTx (run k s) (step (withTurns [] s)) at heff
  refine ⟨k, hk, ?effect, fun t ht => ?idle, fun hraw => ?answers⟩
  case effect =>
    have h := congrArg (mapNext withoutPolls) heff
    rwa [mapNext_mapNext, mapNext_mapNext] at h
  case idle =>
    rw [ht] at heff
    obtain ⟨u, hu, htu⟩ := heff.of_next
    have hseqst := congrArg State.seqst htu
    have hidle : u.seqst = .idle := runTxs_idle (s := withTurns [] s) hr (hat.step_whole.symm.trans hu)
    refine ⟨(hseqst : t.seqst = u.seqst).trans hidle, fun hraw => ⟨u, hu, ?_⟩⟩
    simpa [listEffect, hraw] using congrArg State.smp htu
  case answers =>
    have hlist : ∀ y ∈ x :: ts, y.named := by
      intro y hy
      rw [← hx, currentTxs, hraw] at hy
      exact operationTxs_named y (List.mem_of_mem_drop hy)
    obtain ⟨u, hu⟩ := runTxs_named hlist i (withTurns [] s)
    rw [hat.step_whole, hu] at heff
    obtain ⟨t, ht, -⟩ := heff.symm.of_next
    exact ⟨t, ht⟩

end Sys2Proof.Machine
end

section
/-! PROOFS of the family 41_controller_commands.md: nothing depends on the configuration registers (O56), and what each command
does (O4, O5, O7 to O12, O14, O15), with the lemmas they share: what a transaction statement leaves when CTL answers. -/

namespace Sys2Proof.Machine

/-! ### What CTL does depends on no configuration register -/

/-- The state with its configuration registers cleared: what is left is all that may matter (41_controller_commands.md R164). -/
def forgetConfiguration (s : State) : State := withConfiguration 0 0 0 0 0 s

@[simp] theorem forgetConfiguration_params (s : State) : (forgetConfiguration s).params = s.params := rfl
@[simp] theorem forgetConfiguration_cur (s : State) : (forgetConfiguration s).ctl.cur = s.ctl.cur := rfl
@[simp] theorem forgetConfiguration_mem (s : State) : (forgetConfiguration s).ctl.mem = s.ctl.mem := rfl
@[simp] theorem forgetConfiguration_ir (s : State) : (forgetConfiguration s).ctl.ir = s.ctl.ir := rfl
@[simp] theorem forgetConfiguration_bf (s : State) : (forgetConfiguration s).ctl.bf = s.ctl.bf := rfl
@[simp] theorem forgetConfiguration_phaseDone (s : State) : (forgetConfiguration s).ctl.phaseDone = s.ctl.phaseDone := rfl
@[simp] theorem forgetConfiguration_modeSeen (s : State) : (forgetConfiguration s).ctl.modeSeen = s.ctl.modeSeen := rfl
@[simp] theorem forgetConfiguration_pins (s : State) : (forgetConfiguration s).pins = s.pins := rfl
@[simp] theorem forgetConfiguration_seqst (s : State) : (forgetConfiguration s).seqst = s.seqst := rfl
@[simp] theorem forgetConfiguration_program (s : State) : (forgetConfiguration s).program = s.program := rfl
@[simp] theorem forgetConfiguration_turns (s : State) : (forgetConfiguration s).turns = s.turns := rfl
@[simp] theorem forgetConfiguration_responsive (s : State) : (forgetConfiguration s).responsive = s.responsive := rfl
@[simp] theorem forgetConfiguration_samples (s : State) : (forgetConfiguration s).samples = s.samples := rfl

theorem memRead_forgetConfiguration (a : Addr) (s : State) :
    memRead (forgetConfiguration s) a = ((memRead s a).1, forgetConfiguration (memRead s a).2) := by
  unfold memRead
  rw [forgetConfiguration_mem, forgetConfiguration_params]
  cases s.ctl.mem.get (memMap s.params a) <;> rfl

theorem dataLines_forgetConfiguration (b : Byte) (s : State) :
    dataLines b (forgetConfiguration s) = ((dataLines b s).1, forgetConfiguration (dataLines b s).2) := by
  unfold dataLines
  rw [forgetConfiguration_pins]
  cases s.pins.dir with
  | out => rfl
  | inp => cases s.pins.e && s.pins.rw <;> rfl

theorem ctlBitOp_forgetConfiguration (f : Byte → Byte) (s : State) :
    ctlBitOp f (forgetConfiguration s) = forgetConfiguration (ctlBitOp f s) := by
  unfold ctlBitOp
  rw [forgetConfiguration_cur, forgetConfiguration_params, memRead_forgetConfiguration]
  cases s.params.bitopAdvance <;> rfl

/-- A geometry command stores in configuration registers only, before MODE too (43_framebuffer_ops.md R196). -/
theorem geometryStore_forgetConfiguration {f : Ctl → Ctl}
    (hf : ∀ s : State, forgetConfiguration { s with ctl := f s.ctl } = forgetConfiguration s) (s : State) :
    forgetConfiguration (geometryStore (forgetConfiguration s) f) = forgetConfiguration (geometryStore s f) := by
  unfold geometryStore
  rw [forgetConfiguration_modeSeen]
  cases s.ctl.modeSeen with
  | true => exact (hf (forgetConfiguration s)).trans (hf s).symm
  | false => rfl

/-- A command reads no configuration register but to replace a half of START (41_controller_commands.md R154, R155). -/
theorem ctlExec_forgetConfiguration (k : Command) (d : Byte) (s : State) :
    forgetConfiguration (ctlExec k d (forgetConfiguration s)) = forgetConfiguration (ctlExec k d s) := by
  cases k with
  | pitch => exact geometryStore_forgetConfiguration (f := fun c => { c with pitch := d }) (fun _ => rfl) s
  | nchr => exact geometryStore_forgetConfiguration (f := fun c => { c with nchr := d }) (fun _ => rfl) s
  | tdiv => exact geometryStore_forgetConfiguration (f := fun c => { c with tdiv := d }) (fun _ => rfl) s
  | clearBit => exact (congrArg forgetConfiguration (ctlBitOp_forgetConfiguration (withBitClear · (bitNumber d)) s) :)
  | setBit => exact (congrArg forgetConfiguration (ctlBitOp_forgetConfiguration (withBitSet · (bitNumber d)) s) :)
  | _ => rfl

theorem statusSample_forgetConfiguration (s : State) :
    statusSample (forgetConfiguration s) = forgetConfiguration (statusSample s) := by
  simp only [statusSample, forgetConfiguration_params, forgetConfiguration_bf, forgetConfiguration_samples,
    dataLines_forgetConfiguration]
  rfl

/-! ### Answers that show the configuration nowhere but in its registers -/

/-- Blocks that differ in the configuration registers only answer states that differ in these only, and fault or are refused
alike. -/
def ConfigurationBlind (f : State → Answer) : Prop :=
  ∀ s, mapNext forgetConfiguration (f (forgetConfiguration s)) = mapNext forgetConfiguration (f s)

theorem ConfigurationBlind.andThen {f g : State → Answer} (hf : ConfigurationBlind f) (hg : ConfigurationBlind g) :
    ConfigurationBlind fun s => andThen (f s) g := fun s =>
  mapNext_andThen_congr (hf s) fun u v huv => by rw [← hg u, huv, hg v]

/-- An update that does not touch the configuration may come first. -/
theorem ConfigurationBlind.comp {f : State → Answer} {u : State → State} (hf : ConfigurationBlind f)
    (hu : ∀ s, u (forgetConfiguration s) = forgetConfiguration (u s)) : ConfigurationBlind fun s => f (u s) := by
  intro s
  dsimp only
  rw [hu, hf]

/-- An update that does not touch the configuration, as an answer. -/
theorem configurationBlind_next {u : State → State}
    (hu : ∀ s, u (forgetConfiguration s) = forgetConfiguration (u s)) : ConfigurationBlind fun s => .next (u s) :=
  fun s => (congrArg (fun t => Host.Outcome.next (forgetConfiguration t)) (hu s) :)

/-! ### A bus cycle and a transaction -/

theorem cycleIrw_configurationBlind : ConfigurationBlind cycleIrw := by
  intro s
  simp only [cycleIrw, forgetConfiguration_bf, forgetConfiguration_params, dataLines_forgetConfiguration]
  split <;> rfl

theorem cycleDwr_configurationBlind : ConfigurationBlind cycleDwr := by
  intro s
  simp only [cycleDwr, forgetConfiguration_bf, forgetConfiguration_ir, forgetConfiguration_phaseDone,
    forgetConfiguration_params, dataLines_forgetConfiguration]
  split
  · rfl
  cases commandOf s.ctl.ir with
  | none => rfl
  | some k =>
    dsimp only
    split
    · rfl
    split
    · rfl
    · exact congrArg (fun u : State => (.next { u with ctl := endDataPhase u.ctl } : Answer))
        (ctlExec_forgetConfiguration k (wire s.params (dataLines 0 s).1) (dataLines 0 s).2)

theorem cycleDrd_configurationBlind : ConfigurationBlind cycleDrd := by
  intro s
  simp only [cycleDrd, forgetConfiguration_bf, forgetConfiguration_ir, forgetConfiguration_phaseDone, forgetConfiguration_cur,
    forgetConfiguration_params, memRead_forgetConfiguration, dataLines_forgetConfiguration]
  split
  · rfl
  split
  · rfl
  split <;> rfl

theorem selectedCycle_configurationBlind : ConfigurationBlind selectedCycle := by
  intro s
  unfold selectedCycle
  rw [forgetConfiguration_pins]
  split
  · exact cycleIrw_configurationBlind s
  · exact configurationBlind_next statusSample_forgetConfiguration s
  · exact cycleDwr_configurationBlind s
  · exact cycleDrd_configurationBlind s

theorem strobe_configurationBlind : ConfigurationBlind strobe :=
  (selectedCycle_configurationBlind.comp (u := assertE) fun _ => rfl).andThen
    (configurationBlind_next (u := deassertE) fun _ => rfl)

theorem sendPhases_configurationBlind (c : BitVec 4) (d : Byte) : ConfigurationBlind (sendPhases c d) :=
  (strobe_configurationBlind.comp (u := fun s => drive (commandByte c) (setSelect true false s)) fun _ => rfl).andThen
    (strobe_configurationBlind.comp (u := fun s => drive d (setSelect false false s)) fun _ => rfl)

theorem receivePhases_configurationBlind : ConfigurationBlind receivePhases :=
  (strobe_configurationBlind.comp (u := fun s => drive (commandByte (codeOf .read)) (setSelect true false s))
    fun _ => rfl).andThen
    ((strobe_configurationBlind.comp (u := fun s => setSelect false true (setDir .inp s)) fun _ => rfl).andThen
      (configurationBlind_next (u := fun s => setDir .out (setSelect false false s)) fun _ => rfl))

theorem transfer_configurationBlind (x : Tx) : ConfigurationBlind (transfer x) := by
  cases x with
  | send c d => exact sendPhases_configurationBlind c d
  | sendLb j => exact fun s => sendPhases_configurationBlind (codeOf .write) (s.lb.getD j 0) s
  | recv => exact receivePhases_configurationBlind
  | recvLb j =>
    exact receivePhases_configurationBlind.andThen
      (configurationBlind_next (u := fun u => { u with lb := u.lb.set j u.smp }) fun _ => rfl)
  | recvRes =>
    exact receivePhases_configurationBlind.andThen
      (configurationBlind_next (u := fun u => { u with res := u.smp }) fun _ => rfl)

/-- A bus cycle on its own. -/
theorem busCycle_configurationBlind (rs rw : Bool) (dir : Dir) : ConfigurationBlind (busCycle rs rw dir) := by
  have hcycle := (strobe_configurationBlind.comp (u := fun s => setSelect rs rw (setDir dir s)) fun _ => rfl).andThen
    (configurationBlind_next (u := fun u => setDir .out (setSelect false false u)) fun _ => rfl)
  intro s
  unfold busCycle
  rw [forgetConfiguration_seqst]
  split
  · exact hcycle s
  · rfl

/-! ### SEQ and its list -/

theorem poll_forgetConfiguration (s : State) : poll (forgetConfiguration s) = forgetConfiguration (poll s) :=
  statusSample_forgetConfiguration (startPolling s)

theorem waitReady_forgetConfiguration (s : State) : waitReady (forgetConfiguration s) = forgetConfiguration (waitReady s) := by
  have hagain : poll (ctlCompletion (forgetConfiguration (poll s))) = forgetConfiguration (poll (ctlCompletion (poll s))) :=
    poll_forgetConfiguration (ctlCompletion (poll s))
  simp only [waitReady, poll_forgetConfiguration, forgetConfiguration_bf, forgetConfiguration_responsive, hagain]
  split
  · split <;> rfl
  · rfl

theorem runTxs_configurationBlind (ts : List Tx) : ∀ i, ConfigurationBlind (runTxs i ts) := by
  induction ts with
  | nil => exact fun _ _ => rfl
  | cons x ts ih =>
    intro i s
    have hready := (transfer_configurationBlind x).andThen
      ((ih (i + 1)).comp (u := fun u => { u with seqst := .running (i + 1) }) fun _ => rfl)
    simp only [runTxs, waitReady_forgetConfiguration, forgetConfiguration_bf]
    split
    · rfl
    · exact hready (waitReady s)

theorem afterTx_forgetConfiguration (i : Nat) (ts : List Tx) (s : State) :
    afterTx i ts (forgetConfiguration s) = forgetConfiguration (afterTx i ts s) := by
  cases ts <;> rfl

theorem seqStep_configurationBlind (i : Nat) (ts : List Tx) : ConfigurationBlind (seqStep i ts) := by
  intro s
  cases ts with
  | nil => rfl
  | cons x ts =>
    have hready := (transfer_configurationBlind x).andThen (configurationBlind_next (afterTx_forgetConfiguration i ts))
    simp only [seqStep, poll_forgetConfiguration, forgetConfiguration_bf]
    split
    · rfl
    · exact hready (stopPolling (poll s))

theorem resume_configurationBlind (i : Nat) : ConfigurationBlind (resume i) := by
  intro s
  have hlist : currentTxs (forgetConfiguration s) = currentTxs s := rfl
  unfold resume
  rw [hlist, forgetConfiguration_turns]
  cases s.turns with
  | nil => exact runTxs_configurationBlind _ i s
  | cons m l => exact seqStep_configurationBlind i _ s

theorem startList_configurationBlind (ts : List Tx) : ConfigurationBlind (startList ts) := by
  intro s
  obtain ⟨rfl, h⟩ | ⟨hts, ht, h⟩ | ⟨-, ht, h⟩ := startList_cases ts s
  · rfl
  · rw [h, startList_accept (s := forgetConfiguration s) ht hts]
    rfl
  · rw [h, startList_run (s := forgetConfiguration s) ht]
    exact runTxs_configurationBlind ts 0 { s with seqst := .running 0 }

/-! ### An instruction and a step -/

theorem exec_busCycle_configurationBlind {i : Instr} (hi : i.isBusCycle = true) : ConfigurationBlind (exec i) := by
  cases i with
  | irw b => exact fun s => busCycle_configurationBlind true false s.pins.dir (drive b s)
  | dwr b => exact fun s => busCycle_configurationBlind false false s.pins.dir (drive b s)
  | str => exact busCycle_configurationBlind true true .inp
  | drd => exact busCycle_configurationBlind false true .inp
  | _ => cases hi

/-- An instruction in an idle block, by its kind: no transaction list holds a configuration register. -/
theorem exec_forgetConfiguration_of_idle (i : Instr) {s : State} (hi : s.seqst = .idle) :
    mapNext forgetConfiguration (exec i (forgetConfiguration s)) = mapNext forgetConfiguration (exec i s) := by
  cases presented i with
  | transaction r ho h =>
    rw [h s hi, h (forgetConfiguration s) hi]
    exact startList_configurationBlind _ { s with rawTx := some r }
  | operation q ho he hq hn h =>
    rw [h s hi, h (forgetConfiguration s) hi]
    exact startList_configurationBlind _ { s with latch := q, rawTx := none }
  | refused e hw h => rw [h s hi, h (forgetConfiguration s) hi]
  | cycle hc h => exact exec_busCycle_configurationBlind hc s

theorem hostAct_forgetConfiguration_of_idle {s : State} (hi : s.seqst = .idle) :
    mapNext forgetConfiguration (hostAct (forgetConfiguration s)) = mapNext forgetConfiguration (hostAct s) := by
  unfold hostAct
  rw [forgetConfiguration_program]
  cases s.program with
  | nil => rfl
  | cons p rest =>
    dsimp only
    cases decode p with
    | error e => rfl
    | ok i => exact exec_forgetConfiguration_of_idle i (s := { s with program := rest }) hi

theorem settled_forgetConfiguration (s : State) : settled (forgetConfiguration s) = forgetConfiguration (settled s) := by
  unfold settled
  rw [forgetConfiguration_turns, forgetConfiguration_responsive]
  split <;> rfl

theorem act_configurationBlind : ConfigurationBlind act := by
  intro s
  by_cases hctl : ∃ l, s.turns = .ctl :: l
  · obtain ⟨l, hl⟩ := hctl
    rw [act_of_ctl hl, act_of_ctl (s := forgetConfiguration s) hl]
    rfl
  have hseq : ∀ l, s.turns ≠ .ctl :: l := fun l hl => hctl ⟨l, hl⟩
  cases hs : s.seqst with
  | running i =>
    rw [act_of_running hseq hs, act_of_running (s := forgetConfiguration s) hseq hs]
    exact resume_configurationBlind i s
  | idle =>
    have hidle : (settled s).seqst = .idle := by
      obtain ⟨b, hb⟩ := settled_eq s
      rw [hb, hs]
    rw [act_of_idle hs hseq, act_of_idle (s := forgetConfiguration s) hs hseq, settled_forgetConfiguration]
    exact hostAct_forgetConfiguration_of_idle hidle

theorem step_configurationBlind : ConfigurationBlind step := by
  intro s
  cases hp : paramsOk s.params with
  | true =>
    rw [step_of_paramsOk hp, step_of_paramsOk (s := forgetConfiguration s) hp]
    exact act_configurationBlind.andThen (configurationBlind_next (u := endTurn) fun _ => rfl) s
  | false => rw [step_of_not_paramsOk hp, step_of_not_paramsOk (s := forgetConfiguration s) hp]

/-- Settles O56, by the agent whose turn it is: no agent reads a configuration register but to store part of it again, so a step
answers alike whatever they hold, these registers apart (`step_configurationBlind`). -/
theorem configurationIsStorageOnly : Obligations.ConfigurationIsStorageOnly := by
  intro m p n td st s
  have hforget : mapNext forgetConfiguration (step (withConfiguration m p n td st s)) = mapNext forgetConfiguration (step s) :=
    (step_configurationBlind (withConfiguration m p n td st s)).symm.trans (step_configurationBlind s)
  have hset := congrArg (mapNext (withConfiguration m p n td st)) hforget
  rwa [mapNext_mapNext, mapNext_mapNext] at hset

/-! ### A transaction statement, CTL answering -/

/-- The state with other values in IR, in BF and in the note that a data phase has happened: what a transaction moves around
its command (40_bus_transport.md R127, R129). -/
def withPhase (c : BitVec 4) (b p : Bool) (s : State) : State :=
  { s with ctl := { s.ctl with ir := c, bf := b, phaseDone := p } }

@[simp] theorem withPhase_params (c : BitVec 4) (b p : Bool) (s : State) : (withPhase c b p s).params = s.params := rfl
@[simp] theorem withPhase_cur (c : BitVec 4) (b p : Bool) (s : State) : (withPhase c b p s).ctl.cur = s.ctl.cur := rfl
@[simp] theorem withPhase_mem (c : BitVec 4) (b p : Bool) (s : State) : (withPhase c b p s).ctl.mem = s.ctl.mem := rfl
@[simp] theorem withPhase_modeSeen (c : BitVec 4) (b p : Bool) (s : State) :
    (withPhase c b p s).ctl.modeSeen = s.ctl.modeSeen := rfl

theorem memRead_withPhase (a : Addr) (c : BitVec 4) (b p : Bool) (s : State) :
    memRead (withPhase c b p s) a = ((memRead s a).1, withPhase c b p (memRead s a).2) := by
  unfold memRead
  rw [withPhase_mem, withPhase_params]
  cases s.ctl.mem.get (memMap s.params a) <;> rfl

theorem ctlBitOp_withPhase (f : Byte → Byte) (c : BitVec 4) (b p : Bool) (s : State) :
    ctlBitOp f (withPhase c b p s) = withPhase c b p (ctlBitOp f s) := by
  unfold ctlBitOp
  rw [withPhase_cur, withPhase_params, memRead_withPhase]
  cases s.params.bitopAdvance <;> rfl

theorem geometryStore_withPhase {f : Ctl → Ctl} {c : BitVec 4} {b p : Bool}
    (hf : ∀ e : Ctl, f { e with ir := c, bf := b, phaseDone := p } = { f e with ir := c, bf := b, phaseDone := p })
    (s : State) : geometryStore (withPhase c b p s) f = withPhase c b p (geometryStore s f) := by
  unfold geometryStore
  rw [withPhase_modeSeen]
  cases s.ctl.modeSeen with
  | true => exact congrArg (fun e : Ctl => { s with ctl := e }) (hf s.ctl)
  | false => rfl

/-- A command reads neither IR nor BF, nor whether a data phase has happened, and leaves them alone (R150 to R161). -/
theorem ctlExec_withPhase (k : Command) (d : Byte) (c : BitVec 4) (b p : Bool) (s : State) :
    ctlExec k d (withPhase c b p s) = withPhase c b p (ctlExec k d s) := by
  cases k with
  | pitch => exact geometryStore_withPhase (f := fun e => { e with pitch := d }) (fun _ => rfl) s
  | nchr => exact geometryStore_withPhase (f := fun e => { e with nchr := d }) (fun _ => rfl) s
  | tdiv => exact geometryStore_withPhase (f := fun e => { e with tdiv := d }) (fun _ => rfl) s
  | clearBit => exact ctlBitOp_withPhase (withBitClear · (bitNumber d)) c b p s
  | setBit => exact ctlBitOp_withPhase (withBitSet · (bitNumber d)) c b p s
  | _ => rfl

/-- The state in which the transaction of a statement takes effect: CTL ready, the bus released, `f` the status byte sampled last
and `m` the count of them (40_bus_transport.md R122). -/
def afterWait (r : RawTx) (m : Nat) (f : Byte) (s : State) : State :=
  { s with
    ctl := { s.ctl with bf := false }, pins := ⟨true, true, false, .out, s.pins.dout⟩, smp := f, samples := m
    seqst := .running 0, rawTx := some r }

/-- A transaction statement that an idle SEQ carries out after its wait, CTL answering. -/
theorem issueTransaction_afterWait {s : State} (hi : s.seqst = .idle) (ha : ctlAnswers s) (r : RawTx) :
    ∃ m f, issueTransaction r s = andThen (transfer r.tx (afterWait r m f s)) fun u => .next (finish u) := by
  obtain ⟨ht, hb⟩ := ha
  obtain ⟨m, f, hrun⟩ := runTxs_answers_cons (x := r.tx) (s := { s with rawTx := some r, seqst := .running 0 }) hb
  exact ⟨m, f, (issueTransaction_run hi ht r).trans (hrun 0 [])⟩

/-- A transaction statement is done alike by two descriptions that agree on the CTL it found. -/
theorem transactionDone.congr {k : Command} {f g : Ctl → Ctl} {s t : State} (h : transactionDone k f s t)
    (hfg : f s.ctl = g s.ctl) : transactionDone k g s t := by
  unfold transactionDone at h ⊢
  rwa [← hfg]

/-- The statement of a named command other than READ: the command executes on CTL (40_bus_transport.md R123, R129). -/
theorem issueTransaction_send_done {s : State} (hi : s.seqst = .idle) (ha : ctlAnswers s) {k : Command} (hk : k ≠ .read)
    (d : Byte) :
    ∃ t, issueTransaction (.send (codeOf k) d) s = .next t ∧ transactionDone k (fun _ => (ctlExec k d s).ctl) s t := by
  obtain ⟨m, f, h⟩ := issueTransaction_afterWait hi ha (.send (codeOf k) d)
  have hsend := sendPhases_named (s := afterWait (.send (codeOf k) d) m f s) rfl rfl hk d
  refine ⟨_, h.trans (congrArg (andThen · fun u => .next (finish u)) hsend), ?_⟩
  have hctl : (ctlExec k d (afterIrw (codeOf k) (afterWait (.send (codeOf k) d) m f s))).ctl =
      (withPhase (codeOf k) false false (ctlExec k d s)).ctl := by
    rw [← ctlExec_withPhase]
    exact ctlExec_ctl_congr k d rfl rfl rfl
  obtain ⟨c, n, he, -⟩ := ctlExec_frame k d (afterIrw (codeOf k) (afterWait (.send (codeOf k) d) m f s))
  rw [he] at hctl
  rw [afterDwr, he]
  exact ⟨congrArg endDataPhase hctl, ⟨rfl, rfl, rfl⟩, ⟨rfl, rfl, rfl, rfl, rfl⟩, rfl, rfl⟩

/-- READ's statement: the byte at the cursor is sampled, a free byte where nothing has written it, and the cursor advances
(40_bus_transport.md R124, R130). -/
theorem issueTransaction_recv_done {s : State} (hi : s.seqst = .idle) (ha : ctlAnswers s) :
    ∃ t, issueTransaction .recv s = .next t ∧ transactionDone .read (fun c => { c with cur := c.cur + 1 }) s t ∧
      t.smp = (memRead s s.ctl.cur).1 ∧ t.draws = (memRead s s.ctl.cur).2.draws := by
  obtain ⟨m, f, h⟩ := issueTransaction_afterWait hi ha .recv
  have hrecv := receivePhases_ready (s := afterWait .recv m f s) rfl rfl
  refine ⟨_, h.trans (congrArg (andThen · fun u => .next (finish u)) hrecv),
    ⟨rfl, ⟨rfl, rfl, rfl⟩, ⟨rfl, rfl, rfl, rfl, rfl⟩, rfl, rfl⟩, ?_⟩
  obtain ⟨v, hg, -⟩ | ⟨hg, -⟩ := memRead_cases s s.ctl.cur <;> simp [afterReceive, afterWait, memRead, hg]

/-! ### The commands that store in a register -/

/-- Settles O4: MODE's effect is its store and the note that it has come. -/
theorem modeCommandStoresMode : Obligations.ModeCommandStoresMode := fun d _ =>
  ⟨decode_wordT 0 d, fun hi ha => issueTransaction_send_done hi ha (k := .mode) nofun d⟩

theorem geometryStore_ctl_of_modeSeen {s : State} (h : s.ctl.modeSeen = true) (f : Ctl → Ctl) :
    (geometryStore s f).ctl = f s.ctl := by
  rw [geometryStore, if_pos h]

/-- The statement of a geometry command, a MODE command having come first. -/
theorem issueTransaction_geometry_done {s : State} (hi : s.seqst = .idle) (ha : ctlAnswers s) (hm : s.ctl.modeSeen = true)
    {k : Command} (hk : k ≠ .read) {d : Byte} {f : Ctl → Ctl} (he : ctlExec k d s = geometryStore s f) :
    ∃ t, issueTransaction (.send (codeOf k) d) s = .next t ∧ transactionDone k f s t := by
  obtain ⟨t, h, hdone⟩ := issueTransaction_send_done hi ha hk d
  exact ⟨t, h, hdone.congr (by rw [he, geometryStore_ctl_of_modeSeen hm])⟩

/-- Settles O5: a geometry command after MODE is its store. -/
theorem geometryCommandsStoreOperand : Obligations.GeometryCommandsStoreOperand := by
  refine fun d s => ⟨⟨decode_wordT 1 d, decode_wordT 2 d, decode_wordT 3 d⟩, fun hi ha hm => ⟨?pitch, ?nchr, ?tdiv⟩⟩
  case pitch => exact issueTransaction_geometry_done hi ha hm (k := .pitch) nofun rfl
  case nchr => exact issueTransaction_geometry_done hi ha hm (k := .nchr) nofun rfl
  case tdiv => exact issueTransaction_geometry_done hi ha hm (k := .tdiv) nofun rfl

/-- Settles O7: the effect of each is `setLo` or `setHi` of START. -/
theorem startCommandsLoadHalves : Obligations.StartCommandsLoadHalves := fun d _ =>
  ⟨⟨decode_wordT 8 d, decode_wordT 9 d⟩, fun hi ha =>
    ⟨issueTransaction_send_done hi ha (k := .startLo) nofun d, issueTransaction_send_done hi ha (k := .startHi) nofun d⟩⟩

/-- After a transaction statement a prompt CTL answers the next one, SEQ being idle. -/
theorem transactionDone.idle_answers {k : Command} {f : Ctl → Ctl} {s t : State} (h : transactionDone k f s t)
    (hs : prompt s) : t.seqst = .idle ∧ ctlAnswers t := by
  obtain ⟨-, ⟨hi, -, -⟩, ⟨-, -, hr, -, -⟩, -, ht⟩ := h
  obtain ⟨hturns, hresp⟩ := hs
  exact ⟨hi, ht.trans hturns, .inr (hr.trans hresp)⟩

/-- Settles O8: the effect of each is `setLo` or `setHi` of the cursor, and the pair replaces both halves. -/
theorem cursorCommandsLoadHalves : Obligations.CursorCommandsLoadHalves := by
  refine fun d s => ⟨⟨decode_wordT 0xA d, decode_wordT 0xB d⟩, fun hi ha => ⟨?curLo, ?curHi⟩, fun hi hp hiByte => ?pair⟩
  case curLo => exact issueTransaction_send_done hi ha (k := .curLo) nofun d
  case curHi => exact issueTransaction_send_done hi ha (k := .curHi) nofun d
  case pair =>
    obtain ⟨t, hlo, ht⟩ := issueTransaction_send_done hi hp.answers (k := .curLo) nofun d
    obtain ⟨hidle, hanswers⟩ := ht.idle_answers hp
    obtain ⟨u, hhi, hu⟩ := issueTransaction_send_done hidle hanswers (k := .curHi) nofun hiByte
    have hcurT : t.ctl.cur = setLo s.ctl.cur d := congrArg Ctl.cur ht.1
    have hcurU : u.ctl.cur = setHi t.ctl.cur hiByte := congrArg Ctl.cur hu.1
    exact ⟨t, u, hlo, hhi, by rw [hcurU, hcurT, setHi_setLo]⟩

/-! ### The commands that reach display memory -/

/-- A command whose effect on display memory is one byte written at the cursor. -/
theorem issueTransaction_store_done {s : State} (hi : s.seqst = .idle) (ha : ctlAnswers s) {k : Command} (hk : k ≠ .read)
    {d v : Byte} {a : Addr}
    (he : (ctlExec k d s).ctl = { s.ctl with mem := s.ctl.mem.put (memMap s.params s.ctl.cur) v, cur := a }) :
    ∃ t, issueTransaction (.send (codeOf k) d) s = .next t ∧
      transactionDone k (fun c => { c with mem := t.ctl.mem, cur := a }) s t ∧
      t.ctl.mem.get (memMap s.params s.ctl.cur) = some v ∧ sameCellsBut (memMap s.params s.ctl.cur) s t := by
  obtain ⟨t, h, hdone⟩ := issueTransaction_send_done hi ha hk d
  have hctl := hdone.1
  have hmem : t.ctl.mem = s.ctl.mem.put (memMap s.params s.ctl.cur) v := by rw [hctl, he]
  refine ⟨t, h, hdone.congr (by rw [he, hmem]), ?_, fun b hb => ?_⟩
  · rw [hmem, Memory.get_put_same]
  · rw [hmem, Memory.get_put_other _ _ hb]

/-- Settles O9: WRITE's effect is one byte written at the cursor and the advance. -/
theorem writeCommandStoresAtCursor : Obligations.WriteCommandStoresAtCursor := fun d _ =>
  ⟨decode_wordT 0xC d, fun hi ha => issueTransaction_store_done hi ha (k := .write) (d := d) nofun rfl⟩

/-- Settles O10, by whether the cell at the cursor has been written. -/
theorem readCommandReturnsByteAtCursor : Obligations.ReadCommandReturnsByteAtCursor := by
  refine fun d s => ⟨decode_wordT 0xD d, fun hi ha => ?_⟩
  obtain ⟨t, h, hdone, hsmp, hdraws⟩ := issueTransaction_recv_done hi ha
  refine ⟨t, h, hdone, fun v hv => ?_, fun hnone => ?_⟩
  · simp [hsmp, memRead, hv]
  · have hread : memRead s s.ctl.cur = any8 s := by simp [memRead, hnone]
    rw [hread] at hsmp hdraws
    exact ⟨s.draws, le_rfl, by simp [hdraws], hsmp⟩

/-- A bit command on CTL: some byte, the one at the cursor where that has been written, is changed and stored there, and the
cursor advances if BITOP_ADVANCE (41_controller_commands.md R160, R161). -/
theorem ctlBitOp_ctl (f : Byte → Byte) (s : State) :
    ∃ b, (∀ v, s.ctl.mem.get (memMap s.params s.ctl.cur) = some v → b = v) ∧
      (ctlBitOp f s).ctl = { s.ctl with
        mem := s.ctl.mem.put (memMap s.params s.ctl.cur) (f b)
        cur := if s.params.bitopAdvance then s.ctl.cur + 1 else s.ctl.cur } := by
  unfold ctlBitOp
  obtain ⟨v, hg, h⟩ | ⟨hg, h⟩ := memRead_cases s s.ctl.cur <;> rw [h]
  · refine ⟨v, fun w hw => Option.some.inj (hg.symm.trans hw), ?_⟩
    cases s.params.bitopAdvance <;> rfl
  · refine ⟨Config.any8 s.draws, fun w hw => absurd hw (by simp [hg]), ?_⟩
    cases s.params.bitopAdvance <;> rfl

/-- A bit command's statement: the byte at the cursor becomes `f` of what it was, or of a free byte. -/
theorem issueTransaction_bitOp_done {s : State} (hi : s.seqst = .idle) (ha : ctlAnswers s) {k : Command} (hk : k ≠ .read)
    {d : Byte} {f : Byte → Byte} (he : ctlExec k d s = ctlBitOp f s) :
    ∃ t b, issueTransaction (.send (codeOf k) d) s = .next t ∧
      transactionDone k (fun c => { c with
        mem := t.ctl.mem, cur := if s.params.bitopAdvance then c.cur + 1 else c.cur }) s t ∧
      t.ctl.mem.get (memMap s.params s.ctl.cur) = some (f b) ∧
      (∀ v, s.ctl.mem.get (memMap s.params s.ctl.cur) = some v → b = v) ∧
      sameCellsBut (memMap s.params s.ctl.cur) s t := by
  obtain ⟨b, hb, hctl⟩ := ctlBitOp_ctl f s
  rw [← he] at hctl
  obtain ⟨t, h, hdone, hget, hcells⟩ := issueTransaction_store_done hi ha hk hctl
  exact ⟨t, b, h, hdone, hget, hb, hcells⟩

/-- The bit number of an operand is a bit of a byte (30_encoding.md R97). -/
theorem bitNumber_lt (d : Byte) : bitNumber d < 8 := Nat.mod_lt _ (by omega)

/-- Settles O11: CLEAR_BIT is a bit command that clears one bit. -/
theorem clearBitCommandClearsOneBit : Obligations.ClearBitCommandClearsOneBit := by
  refine fun d s => ⟨decode_wordT 0xE d, fun hi ha => ?_⟩
  obtain ⟨t, b, h, hdone, hget, hb, hcells⟩ := issueTransaction_bitOp_done hi ha (k := .clearBit) nofun
    (f := (withBitClear · (bitNumber d))) rfl
  obtain ⟨hbit, hrest⟩ := withBitClear_bits b (bitNumber_lt d)
  exact ⟨t, _, h, hdone, hget, hbit, fun v hv => hb v hv ▸ hrest, hcells⟩

/-- Settles O12: SET_BIT is a bit command that sets one bit. -/
theorem setBitCommandSetsOneBit : Obligations.SetBitCommandSetsOneBit := by
  refine fun d s => ⟨decode_wordT 0xF d, fun hi ha => ?_⟩
  obtain ⟨t, b, h, hdone, hget, hb, hcells⟩ := issueTransaction_bitOp_done hi ha (k := .setBit) nofun
    (f := (withBitSet · (bitNumber d))) rfl
  obtain ⟨hbit, hrest⟩ := withBitSet_bits b (bitNumber_lt d)
  exact ⟨t, _, h, hdone, hget, hbit, fun v hv => hb v hv ▸ hrest, hcells⟩

/-- Where the cursor is one further as an address, it is one further modulo 2^16 as a number. -/
theorem toNat_advanced {a c : Addr} (h : a = c + 1) : a.toNat = (c.toNat + 1) % 65536 := by
  rw [h, BitVec.toNat_add]
  rfl

/-- Settles O14 from O9 to O12: the cursor that each leaves. -/
theorem autoAdvanceIsModulo65536 : Obligations.AutoAdvanceIsModulo65536 := by
  rintro d s hi ha i (rfl | rfl | ⟨hadv, rfl | rfl⟩)
  · obtain ⟨t, h, ⟨hctl, -⟩, -⟩ := (writeCommandStoresAtCursor d s).2 hi ha
    exact ⟨t, h, toNat_advanced (by rw [hctl])⟩
  · obtain ⟨t, h, ⟨hctl, -⟩, -⟩ := (readCommandReturnsByteAtCursor d s).2 hi ha
    exact ⟨t, h, toNat_advanced (by rw [hctl])⟩
  · obtain ⟨t, -, h, ⟨hctl, -⟩, -⟩ := (clearBitCommandClearsOneBit d s).2 hi ha
    exact ⟨t, h, toNat_advanced (by rw [hctl]; exact if_pos hadv)⟩
  · obtain ⟨t, -, h, ⟨hctl, -⟩, -⟩ := (setBitCommandSetsOneBit d s).2 hi ha
    exact ⟨t, h, toNat_advanced (by rw [hctl]; exact if_pos hadv)⟩

/-! ### The reserved command codes -/

/-- The codes of the reserved commands (30_encoding.md R99). -/
theorem commandOf_eq_none_iff : ∀ c : BitVec 4, commandOf c = none ↔ 4 ≤ c.toNat ∧ c.toNat ≤ 7 := by decide

/-- The statement of a reserved code: its data phase is a fault (40_bus_transport.md R129). -/
theorem issueTransaction_reserved {s : State} (hi : s.seqst = .idle) (ha : ctlAnswers s) {c : BitVec 4}
    (hc : commandOf c = none) (d : Byte) : issueTransaction (.send c d) s = .fault .reservedCommand := by
  obtain ⟨w, hb, hd, -, h⟩ := issueTransaction_answers hi ha (.send c d)
  have hsend : transfer (.send c d) w = .fault .reservedCommand := by
    show sendPhases c d w = _
    rw [sendPhases_ready hb hd, hc]
  exact h.trans (congrArg (andThen · fun u => .next (finish u)) hsend)

/-- Settles O15: the data phase of a transaction statement and the DWR cycle fault alike. -/
theorem reservedCommandsFault : Obligations.ReservedCommandsFault := by
  refine fun d s => ⟨fun hi ha => ?_, fun hi hb h4 h7 => ?_⟩
  · have hfault (c : BitVec 4) (hc : commandOf c = none) := issueTransaction_reserved hi ha hc d
    exact ⟨hfault 4 rfl, hfault 5 rfl, hfault 6 rfl, hfault 7 rfl⟩
  · exact exec_dwr_of_cycle hi d (cycleDwr_reserved hb ((commandOf_eq_none_iff _).2 ⟨h4, h7⟩))

end Sys2Proof.Machine
end

section
/-! PROOFS of the family 42_cursor_addressing.md: MOVE (O24) and where a position in range lies (O25), with the lemma that an
operation whose list runs to its end is done. -/

namespace Sys2Proof.Machine

/-! ### An operation whose list runs to its end -/

/-- What an idle SEQ that accepts the request `q` begins its list with (30_encoding.md R94, 10_state.md R35). -/
def requestTaken (q : Latches) (s : State) : State := { s with latch := q, rawTx := none, seqst := .running 0 }

/-- With no turn listed, an operation whose list runs to its end, command `k` being the last, is done. -/
theorem acceptOperation_done {k : Command} {opc : BitVec 4} {x y : BitVec 16} {d : Byte} {ts : List Tx} {s u : State}
    (hi : s.seqst = .idle) (ht : s.turns = []) (hcar : carries (requestTaken ⟨opc, x, y, d⟩ s) u)
    (hctl : u.ctl.ir = codeOf k ∧ u.ctl.bf = true ∧ u.ctl.phaseDone = true)
    (hrun : runTxs 0 ts (requestTaken ⟨opc, x, y, d⟩ s) = .next (finish u)) :
    acceptOperation opc x y d ts s = .next (finish u) ∧ operationDone k opc x y d s (finish u) := by
  refine ⟨(acceptOperation_run hi ht opc x y d ts).trans hrun, ?_⟩
  obtain ⟨hparams, hlatch, hprogram, hresponsive, -, hturns, -, o, hpins⟩ := hcar
  obtain ⟨hir, hbf, hphase⟩ := hctl
  have hfinished : finished (finish u) := ⟨rfl, by rw [finish_pins, hpins]; rfl, rfl⟩
  exact ⟨hlatch, hir, hbf, hphase, hfinished, hparams, hprogram, hresponsive, hturns⟩

/-! ### MOVE -/

/-- The two transactions of MOVE by their codes and by the operands reduced to a byte (42_cursor_addressing.md R180). -/
theorem moveTxs_eq (p : Params) (x y : Nat) :
    moveTxs p x y = [.send 0xA (BitVec.ofNat 8 (pos p x y % 256)), .send 0xB (BitVec.ofNat 8 (pos p x y / 256 % 256))] := by
  have hmod (n : Nat) : BitVec.ofNat 8 (n % 256) = BitVec.ofNat 8 n := BitVec.eq_of_toNat_eq (Nat.mod_mod n 256)
  rw [hmod, hmod]
  rfl

/-- Settles O24: MOVE's list run to its end (`runTxs_move`). -/
theorem moveSetsCursor : Obligations.MoveSetsCursor := by
  intro x y d s hi hs
  refine ⟨moveTxs_eq s.params x.toNat y.toNat, ?_⟩
  obtain ⟨u, hctl, hlb, hres, hcar, hrun⟩ := runTxs_move x.toNat y.toNat (s := requestTaken ⟨0x1, x, y, d⟩ s) hs 0 []
  obtain ⟨h, hdone⟩ := acceptOperation_done (k := .curHi) hi hs.1 hcar (by rw [hctl]; exact ⟨rfl, rfl, rfl⟩) hrun
  exact ⟨finish u, h, hdone, by rw [finish_ctl, hctl]; rfl, hlb, hres⟩

/-! ### The position of a pixel -/

/-- The other form of `pos`, WIDTH being a multiple of 8 (42_cursor_addressing.md R181). -/
theorem pos_eq_row_add {p : Params} (h : paramsOk p = true) (x y : Nat) : pos p x y = y * bpr p + x / 8 := by
  obtain ⟨hw, -⟩ := surfaceBytes_eq h
  rw [pos, hw, Nat.mul_left_comm, Nat.mul_add_div (by omega)]

/-- Settles O25: byte x / 8 of row y is one of HEIGHT rows of BPR bytes. -/
theorem inRangePositionIsOnSurface : Obligations.InRangePositionIsOnSurface := by
  intro p x y h hx hy
  obtain ⟨hw, hsurface, -⟩ := surfaceBytes_eq h
  have hpos := pos_eq_row_add h x y
  have hcol : x / 8 < bpr p := by omega
  refine ⟨hpos, ?_⟩
  calc pos p x y = bpr p * y + x / 8 := by rw [hpos, Nat.mul_comm]
    _ < p.height * bpr p := Nat.mul_add_lt_mul_of_lt_of_lt hy hcol
    _ = surfaceBytes p := by rw [hsurface, Nat.mul_comm]

end Sys2Proof.Machine
end

section
/-! PROOFS of the family 43_framebuffer_ops.md: geometry before MODE (O6), DRAW_BYTE and READ_BYTE (O26, O27), PLOT_BYTE and
PLOT_PIXEL (O28, O29), CLEAR (O30, O31), INIT (O32), and a plotted byte read back (O36). Each operation's proof runs its list by
the laws of its transactions and ends with `acceptOperation_done`. -/

namespace Sys2Proof.Machine

/-! ### Geometry before MODE -/

/-- The statement of a geometry command, no MODE command having come: some bytes in the configuration registers, and nothing
else of its own (43_framebuffer_ops.md R196). -/
theorem issueTransaction_unspecified_done {s : State} (hi : s.seqst = .idle) (ha : ctlAnswers s)
    (hm : s.ctl.modeSeen = false) {k : Command} (hk : k ≠ .read) {d : Byte}
    (he : ∃ f, ctlExec k d s = geometryStore s f) :
    ∃ t, issueTransaction (.send (codeOf k) d) s = .next t ∧ transactionDone k (fun c => { c with
      mode := t.ctl.mode, pitch := t.ctl.pitch, nchr := t.ctl.nchr, tdiv := t.ctl.tdiv, start := t.ctl.start }) s t := by
  obtain ⟨t, h, hdone⟩ := issueTransaction_send_done hi ha hk d
  have hfree : ctlExec k d s = unspecifiedConfiguration s := by
    obtain ⟨f, hf⟩ := he
    rw [hf, geometryStore, hm]
    rfl
  refine ⟨t, h, hdone.congr ?_⟩
  rw [hdone.1, hfree]
  rfl

/-- Settles O6: each of the three is a geometry command. -/
theorem geometryBeforeModeLeavesRestAlone : Obligations.GeometryBeforeModeLeavesRestAlone := by
  refine fun d s hi ha hm => ⟨?pitch, ?nchr, ?tdiv⟩
  case pitch => exact issueTransaction_unspecified_done hi ha hm (k := .pitch) nofun ⟨fun c => { c with pitch := d }, rfl⟩
  case nchr => exact issueTransaction_unspecified_done hi ha hm (k := .nchr) nofun ⟨fun c => { c with nchr := d }, rfl⟩
  case tdiv => exact issueTransaction_unspecified_done hi ha hm (k := .tdiv) nofun ⟨fun c => { c with tdiv := d }, rfl⟩

/-! ### One byte written or read -/

/-- Where memory has taken one write, the byte is there and every other cell is as it was. -/
theorem cells_of_put {s t : State} {a : Nat} {v : Byte} (h : t.ctl.mem = s.ctl.mem.put a v) :
    t.ctl.mem.get a = some v ∧ sameCellsBut a s t :=
  ⟨by rw [h, Memory.get_put_same], fun b hb => by rw [h, Memory.get_put_other _ _ hb]⟩

/-- Settles O26: the list is one WRITE (`runTxs_write`). -/
theorem drawByteStoresAtCursor : Obligations.DrawByteStoresAtCursor := by
  intro x y d s hi hs
  refine ⟨rfl, ?_⟩
  obtain ⟨u, hctl, hlb, hres, hcar, hrun⟩ := runTxs_write d (s := requestTaken ⟨0x2, x, y, d⟩ s) hs 0 []
  obtain ⟨h, hdone⟩ := acceptOperation_done (k := .write) hi hs.1 hcar (by rw [hctl]; exact ⟨rfl, rfl, rfl⟩) hrun
  obtain ⟨hget, hcells⟩ := cells_of_put (s := s) (t := finish u) (congrArg Ctl.mem hctl)
  exact ⟨finish u, h, hdone, by rw [finish_ctl, hctl]; rfl, hget, hcells, hlb, hres⟩

/-- Settles O27: the list is one receive into RES (`runTxs_receive`). -/
theorem readByteLoadsResult : Obligations.ReadByteLoadsResult := by
  intro x y d s hi hs
  refine ⟨rfl, ?_⟩
  obtain ⟨v, u, hctl, hwritten, hfree, hresult, -, hcar, hrun⟩ :=
    runTxs_receive (s := requestTaken ⟨0x6, x, y, d⟩ s) hs (.inl rfl) 0 []
  obtain ⟨hres, hlb⟩ := hresult rfl
  obtain ⟨h, hdone⟩ := acceptOperation_done (k := .read) hi hs.1 hcar (by rw [hctl]; exact ⟨rfl, rfl, rfl⟩) hrun
  refine ⟨finish u, h, hdone, by rw [finish_ctl, hctl]; rfl, fun b hb => hres.trans (hwritten b hb), fun hnone => ?_, hlb⟩
  obtain ⟨n, hn, hv⟩ := hfree hnone
  exact ⟨n, hn, hres.trans hv⟩

/-! ### PLOT_BYTE -/

theorem carries.params {s u : State} (h : carries s u) : u.params = s.params := h.1

/-- Settles O28: the two transactions of `move`, then the WRITE at the position it leaves in the cursor. -/
theorem plotByteStoresAtPosition : Obligations.PlotByteStoresAtPosition := by
  intro x y d s hi hs
  refine ⟨congrArg (· ++ drawByteTxs d) (moveTxs_eq s.params x.toNat y.toNat), ?_⟩
  obtain ⟨v, hctlV, hlbV, hresV, hcarV, hrunV⟩ :=
    runTxs_move x.toNat y.toNat (s := requestTaken ⟨0x3, x, y, d⟩ s) hs 0 (drawByteTxs d)
  obtain ⟨u, hctl, hlb, hres, hcar, hrun⟩ := runTxs_write d hcarV.prompt 2 []
  rw [hctlV, hcarV.params] at hctl
  obtain ⟨h, hdone⟩ := acceptOperation_done (k := .write) hi hs.1 (hcarV.trans hcar) (by rw [hctl]; exact ⟨rfl, rfl, rfl⟩)
    (hrunV.trans hrun)
  obtain ⟨hget, hcells⟩ := cells_of_put (s := s) (t := finish u) (congrArg Ctl.mem hctl)
  exact ⟨finish u, h, hdone, by rw [finish_ctl, hctl, BitVec.ofNat_add]; rfl, hget, hcells, hlb.trans hlbV,
    hres.trans hresV⟩

/-! ### PLOT_PIXEL -/

/-- A bit command by a prompt SEQ: some byte, the one at the cursor where that has been written, is changed and stored there, and
the cursor advances if BITOP_ADVANCE (41_controller_commands.md R160, R161). -/
theorem runTxs_bitOp {k : Command} (hk : k ≠ .read) {d : Byte} {f : Byte → Byte}
    (he : ∀ w, ctlExec k d w = ctlBitOp f w) {s : State} (hs : prompt s) (i : Nat) (ts : List Tx) :
    ∃ b u, (∀ v, s.ctl.mem.get (memMap s.params s.ctl.cur) = some v → b = v) ∧
      u.ctl = { s.ctl with
        mem := s.ctl.mem.put (memMap s.params s.ctl.cur) (f b)
        cur := if s.params.bitopAdvance then s.ctl.cur + 1 else s.ctl.cur
        ir := codeOf k, bf := true, phaseDone := true } ∧
      u.lb = s.lb ∧ u.res = s.res ∧ carries s u ∧ runTxs i (sendOf k d :: ts) s = runTxs (i + 1) ts u := by
  obtain ⟨w, u, hw, hp, hu, hlb, hres, hcar, hrun⟩ := runTxs_send hk d hs i ts
  obtain ⟨b, hb, hctl⟩ := ctlBitOp_ctl f w
  rw [hw, hp] at hb hctl
  exact ⟨b, u, hb, by rw [hu, he, hctl], hlb, hres, hcar, hrun⟩

/-- What PLOT_PIXEL makes of a byte: bit `n` takes the state `d` (43_framebuffer_ops.md R193). -/
def withPixel (d : Byte) (n : Nat) (b : Byte) : Byte := if d = 1 then withBitSet b n else withBitClear b n

theorem withPixel_bits (d b : Byte) {n : Nat} (hn : n < 8) :
    (withPixel d n b).getLsbD n = decide (d = 1) ∧ ∀ j, j < 8 → j ≠ n → (withPixel d n b).getLsbD j = b.getLsbD j := by
  by_cases h : d = 1
  · rw [withPixel, if_pos h, decide_eq_true h]
    exact withBitSet_bits b hn
  · rw [withPixel, if_neg h, decide_eq_false h]
    exact withBitClear_bits b hn

/-- The bit operand names bit `x mod 8` (30_encoding.md R97). -/
theorem bitNumber_bitOperand (x : Nat) : bitNumber (bitOperand x) = x % 8 := by
  rw [bitNumber, bitOperand, BitVec.toNat_ofNat]
  omega

/-- The bit command of PLOT_PIXEL on CTL. -/
theorem ctlExec_pixel (d : Byte) (x : Nat) (s : State) :
    ctlExec (if d = 1 then .setBit else .clearBit) (bitOperand x) s = ctlBitOp (withPixel d (x % 8)) s := by
  rw [← bitNumber_bitOperand x]
  unfold withPixel
  by_cases h : d = 1
  · simp only [if_pos h]
    rfl
  · simp only [if_neg h]
    rfl

/-- The last transaction of PLOT_PIXEL by its code (43_framebuffer_ops.md R193). -/
theorem sendOf_pixel (d b : Byte) :
    sendOf (if d = 1 then .setBit else .clearBit) b = .send (if d = 1 then 0xF else 0xE) b := by
  by_cases h : d = 1
  · rw [if_pos h, if_pos h]
    rfl
  · rw [if_neg h, if_neg h]
    rfl

/-- Settles O29: the two transactions of `move`, then a bit command at the position it leaves in the cursor. -/
theorem plotPixelChangesOneBit : Obligations.PlotPixelChangesOneBit := by
  intro x y d s hi hs hd
  refine ⟨congrArg₂ (· ++ [·]) (moveTxs_eq s.params x.toNat y.toNat) (sendOf_pixel d (bitOperand x.toNat)), ?_⟩
  obtain ⟨v, hctlV, hlbV, hresV, hcarV, hrunV⟩ :=
    runTxs_move x.toNat y.toNat (s := requestTaken ⟨0x4, x, y, d⟩ s) hs 0
      [sendOf (if d = 1 then .setBit else .clearBit) (bitOperand x.toNat)]
  have hk : (if d = 1 then Command.setBit else .clearBit) ≠ .read := by split <;> nofun
  obtain ⟨b, u, hb, hctl, hlb, hres, hcar, hrun⟩ := runTxs_bitOp hk (ctlExec_pixel d x.toNat) hcarV.prompt 2 []
  rw [hctlV, hcarV.params] at hb hctl
  obtain ⟨h, hdone⟩ := acceptOperation_done hi hs.1 (hcarV.trans hcar) (by rw [hctl]; exact ⟨rfl, rfl, rfl⟩)
    (hrunV.trans hrun)
  obtain ⟨hget, hcells⟩ := cells_of_put (s := s) (t := finish u) (congrArg Ctl.mem hctl)
  obtain ⟨hbit, hrest⟩ := withPixel_bits d b (Nat.mod_lt x.toNat (by omega))
  refine ⟨finish u, _, ((exec_plotPixel hi hd).trans (if_pos hi).symm).trans h, hdone, ?ctl, hget, hbit,
    fun c hc => hb c hc ▸ hrest, hcells, hlb.trans hlbV, hres.trans hresV⟩
  rw [finish_ctl, hctl]
  cases hadv : s.params.bitopAdvance with
  | true => simp [requestTaken, hadv, BitVec.ofNat_add]
  | false => simp [requestTaken, hadv]

/-! ### CLEAR -/

/-- CLEAR's list by its codes (43_framebuffer_ops.md R194). -/
theorem clearTxs_eq (p : Params) :
    clearTxs p = .send 0xA 0 :: .send 0xB 0 :: List.replicate (surfaceBytes p) (.send 0xC 0) := by
  have hpos : pos p 0 0 = 0 := by simp [pos]
  have hmove : moveTxs p 0 0 = [.send 0xA 0, .send 0xB 0] := by rw [moveTxs_eq, hpos]; rfl
  rw [clearTxs, hmove]
  rfl

/-- Settles O30: `move(0, 0)` (`runTxs_move`), then the zeros of the whole surface (`runTxs_zeros`). -/
theorem clearZeroesSurface : Obligations.ClearZeroesSurface := by
  intro x y d s hp hi hs
  refine ⟨clearTxs_eq s.params, ?_⟩
  obtain ⟨-, hsurface, hbpr, hheight, hmax⟩ := surfaceBytes_eq hp
  obtain ⟨n, hn⟩ : ∃ n, surfaceBytes s.params = n + 1 :=
    Nat.exists_eq_succ_of_ne_zero (by rw [hsurface]; exact (Nat.mul_pos hbpr hheight).ne')
  obtain ⟨v, hctlV, hlbV, hresV, hcarV, hrunV⟩ :=
    runTxs_move 0 0 (s := requestTaken ⟨0x5, x, y, d⟩ s) hs 0 (zeroTxs (surfaceBytes s.params))
  have hcurV : v.ctl.cur = 0#16 := by simp [hctlV, pos]
  have hparamsV : v.params = s.params := hcarV.params
  obtain ⟨u, hctl, hmem, hlb, hres, hcar, hrun⟩ := runTxs_zeros n hcarV.prompt (by rw [hparamsV]; exact hmax)
    (by rw [hparamsV, hcurV, hn]; simp) 2 []
  rw [hcurV, hctlV] at hmem
  rw [hcurV, hctlV, BitVec.zero_add, ← hn] at hctl
  rw [← hn, List.append_nil] at hrun
  obtain ⟨h, hdone⟩ := acceptOperation_done (k := .write) hi hs.1 (hcarV.trans hcar) (by rw [hctl]; exact ⟨rfl, rfl, rfl⟩)
    (hrunV.trans hrun)
  refine ⟨finish u, h, hdone, by rw [finish_ctl, hctl]; rfl, fun a ha => ?_, fun a ha => ?_, hlb.trans hlbV,
    hres.trans hresV⟩
  · exact (hmem a).trans (if_pos ⟨Nat.zero_le a, by simpa [← hn] using ha⟩)
  · exact (hmem a).trans (if_neg (by simpa [← hn] using ha))

/-- After an operation a prompt CTL is prompt, SEQ idle, and the parameters are as they were. -/
theorem operationDone.idle_prompt {k : Command} {opc : BitVec 4} {x y : BitVec 16} {d : Byte} {s t : State}
    (h : operationDone k opc x y d s t) (hs : prompt s) : t.seqst = .idle ∧ prompt t ∧ t.params = s.params := by
  obtain ⟨-, -, -, -, ⟨hi, -, -⟩, hparams, -, hresponsive, hturns⟩ := h
  exact ⟨hi, ⟨hturns.trans hs.1, hresponsive.trans hs.2⟩, hparams⟩

/-- Settles O31 by O30 twice: the second list is of the same parameters, and what either leaves rests on no surface byte. -/
theorem clearIsIdempotent : Obligations.ClearIsIdempotent := by
  intro x y x' y' d d' s hp hi hs
  obtain ⟨-, t, ht, hdone, hctlT, hzeroT, hkeepT, -⟩ := clearZeroesSurface x y d s hp hi hs
  obtain ⟨hiT, hsT, hparams⟩ := hdone.idle_prompt hs
  obtain ⟨htxs, u, hu, -, hctlU, hzeroU, hkeepU, -⟩ := clearZeroesSurface x' y' d' t (by rw [hparams]; exact hp) hiT hsT
  rw [hparams] at htxs hctlU hzeroU hkeepU
  refine ⟨t, u, ht, hu, by rw [hparams]; rfl, ?length, fun a => ?cells, hzeroU, by rw [hctlU, hctlT]⟩
  case length => rw [hparams, htxs, List.length_cons, List.length_cons, List.length_replicate, Nat.add_comm 2]
  case cells =>
    rcases Nat.lt_or_ge a (surfaceBytes s.params) with ha | ha
    · rw [hzeroU a ha, hzeroT a ha]
    · exact hkeepU a ha

/-! ### INIT -/

/-- The commands that store their operand in a register of CTL. -/
def registerCommand : Command → Bool
  | .write | .read | .clearBit | .setBit => false
  | _ => true

/-- CTL after the transaction of a register command, MODE having come (41_controller_commands.md R150 to R157). -/
def afterLoad (c : Ctl) (q : Command × Byte) : Ctl :=
  let c := { c with ir := codeOf q.1, bf := true, phaseDone := true }
  match q.1 with
  | .mode => { c with mode := q.2, modeSeen := true }
  | .pitch => { c with pitch := q.2 }
  | .nchr => { c with nchr := q.2 }
  | .tdiv => { c with tdiv := q.2 }
  | .startLo => { c with start := setLo c.start q.2 }
  | .startHi => { c with start := setHi c.start q.2 }
  | .curLo => { c with cur := setLo c.cur q.2 }
  | .curHi => { c with cur := setHi c.cur q.2 }
  | _ => c

theorem afterLoad_modeSeen {c : Ctl} {q : Command × Byte} (h : q.1 = .mode ∨ c.modeSeen = true) :
    (afterLoad c q).modeSeen = true := by
  obtain ⟨k, d⟩ := q
  cases k with
  | mode => rfl
  | _ => exact h.resolve_left nofun

/-- A register command by a prompt SEQ: MODE itself, or any of them once MODE has come (43_framebuffer_ops.md R196). -/
theorem runTxs_load {k : Command} (hk : registerCommand k = true) (d : Byte) {s : State} (hs : prompt s)
    (hm : k = .mode ∨ s.ctl.modeSeen = true) (i : Nat) (ts : List Tx) :
    ∃ u, u.ctl = afterLoad s.ctl (k, d) ∧ u.lb = s.lb ∧ u.res = s.res ∧ carries s u ∧
      runTxs i (sendOf k d :: ts) s = runTxs (i + 1) ts u := by
  have hread : k ≠ .read := by rintro rfl; cases hk
  obtain ⟨w, u, hw, -, hu, hlb, hres, hcar, hrun⟩ := runTxs_send hread d hs i ts
  have hgeo (hseen : s.ctl.modeSeen = true) (f : Ctl → Ctl) : (geometryStore w f).ctl = f w.ctl :=
    geometryStore_ctl_of_modeSeen (by rw [hw]; exact hseen) f
  refine ⟨u, ?_, hlb, hres, hcar, hrun⟩
  rw [hu]
  cases k with
  | pitch => simp [ctlExec, ctlPitch, afterLoad, hgeo (hm.resolve_left nofun), hw]
  | nchr => simp [ctlExec, ctlNchr, afterLoad, hgeo (hm.resolve_left nofun), hw]
  | tdiv => simp [ctlExec, ctlTdiv, afterLoad, hgeo (hm.resolve_left nofun), hw]
  | mode => simp [ctlExec, ctlMode, afterLoad, hw]
  | startLo => simp [ctlExec, ctlStartLo, afterLoad, hw]
  | startHi => simp [ctlExec, ctlStartHi, afterLoad, hw]
  | curLo => simp [ctlExec, ctlCurLo, afterLoad, hw]
  | curHi => simp [ctlExec, ctlCurHi, afterLoad, hw]
  | write | read | clearBit | setBit => cases hk

/-- A list of register commands by a prompt SEQ, of which MODE is the first unless it has come before. -/
theorem runTxs_loads (l : List (Command × Byte)) : ∀ {q : Command × Byte} {s : State},
    (∀ r ∈ q :: l, registerCommand r.1 = true) → prompt s → q.1 = .mode ∨ s.ctl.modeSeen = true → ∀ i,
    ∃ u, u.ctl = (q :: l).foldl afterLoad s.ctl ∧ u.lb = s.lb ∧ u.res = s.res ∧ carries s u ∧
      runTxs i ((q :: l).map fun r => sendOf r.1 r.2) s = .next (finish u) := by
  induction l with
  | nil => exact fun hl hs hm i => runTxs_load (hl _ (by simp)) _ hs hm i []
  | cons r l ih =>
    intro q s hl hs hm i
    obtain ⟨t, hctlT, hlbT, hresT, hcarT, hrunT⟩ :=
      runTxs_load (hl q (by simp)) q.2 hs hm i ((r :: l).map fun r => sendOf r.1 r.2)
    obtain ⟨u, hctl, hlb, hres, hcar, hrun⟩ := ih (fun p hp => hl p (.tail q hp)) hcarT.prompt
      (.inr (hctlT ▸ afterLoad_modeSeen hm)) (i + 1)
    exact ⟨u, by rw [hctl, hctlT]; rfl, hlb.trans hlbT, hres.trans hresT, hcarT.trans hcar, hrunT.trans hrun⟩

/-- The commands of INIT after MODE, and their operands (43_framebuffer_ops.md R195). -/
def initLoads (p : Params) : List (Command × Byte) :=
  [(.pitch, p.initPitch), (.nchr, nchrOperand p), (.tdiv, p.initTdiv), (.startLo, 0), (.startHi, 0), (.curLo, 0), (.curHi, 0)]

/-- Settles O32: INIT's list is MODE and then register commands (`runTxs_loads`). -/
theorem initConfigures : Obligations.InitConfigures := by
  intro x y d s hi hs
  refine ⟨rfl, ?_⟩
  have hregisters : ∀ r ∈ (.mode, s.params.initMode) :: initLoads s.params, registerCommand r.1 = true := by
    simp [initLoads, registerCommand]
  obtain ⟨u, hctl, hlb, hres, hcar, hrun⟩ :=
    runTxs_loads (initLoads s.params) (s := requestTaken ⟨0x0, x, y, d⟩ s) hregisters hs (.inl rfl) 0
  obtain ⟨h, hdone⟩ := acceptOperation_done (k := .curHi) hi hs.1 hcar (by rw [hctl]; exact ⟨rfl, rfl, rfl⟩) hrun
  refine ⟨finish u, h, hdone, ?_, hlb, hres⟩
  rw [finish_ctl, hctl]
  simp [initLoads, afterLoad, requestTaken, nchrOperand]

/-! ### A plotted byte read back -/

/-- Settles O36 by O28, O24 and O27: MOVE leaves in the cursor the position that PLOT_BYTE stored at. -/
theorem plottedByteReadsBack : Obligations.PlottedByteReadsBack := by
  intro x y x' y' b d d' s hi hs
  obtain ⟨-, t, ht, hdoneT, -, hstored, -⟩ := plotByteStoresAtPosition x y b s hi hs
  obtain ⟨hiT, hsT, hparamsT⟩ := hdoneT.idle_prompt hs
  obtain ⟨-, u, hu, hdoneU, hctlU, -⟩ := moveSetsCursor x y d t hiT hsT
  obtain ⟨hiU, hsU, hparamsU⟩ := hdoneU.idle_prompt hsT
  obtain ⟨-, v, hv, -, -, hread, -⟩ := readByteLoadsResult x' y' d' u hiU hsU
  refine ⟨t, u, v, ht, hu, hv, hread b ?_⟩
  rw [hctlU, hparamsU, hparamsT]
  exact hstored

end Sys2Proof.Machine
end

section
/-! PROOFS of the family 44_scroll_engine.md: SCROLL_UP by 0 (O33), by HEIGHT or more (O34), and by less (O35), whose list is run
stretch by stretch: a row into the line buffer, the line buffer to a row, the rows in turn, the blank rows. -/

namespace Sys2Proof.Machine

/-! ### SCROLL_UP by 0, and by HEIGHT or more -/

/-- Settles O33: the list is empty, and an idle SEQ that takes up an empty list stays idle. -/
theorem scrollUpZeroDoesNothing : Obligations.ScrollUpZeroDoesNothing := by
  intro x d s hi
  have hidle : { s with seqst := SeqState.idle } = s := by rw [← hi]
  calc exec (.scrollUp x 0 d) s = startList [] { s with latch := ⟨0x7, x, 0, d⟩, rawTx := none } := if_pos hi
    _ = .next { { s with seqst := .idle } with latch := ⟨0x7, x, 0, d⟩, rawTx := none } := rfl
    _ = .next { s with latch := ⟨0x7, x, 0, d⟩, rawTx := none } := by rw [hidle]

/-- By HEIGHT or more, no row is relocated and the blank rows are the whole surface (44_scroll_engine.md R214). -/
theorem scrollUpTxs_eq_clearTxs {p : Params} (hp : paramsOk p = true) {n : Nat} (hn : p.height ≤ n) :
    scrollUpTxs p n = clearTxs p := by
  obtain ⟨-, hsurface, -, hheight, -⟩ := surfaceBytes_eq hp
  have hrelocate : relocateTxs p n = [] := by rw [relocateTxs, Nat.sub_eq_zero_of_le hn]; rfl
  have hblank : blankTxs p n = clearTxs p := by
    rw [blankTxs, Nat.min_eq_right hn, Nat.sub_self, Nat.mul_comm, ← hsurface]
    rfl
  rw [scrollUpTxs, if_neg (by omega), hrelocate, hblank, List.nil_append]

/-- Settles O34: the two requests have one transaction list. -/
theorem scrollUpByHeightIsClear : Obligations.ScrollUpByHeightIsClear := by
  intro x y x' y' d d' l s hp hy
  have h : exec (.scrollUp x y d) s = acceptOperation 7 x y d (clearTxs s.params) s :=
    congrArg (acceptOperation 7 x y d · s) (scrollUpTxs_eq_clearTxs hp hy)
  rw [h]
  exact acceptOperation_latch_congr 7 5 x y x' y' d d' l (clearTxs s.params) s

/-! ### A stretch of a list -/

/-- A prompt SEQ between two transactions of its list, its parameters being `p`: the lines are in the idle condition
(40_bus_transport.md R125), and the line buffer has BPR bytes (10_state.md R34). -/
structure BetweenTxs (p : Params) (s : State) : Prop where
  legal : paramsOk p = true
  params : s.params = p
  prompt : prompt s
  pins : ∃ o, s.pins = Pins.idle o
  lbLength : s.lb.length = bpr p

/-- SEQ carries out the transactions `l` of its list, `i` being the index of the first and `ts` what is left of the list after
them: of CTL only the cursor, memory and what every transaction leaves may have changed, and RES has not. -/
structure Stretch (l ts : List Tx) (i : Nat) (s u : State) : Prop where
  run : runTxs i (l ++ ts) s = runTxs (i + l.length) ts u
  carried : carries s u
  ctl : u.ctl = { s.ctl with
    mem := u.ctl.mem, cur := u.ctl.cur, ir := u.ctl.ir, bf := u.ctl.bf, phaseDone := u.ctl.phaseDone }
  lbLength : u.lb.length = s.lb.length
  res : u.res = s.res

section
variable {p : Params} {s t u : State} {l l' ts : List Tx} {i : Nat}

theorem Stretch.nil (hs : BetweenTxs p s) : Stretch [] ts i s s where
  run := rfl
  carried := ⟨rfl, rfl, rfl, rfl, rfl, rfl, hs.prompt, hs.pins⟩
  ctl := rfl
  lbLength := rfl
  res := rfl

theorem Stretch.trans (h : Stretch l (l' ++ ts) i s t) (h' : Stretch l' ts (i + l.length) t u) :
    Stretch (l ++ l') ts i s u where
  run := by rw [List.append_assoc, h.run, h'.run, List.length_append, Nat.add_assoc]
  carried := h.carried.trans h'.carried
  ctl := h'.ctl.trans (by rw [h.ctl])
  lbLength := h'.lbLength.trans h.lbLength
  res := h'.res.trans h.res

theorem BetweenTxs.after (hs : BetweenTxs p s) (h : Stretch l ts i s u) : BetweenTxs p u := by
  obtain ⟨hparams, -, -, -, -, -, hprompt, hpins⟩ := h.carried
  exact ⟨hs.legal, hparams.trans hs.params, hprompt, hpins, h.lbLength.trans hs.lbLength⟩

/-- The cursor at a surface byte selects that byte (20_memory.md R69). -/
theorem BetweenTxs.memMap_eq (hs : BetweenTxs p s) {a : Nat} (ha : a < surfaceBytes p) :
    memMap s.params (BitVec.ofNat 16 a) = a := by
  obtain ⟨-, -, -, -, hmax⟩ := surfaceBytes_eq hs.legal
  have h : (BitVec.ofNat 16 a).toNat = a := Nat.mod_eq_of_lt (by omega)
  rw [memMap_surface (by rw [h, hs.params]; exact ha), h]

/-! ### The transactions of SCROLL_UP as stretches -/

/-- `move(0, j)`: the cursor is at the first byte of row `j` (44_scroll_engine.md R211). -/
theorem stretch_moveRow (hs : BetweenTxs p s) (j i : Nat) (ts : List Tx) :
    ∃ u, Stretch (moveTxs p 0 j) ts i s u ∧ u.ctl.cur = BitVec.ofNat 16 (j * bpr p) ∧ u.ctl.mem = s.ctl.mem ∧
      u.lb = s.lb := by
  obtain ⟨u, hctl, hlb, hres, hcar, hrun⟩ := runTxs_move 0 j hs.prompt i ts
  rw [hs.params, pos_row hs.legal] at hctl
  rw [hs.params] at hrun
  exact ⟨u, ⟨hrun, hcar, by rw [hctl], by rw [hlb], hres⟩, by rw [hctl], by rw [hctl], hlb⟩

/-- `LB[k] <- receive()` with the cursor at surface byte `a` (44_scroll_engine.md R211). -/
theorem stretch_recvLb (hs : BetweenTxs p s) {a : Nat} (ha : a < surfaceBytes p) (hcur : s.ctl.cur = BitVec.ofNat 16 a)
    (k i : Nat) (ts : List Tx) :
    ∃ v u, Stretch [.recvLb k] ts i s u ∧ u.ctl.cur = BitVec.ofNat 16 (a + 1) ∧ u.ctl.mem = s.ctl.mem ∧
      u.lb = s.lb.set k v ∧ ∀ b, s.ctl.mem.get a = some b → v = b := by
  obtain ⟨v, u, hctl, hwritten, -, -, hbuffer, hcar, hrun⟩ := runTxs_receive hs.prompt (.inr ⟨k, rfl⟩) i ts
  obtain ⟨hlb, hres⟩ := hbuffer k rfl
  rw [hcur, hs.memMap_eq ha] at hwritten
  exact ⟨v, u, ⟨hrun, hcar, by rw [hctl], by rw [hlb, List.length_set], hres⟩, by rw [hctl, hcur, BitVec.ofNat_add]; rfl,
    by rw [hctl], hlb, hwritten⟩

/-- `draw_byte(LB[k])` with the cursor at surface byte `a` (44_scroll_engine.md R211). -/
theorem stretch_sendLb (hs : BetweenTxs p s) {a : Nat} (ha : a < surfaceBytes p) (hcur : s.ctl.cur = BitVec.ofNat 16 a)
    (k i : Nat) (ts : List Tx) :
    ∃ u, Stretch [.sendLb k] ts i s u ∧ u.ctl.cur = BitVec.ofNat 16 (a + 1) ∧
      u.ctl.mem = s.ctl.mem.put a (s.lb.getD k 0) ∧ u.lb = s.lb := by
  obtain ⟨u, hctl, hlb, hres, hcar, hrun⟩ := runTxs_write (s.lb.getD k 0) hs.prompt i ts
  rw [hcur, hs.memMap_eq ha] at hctl
  exact ⟨u, ⟨(runTxs_sendLb k hs.prompt i ts).trans hrun, hcar, by rw [hctl], by rw [hlb], hres⟩,
    by rw [hctl, BitVec.ofNat_add]; rfl, by rw [hctl], hlb⟩

/-- The first `m` receives of a row that begins at surface byte `a`: LB takes the bytes that something has written
(44_scroll_engine.md R211). -/
theorem stretch_receiveRow (hs : BetweenTxs p s) {a : Nat} (hcur : s.ctl.cur = BitVec.ofNat 16 a) {m : Nat}
    (ha : a + m ≤ surfaceBytes p) (hm : m ≤ bpr p) (i : Nat) :
    ∀ ts, ∃ u, Stretch ((List.range m).map .recvLb) ts i s u ∧ u.ctl.cur = BitVec.ofNat 16 (a + m) ∧
      u.ctl.mem = s.ctl.mem ∧ ∀ k, k < m → ∀ v, s.ctl.mem.get (a + k) = some v → u.lb.getD k 0 = v := by
  induction m with
  | zero => exact fun ts => ⟨s, .nil hs, hcur, rfl, fun k hk => absurd hk (Nat.not_lt_zero k)⟩
  | succ m ih =>
    intro ts
    obtain ⟨t, ht, hcurT, hmemT, hlbT⟩ := ih (by omega) (by omega) (.recvLb m :: ts)
    obtain ⟨v, u, hu, hcurU, hmemU, hlbU, hv⟩ := stretch_recvLb (hs.after ht) (by omega) hcurT m _ ts
    have hlength : m < t.lb.length := by rw [(hs.after ht).lbLength]; exact hm
    rw [List.range_succ, List.map_append]
    refine ⟨u, ht.trans hu, hcurU, hmemU.trans hmemT, fun k hk w hw => ?_⟩
    rw [hlbU, List.getD_eq_getElem?_getD]
    rcases Nat.lt_succ_iff_lt_or_eq.1 hk with hk | rfl
    · rw [List.getElem?_set_ne (by omega), ← List.getD_eq_getElem?_getD]
      exact hlbT k hk w hw
    · rw [List.getElem?_set_self hlength]
      exact hv w (hmemT ▸ hw)

/-- The first `m` writes of the line buffer to a row that begins at surface byte `a` (44_scroll_engine.md R211). -/
theorem stretch_sendRow (hs : BetweenTxs p s) {a : Nat} (hcur : s.ctl.cur = BitVec.ofNat 16 a) {m : Nat}
    (ha : a + m ≤ surfaceBytes p) (i : Nat) :
    ∀ ts, ∃ u, Stretch ((List.range m).map .sendLb) ts i s u ∧ u.ctl.cur = BitVec.ofNat 16 (a + m) ∧ u.lb = s.lb ∧
      ∀ b, u.ctl.mem.get b = if a ≤ b ∧ b < a + m then some (s.lb.getD (b - a) 0) else s.ctl.mem.get b := by
  induction m with
  | zero => exact fun ts => ⟨s, .nil hs, hcur, rfl, fun b => (if_neg (by omega)).symm⟩
  | succ m ih =>
    intro ts
    obtain ⟨t, ht, hcurT, hlbT, hmemT⟩ := ih (by omega) (.sendLb m :: ts)
    obtain ⟨u, hu, hcurU, hmemU, hlbU⟩ := stretch_sendLb (hs.after ht) (by omega) hcurT m _ ts
    rw [List.range_succ, List.map_append]
    refine ⟨u, ht.trans hu, hcurU, hlbU.trans hlbT, fun b => ?_⟩
    rw [hmemU, Memory.get_put, hmemT, hlbT]
    by_cases hb : b = a + m
    · rw [if_pos hb, if_pos (by omega), hb, Nat.add_sub_cancel_left]
    · rw [if_neg hb]
      exact if_congr (by omega) rfl rfl

/-! ### The relocation pass -/

/-- The bytes from `lo` up to `hi` hold what the bytes `off` further on held, some byte where nothing had written those, and every
other byte is as it was (44_scroll_engine.md R218). -/
def movedDown (off lo hi : Nat) (s t : State) : Prop :=
  (∀ a, lo ≤ a → a < hi →
    (∃ v, t.ctl.mem.get a = some v) ∧ ∀ v, s.ctl.mem.get (a + off) = some v → t.ctl.mem.get a = some v) ∧
  ∀ a, a < lo ∨ hi ≤ a → t.ctl.mem.get a = s.ctl.mem.get a

/-- Two ranges moved in rising order are moved as one: no byte the second takes lies in the first. -/
theorem movedDown.trans {off lo mid hi : Nat} (h : movedDown off lo mid s t) (h' : movedDown off mid hi t u)
    (hlo : lo ≤ mid) (hhi : mid ≤ hi) : movedDown off lo hi s u := by
  obtain ⟨hmoved, hrest⟩ := h
  obtain ⟨hmoved', hrest'⟩ := h'
  refine ⟨fun a hla hah => ?_, fun a ha => ?_⟩
  · rcases Nat.lt_or_ge a mid with hm | hm
    · rw [hrest' a (.inl hm)]
      exact hmoved a hla hm
    · rw [← hrest (a + off) (.inr (by omega))]
      exact hmoved' a hm hah
  · rw [hrest' a (by omega), hrest a (by omega)]

/-- The first `j` rows lie on the surface. -/
theorem rows_le_surfaceBytes (hp : paramsOk p = true) {j : Nat} (hj : j ≤ p.height) : j * bpr p ≤ surfaceBytes p := by
  obtain ⟨-, hsurface, -⟩ := surfaceBytes_eq hp
  rw [hsurface, Nat.mul_comm]
  exact Nat.mul_le_mul_left _ hj

/-- One iteration of the relocation pass: row `j` takes row `j + n` (44_scroll_engine.md R211). -/
theorem stretch_relocateRow (hs : BetweenTxs p s) {n j : Nat} (hj : j + n < p.height) (i : Nat) (ts : List Tx) :
    ∃ u, Stretch (relocateRowTxs p n j) ts i s u ∧ movedDown (n * bpr p) (j * bpr p) ((j + 1) * bpr p) s u := by
  have hsource := rows_le_surfaceBytes hs.legal hj
  rw [Nat.succ_mul, Nat.add_mul] at hsource
  obtain ⟨t, ht, hcurT, hmemT, -⟩ := stretch_moveRow hs (j + n) i
    ((List.range (bpr p)).map .recvLb ++ (moveTxs p 0 j ++ ((List.range (bpr p)).map .sendLb ++ ts)))
  have hsT := hs.after ht
  obtain ⟨v, hv, -, hmemV, hlbV⟩ := stretch_receiveRow hsT hcurT (by rw [Nat.add_mul]; exact hsource) le_rfl _
    (moveTxs p 0 j ++ ((List.range (bpr p)).map .sendLb ++ ts))
  have hsV := hsT.after hv
  obtain ⟨w, hw, hcurW, hmemW, hlbW⟩ := stretch_moveRow hsV j _ ((List.range (bpr p)).map .sendLb ++ ts)
  obtain ⟨u, hu, -, -, hmemU⟩ := stretch_sendRow (hsV.after hw) hcurW (m := bpr p) (by omega) _ ts
  refine ⟨u, ((ht.trans hv).trans hw).trans hu, fun a hlo hhi => ?moved, fun a ha => ?kept⟩
  case moved =>
    rw [Nat.succ_mul] at hhi
    have hsourceByte : (j + n) * bpr p + (a - j * bpr p) = a + n * bpr p := by rw [Nat.add_mul]; omega
    rw [hmemU, if_pos ⟨hlo, hhi⟩, hlbW]
    refine ⟨⟨_, rfl⟩, fun b hb => congrArg some (hlbV (a - j * bpr p) (by omega) b ?_)⟩
    rw [hmemT, hsourceByte, hb]
  case kept =>
    rw [Nat.succ_mul] at ha
    rw [hmemU, if_neg (by omega), hmemW, hmemV, hmemT]

/-- The relocation pass up to row `m`, rows ascending (44_scroll_engine.md R211). -/
theorem stretch_relocateRows (hs : BetweenTxs p s) {n m : Nat} (hm : m + n ≤ p.height) (i : Nat) :
    ∀ ts, ∃ u, Stretch ((List.range m).flatMap (relocateRowTxs p n)) ts i s u ∧
      movedDown (n * bpr p) 0 (m * bpr p) s u := by
  induction m with
  | zero => exact fun ts => ⟨s, .nil hs, fun a _ ha => absurd ha (by omega), fun _ _ => rfl⟩
  | succ m ih =>
    intro ts
    obtain ⟨t, ht, hmovedT⟩ := ih (by omega) (relocateRowTxs p n m ++ ts)
    obtain ⟨u, hu, hmovedU⟩ := stretch_relocateRow (hs.after ht) (n := n) (j := m) (by omega) _ ts
    rw [List.range_succ, List.flatMap_append, List.flatMap_singleton]
    exact ⟨u, ht.trans hu, hmovedT.trans hmovedU (Nat.zero_le _) (Nat.mul_le_mul_right _ m.le_succ)⟩

/-! ### The blank pass -/

/-- The blank pass (44_scroll_engine.md R212): the last `n` rows are 0, and the cursor is at the end of the surface. -/
theorem stretch_blank (hs : BetweenTxs p s) {n : Nat} (hn : 0 < n) (hheight : n ≤ p.height) (i : Nat) (ts : List Tx) :
    ∃ u, Stretch (blankTxs p n) ts i s u ∧ u.ctl.cur = BitVec.ofNat 16 (surfaceBytes p) ∧
      (u.ctl.ir = codeOf .write ∧ u.ctl.bf = true ∧ u.ctl.phaseDone = true) ∧
      ∀ a, u.ctl.mem.get a =
        if (p.height - n) * bpr p ≤ a ∧ a < surfaceBytes p then some 0 else s.ctl.mem.get a := by
  obtain ⟨-, hsurface, hbpr, -, hmax⟩ := surfaceBytes_eq hs.legal
  have hend : (p.height - n) * bpr p + n * bpr p = surfaceBytes p := by
    rw [← Nat.add_mul, Nat.sub_add_cancel hheight, Nat.mul_comm, hsurface]
  obtain ⟨m, hm⟩ : ∃ m, n * bpr p = m + 1 := Nat.exists_eq_succ_of_ne_zero (Nat.mul_pos hn hbpr).ne'
  obtain ⟨t, ht, hcurT, hmemT, -⟩ := stretch_moveRow hs (p.height - n) i (zeroTxs (m + 1) ++ ts)
  have hsT := hs.after ht
  have hcurNat : t.ctl.cur.toNat = (p.height - n) * bpr p := by
    rw [hcurT]
    exact Nat.mod_eq_of_lt (by omega)
  obtain ⟨u, hctl, hmem, hlb, hres, hcar, hrun⟩ := runTxs_zeros m hsT.prompt (by rw [hsT.params]; exact hmax)
    (by rw [hsT.params, hcurNat]; omega) (i + 2) ts
  have hzeros : Stretch (zeroTxs (m + 1)) ts (i + 2) t u :=
    ⟨by rw [hrun, zeroTxs, List.length_replicate], hcar, by rw [hctl], by rw [hlb], hres⟩
  rw [blankTxs, Nat.min_eq_left hheight, hm]
  refine ⟨u, ht.trans hzeros, ?_, by rw [hctl]; exact ⟨rfl, rfl, rfl⟩, fun a => ?_⟩
  · rw [hctl, hcurT, ← hend, hm]
    exact (BitVec.ofNat_add ..).symm
  · rw [hmem, hcurNat, hmemT, ← hm, hend]

end

/-- Settles O35: the relocation pass moves the rows that stay, and the blank pass zeroes the rows that they leave. -/
theorem scrollUpShiftsRows : Obligations.ScrollUpShiftsRows := by
  intro x y d s hinv hi hs hpos hlt
  obtain ⟨hp, -, hlb, hseq⟩ := hinv
  rw [sequencerInv, hi] at hseq
  obtain ⟨-, hpins, -⟩ := hseq
  have hbegin : BetweenTxs s.params (requestTaken ⟨0x7, x, y, d⟩ s) := ⟨hp, rfl, hs, ⟨_, hpins⟩, hlb⟩
  obtain ⟨t, ht, hmovedT, hrestT⟩ := stretch_relocateRows hbegin (n := y.toNat) (m := s.params.height - y.toNat) (by omega) 0
    (blankTxs s.params y.toNat ++ [])
  obtain ⟨u, hu, hcur, hlast, hmem⟩ := stretch_blank (hbegin.after ht) hpos hlt.le _ []
  have hall := ht.trans hu
  have hrows : (s.params.height - y.toNat) * bpr s.params ≤ surfaceBytes s.params := rows_le_surfaceBytes hp (Nat.sub_le ..)
  have hlist : scrollUpTxs s.params y.toNat = relocateTxs s.params y.toNat ++ blankTxs s.params y.toNat := if_neg hpos.ne'
  have hrun := hall.run
  rw [List.append_nil] at hrun
  obtain ⟨h, hdone⟩ := acceptOperation_done (k := .write) hi hs.1 hall.carried hlast hrun
  refine ⟨finish u, (congrArg (acceptOperation 0x7 x y d · s) hlist).trans h, hdone, ?ctl, fun a ha => ?moved,
    fun a ha hmax => (hmem a).trans (if_pos ⟨ha, hmax⟩), fun a ha => ?above, hall.res⟩
  case ctl =>
    rw [finish_ctl, ← hcur]
    exact hall.ctl
  case moved =>
    have hkept : u.ctl.mem.get a = t.ctl.mem.get a := (hmem a).trans (if_neg (by omega))
    rw [finish_ctl, hkept]
    exact hmovedT a (Nat.zero_le a) ha
  case above => exact ((hmem a).trans (if_neg (by omega))).trans (hrestT a (.inr (hrows.trans ha)))

end Sys2Proof.Machine
end

section
/-! PROOFS of the family 60_exceptions.md: a request while SEQ is running (O39), the hang (O52), and that a host of operation
requests meets no protocol fault (O51), with the lemma that what operations leave, if anything, is again such a block. -/

namespace Sys2Proof.Machine

/-! ### A request while SEQ is running -/

theorem issueTransaction_of_not_idle {s : State} (hs : s.seqst ≠ .idle) (r : RawTx) :
    issueTransaction r s = .refused .busySequencer := if_neg hs

theorem acceptOperation_of_not_idle {s : State} (hs : s.seqst ≠ .idle) (opc : BitVec 4) (x y : BitVec 16) (d : Byte)
    (ts : List Tx) : acceptOperation opc x y d ts s = .refused .busySequencer := if_neg hs

theorem refuseReserved_of_not_idle {s : State} (hs : s.seqst ≠ .idle) : refuseReserved s = .refused .busySequencer :=
  if_neg hs

theorem busCycle_of_not_idle {s : State} (hs : s.seqst ≠ .idle) (rs rw : Bool) (dir : Dir) :
    busCycle rs rw dir s = .refused .busySequencer := if_neg hs

/-- PLOT_PIXEL looks at its pixel state only after it has found SEQ idle (60_exceptions.md R233). -/
theorem execPlotPixel_of_not_idle {s : State} (hs : s.seqst ≠ .idle) (x y : BitVec 16) (d : Byte) :
    execPlotPixel x y d s = .refused .busySequencer := by
  have hstate : ¬(s.seqst = .idle ∧ d ≠ 0 ∧ d ≠ 1) := fun h => hs h.1
  rw [execPlotPixel, if_neg hstate, acceptOperation_of_not_idle hs]

/-- Settles O39, by the level of the request: each finds SEQ running before anything else. -/
theorem requestWhileRunningRefused : Obligations.RequestWhileRunningRefused := by
  intro i n s hn
  have hs : s.seqst ≠ .idle := by simp [hn]
  cases i with
  | mode | pitch | nchr | tdiv | startLo | startHi | curLo | curHi | write | read | clearBit | setBit
  | reservedCmd4 | reservedCmd5 | reservedCmd6 | reservedCmd7 => exact issueTransaction_of_not_idle hs _
  | irw b | dwr b => exact busCycle_of_not_idle (s := drive b s) hs _ _ _
  | str | drd => exact busCycle_of_not_idle hs _ _ _
  | plotPixel x y d => exact execPlotPixel_of_not_idle hs x y d
  | init | move | drawByte | plotByte | clear | readByte | scrollUp => exact acceptOperation_of_not_idle hs _ _ _ _ _
  | reservedOp8 | reservedOp9 | reservedOpA | reservedOpB | reservedOpC | reservedOpD | reservedOpE | reservedOpF =>
    exact refuseReserved_of_not_idle hs

/-! ### The hang -/

/-- A step of a held SEQ whose CTL never completes is one more poll (60_exceptions.md R231), whether or not a turn is listed. -/
theorem held.step_eq {s : State} {i : Nat} (h : held i s) (hp : paramsOk s.params = true) (hr : s.responsive = false)
    (ht : ∀ m ∈ s.turns, m = .seq) : ∃ v n, step s = .next (withPolls s.pins v n s.turns.tail s) := by
  obtain ⟨hs, hpins, hb, hi⟩ := h
  obtain ⟨x, ts, hx⟩ := List.exists_cons_of_ne_nil (List.drop_eq_nil_iff.not.2 (Nat.not_le.2 hi))
  obtain ⟨hwhole, hturn⟩ := stepGoesOnWithRunningList s i hp hs
  obtain ⟨v, n, hpoll⟩ : ∃ v n, { poll s with seqst := .running i } = withPolls s.pins v n s.turns s :=
    ⟨_, _, by rw [poll_eq, ← hpins, ← hs]; rfl⟩
  refine ⟨v, n, ?_⟩
  cases hl : s.turns with
  | nil => rw [hwhole hl, hx, runTxs_held hb hr, hpoll, hl]; rfl
  | cons m l =>
    obtain rfl : m = .seq := ht m (by simp [hl])
    rw [hturn l hl, hx, seqStep_busy hb, hpoll]
    rfl

/-- However many steps it takes, a held SEQ whose CTL never completes has polled, and nothing more. -/
theorem held.run_eq {i : Nat} (k : Nat) : ∀ {s : State}, held i s → paramsOk s.params = true → s.responsive = false →
    (∀ m ∈ s.turns, m = .seq) → ∃ v n l, run k s = .next (withPolls s.pins v n l s) := by
  induction k with
  | zero => exact fun {s} _ _ _ _ => ⟨s.smp, s.samples, s.turns, rfl⟩
  | succ k ih =>
    intro s h hp hr ht
    obtain ⟨v, n, hstep⟩ := h.step_eq hp hr ht
    obtain ⟨v', n', l, hrun⟩ := ih (s := withPolls s.pins v n s.turns.tail s) h hp hr fun m hm =>
      ht m (List.mem_of_mem_tail hm)
    exact ⟨v', n', l, by rw [run_succ, hstep]; exact hrun⟩

/-- Settles O52, by induction on the steps (`held.run_eq`): polls change the sample, its count and the turns only. -/
theorem hangLastsForEver : Obligations.HangLastsForEver := by
  intro s i k hp h hr ht
  obtain ⟨v, n, l, hrun⟩ := h.run_eq k hp hr ht
  exact ⟨_, hrun, h, rfl, rfl, rfl, rfl, rfl, rfl, rfl, rfl, rfl⟩

/-! ### A host of operation requests meets no protocol fault -/

/-- No protocol fault, and what is left, if anything, is again a block whose host presents operation requests only
(60_exceptions.md R230). -/
def operationsSafe : Answer → Prop
  | .next t => operationsOnly t
  | .fault _ => False
  | .refused _ => True

theorem operationsSafe.andThen {o : Answer} {f : State → Answer} (h : operationsSafe o)
    (hf : ∀ t, operationsOnly t → operationsSafe (f t)) : operationsSafe (andThen o f) := by
  cases o with
  | next t => exact hf t h
  | fault r => exact h
  | refused r => trivial

/-- A run of SEQ that ends with no transaction statement in execution leaves the host what it had to present. -/
theorem operationsOnly.of_keepsRun {s t : State} (h : operationsOnly s) (hk : keepsRun s t) (hr : t.rawTx = none) :
    operationsOnly t := by
  obtain ⟨-, hprog⟩ := h
  obtain ⟨-, -, kprog, -⟩ := hk
  exact ⟨hr, kprog ▸ hprog⟩

/-- The list in execution is an operation's (10_state.md R35), whose transactions are named. -/
theorem operationsOnly.currentTxs_named {s : State} (h : operationsOnly s) : ∀ x ∈ currentTxs s, x.named := by
  obtain ⟨hraw, -⟩ := h
  rw [currentTxs, hraw]
  exact operationTxs_named

theorem runTxs_operationsSafe {ts : List Tx} (hts : ∀ x ∈ ts, x.named) (i : Nat) {s : State} (h : operationsOnly s) :
    operationsSafe (runTxs i ts s) := by
  obtain ⟨t, ht⟩ := runTxs_named hts i s
  rw [ht]
  obtain ⟨hk, ⟨-, hr, -⟩ | ⟨-, -, -, hr, -⟩⟩ := runTxs_cases ht
  · exact h.of_keepsRun hk hr
  · exact h.of_keepsRun hk (hr.trans h.1)

theorem seqStep_operationsSafe {ts : List Tx} (hts : ∀ x ∈ ts, x.named) (i : Nat) {s : State} (h : operationsOnly s) :
    operationsSafe (seqStep i ts s) := by
  obtain ⟨t, ht⟩ := seqStep_named hts i s
  rw [ht]
  obtain ⟨hk, ⟨-, hr, -⟩ | ⟨-, -, rfl⟩ | ⟨-, -, hr, -⟩⟩ := seqStep_cases ht
  · exact h.of_keepsRun hk hr
  · exact h.of_keepsRun hk (by rw [poll_eq]; exact h.1)
  · exact h.of_keepsRun hk (hr.trans h.1)

/-- SEQ that goes on with an operation's list, from whatever index. -/
theorem resume_operationsSafe (i : Nat) {s : State} (h : operationsOnly s) : operationsSafe (resume i s) := by
  have hts : ∀ x ∈ (currentTxs s).drop i, x.named := fun x hx => h.currentTxs_named x (List.mem_of_mem_drop hx)
  unfold resume
  split
  · exact runTxs_operationsSafe hts i h
  · exact seqStep_operationsSafe hts i h

theorem startList_operationsSafe {ts : List Tx} (hts : ∀ x ∈ ts, x.named) {s : State} (h : operationsOnly s) :
    operationsSafe (startList ts s) := by
  obtain ⟨-, h'⟩ | ⟨-, -, h'⟩ | ⟨-, -, h'⟩ := startList_cases ts s <;> rw [h']
  · exact ⟨rfl, h.2⟩
  · exact h
  · exact runTxs_operationsSafe hts 0 (s := { s with seqst := .running 0 }) h

theorem isOperation_eq_false_of_isBusCycle {i : Instr} (h : i.isBusCycle = true) : i.isOperation = false := by
  cases i with
  | irw | str | dwr | drd => rfl
  | _ => cases h

/-- An operation request to an idle block is accepted or refused. -/
theorem exec_operationsSafe {i : Instr} (ho : i.isOperation = true) {s : State} (hi : s.seqst = .idle)
    (h : operationsOnly s) : operationsSafe (exec i s) := by
  cases presented i with
  | transaction r hr _ => simp [ho] at hr
  | operation q _ _ _ _ he =>
    rw [he s hi]
    exact startList_operationsSafe operationTxs_named ⟨rfl, h.2⟩
  | refused r _ he =>
    rw [he s hi]
    trivial
  | cycle hc _ => simp [isOperation_eq_false_of_isBusCycle hc] at ho

theorem operationOf_isOperation (opc : Nat) (x y : BitVec 16) (d : Byte) : (operationOf opc x y d).isOperation = true := by
  unfold operationOf
  split <;> rfl

/-- The words of format OP are the operation requests (30_encoding.md R94, R95). -/
theorem isOperation_of_decode {p : Packet} {i : Instr} (hf : p.fmt = .op) (hd : decode p = .ok i) :
    i.isOperation = true := by
  rw [decode, hf] at hd
  change decodeOp p.bits = .ok i at hd
  unfold decodeOp at hd
  split at hd
  · cases hd
    exact operationOf_isOperation _ _ _ _
  · cases hd

theorem hostAct_operationsSafe {s : State} (hi : s.seqst = .idle) (h : operationsOnly s) : operationsSafe (hostAct s) := by
  obtain ⟨hraw, hprog⟩ := h
  cases hq : s.program with
  | nil =>
    rw [hostAct_of_no_statement hq]
    exact ⟨hraw, hprog⟩
  | cons p rest =>
    rw [hq, List.forall_mem_cons] at hprog
    obtain ⟨hp, hrest⟩ := hprog
    cases hd : decode p with
    | error e => simp only [hostAct, hq, hd]; trivial
    | ok i =>
      rw [hostAct_of_decoded hq hd]
      exact exec_operationsSafe (isOperation_of_decode hp hd) (s := { s with program := rest }) hi ⟨hraw, hrest⟩

/-- Whose turn it is: CTL completes, SEQ goes on, or the host presents a request. -/
theorem act_operationsSafe {s : State} (h : operationsOnly s) : operationsSafe (act s) := by
  by_cases hctl : ∃ l, s.turns = .ctl :: l
  · obtain ⟨l, hl⟩ := hctl
    rw [act_of_ctl hl]
    exact h
  have hseq : ∀ l, s.turns ≠ .ctl :: l := fun l hl => hctl ⟨l, hl⟩
  cases hs : s.seqst with
  | running i =>
    rw [act_of_running hseq hs]
    exact resume_operationsSafe i h
  | idle =>
    obtain ⟨b, hb⟩ := settled_eq s
    rw [act_of_idle hs hseq, hb]
    exact hostAct_operationsSafe hs h

theorem step_operationsSafe {s : State} (h : operationsOnly s) : operationsSafe (step s) := by
  cases hp : paramsOk s.params with
  | false =>
    rw [step_of_not_paramsOk hp]
    trivial
  | true =>
    rw [step_of_paramsOk hp]
    exact (act_operationsSafe h).andThen fun _ ht => ht

theorem run_operationsSafe (k : Nat) : ∀ {s : State}, operationsOnly s → operationsSafe (run k s) := by
  induction k with
  | zero => exact fun h => h
  | succ k ih =>
    intro s h
    rw [run_succ]
    exact (step_operationsSafe h).andThen fun _ => ih

/-- Settles O51, by induction on the steps (`run_operationsSafe`): an operation's list holds named transactions only, and what a
step leaves is a block of the same kind. -/
theorem operationsNeverFault : Obligations.OperationsNeverFault := by
  intro s h k r hr
  have hsafe := run_operationsSafe k h
  rw [hr] at hsafe
  exact hsafe

end Sys2Proof.Machine
end

section
/-! PROOFS of the family 70_reset_and_hazards.md: the number of transactions of every operation (O37). -/

namespace Sys2Proof.Machine

/-! ### The lengths of the parts of a list -/

@[simp] theorem length_moveTxs (p : Params) (x y : Nat) : (moveTxs p x y).length = 2 := rfl

@[simp] theorem length_zeroTxs (n : Nat) : (zeroTxs n).length = n := List.length_replicate

theorem length_clearTxs (p : Params) : (clearTxs p).length = 2 + surfaceBytes p := by
  rw [clearTxs, List.length_append, length_moveTxs, length_zeroTxs]

/-- A relocated row is two moves, BPR receives and BPR sends (44_scroll_engine.md R211). -/
theorem length_relocateRowTxs (p : Params) (n j : Nat) : (relocateRowTxs p n j).length = 4 + 2 * bpr p := by
  simp only [relocateRowTxs, List.length_append, List.length_map, List.length_range, length_moveTxs]
  omega

theorem length_relocateTxs (p : Params) (n : Nat) : (relocateTxs p n).length = (p.height - n) * (4 + 2 * bpr p) := by
  simp [relocateTxs, List.length_flatMap, length_relocateRowTxs]

theorem length_blankTxs {p : Params} {n : Nat} (hn : n ≤ p.height) : (blankTxs p n).length = 2 + n * bpr p := by
  rw [blankTxs, List.length_append, length_moveTxs, length_zeroTxs, Nat.min_eq_left hn]

/-! ### SCROLL_UP and the other operations -/

/-- SCROLL_UP by 0 has no transactions (44_scroll_engine.md R213), by less than HEIGHT those of the two passes, and by HEIGHT or
more those of CLEAR (R214). -/
theorem length_scrollUpTxs {p : Params} (hp : paramsOk p = true) (n : Nat) :
    (scrollUpTxs p n).length =
      if n = 0 then 0
      else if n < p.height then (p.height - n) * (4 + 2 * bpr p) + 2 + n * bpr p
      else 2 + surfaceBytes p := by
  split_ifs with hzero hlt
  · rw [scrollUpTxs, if_pos hzero, List.length_nil]
  · rw [scrollUpTxs, if_neg hzero, List.length_append, length_relocateTxs, length_blankTxs hlt.le, Nat.add_assoc]
  · rw [scrollUpTxs_eq_clearTxs hp (Nat.not_lt.1 hlt), length_clearTxs]

/-- Settles O37: CLEAR and SCROLL_UP by the lengths of their parts, and the other lists are written out in the model. -/
theorem transactionCounts : Obligations.TransactionCounts := fun p _ y _ hp =>
  ⟨rfl, rfl, rfl, rfl, rfl, length_clearTxs p, rfl, length_scrollUpTxs hp y.toNat⟩

end Sys2Proof.Machine
end

section
/-! PROOFS of the family other, the encoding: decoding an encoded instruction (O1), encoding a decoded packet (O2), and the words of
the test vectors (O3). The tables of the encoder and the decoder are inverse to each other, and a word is put together again from
the fields the decoder cuts it into. -/

namespace Sys2Proof

/-! ### Decoding an encoding -/

/-- Every encoding is a word of one of the three formats, and the code in it names the instruction it is the encoding of. -/
theorem decode_encode (i : Instr) : decode (encode i) = .ok i := by
  cases i with
  | mode | pitch | nchr | tdiv | startLo | startHi | curLo | curHi | write | read | clearBit | setBit
  | reservedCmd4 | reservedCmd5 | reservedCmd6 | reservedCmd7 => exact decode_wordT _ _
  | dwr db =>
    obtain ⟨hdwr, -⟩ := decode_wordC db
    exact hdwr
  | irw db =>
    obtain ⟨-, hirw, -⟩ := decode_wordC db
    exact hirw
  | drd =>
    obtain ⟨-, -, hdrd, -⟩ := decode_wordC 0
    exact hdrd
  | str =>
    obtain ⟨-, -, -, hstr⟩ := decode_wordC 0
    exact hstr
  | init | move | drawByte | plotByte | plotPixel | clear | readByte | scrollUp
  | reservedOp8 | reservedOp9 | reservedOpA | reservedOpB | reservedOpC | reservedOpD | reservedOpE | reservedOpF =>
    exact decode_wordOp (by decide) _ _ _

/-! ### The tables read backwards -/

theorem codeOf_of_mem_commandTable : ∀ e ∈ commandTable, codeOf e.2 = e.1 := by decide

theorem codeOf_of_commandOf {c : BitVec 4} {k : Command} (h : commandOf c = some k) : codeOf k = c := by
  obtain ⟨e, he, rfl⟩ := Option.map_eq_some_iff.1 h
  have hc : e.1 = c := by simpa using List.find?_some he
  rw [codeOf_of_mem_commandTable e (List.mem_of_find?_eq_some he), hc]

/-- The codes no command has are 4 to 7 (30_encoding.md R99). -/
theorem reservedCode_cases {c : BitVec 4} (h : commandOf c = none) : c = 4 ∨ c = 5 ∨ c = 6 ∨ c = 7 := by
  obtain ⟨h4, h7⟩ := (Machine.commandOf_eq_none_iff c).1 h
  bv_omega

/-- READ apart, whose d field is no part of its encoding (30_encoding.md R90). -/
theorem encode_transactionOf {c : BitVec 4} {d : Byte} (h : transactionOf c d ≠ .read) :
    encode (transactionOf c d) = wordT c d := by
  cases hk : commandOf c with
  | none => obtain rfl | rfl | rfl | rfl := reservedCode_cases hk <;> rfl
  | some k =>
    obtain rfl := codeOf_of_commandOf hk
    cases k with
    | read => exact absurd rfl h
    | mode | pitch | nchr | tdiv | startLo | startHi | curLo | curHi | write | clearBit | setBit => rfl

theorem encode_operationOf {o : Nat} (ho : o < 16) (x y : BitVec 16) (d : Byte) :
    encode (operationOf o x y d) = wordOp o x y d := by
  interval_cases o <;> rfl

/-! ### A word put together from its fields -/

theorem field_lt (v lo n : Nat) : field v lo n < 2 ^ n := Nat.mod_lt _ (Nat.two_pow_pos n)

theorem wordT_fields {v : Nat} (h : v < 2 ^ 12) :
    wordT (BitVec.ofNat 4 (field v 8 4)) (BitVec.ofNat 8 (field v 0 8)) = ⟨.t, v⟩ := by
  simp only [wordT, field, BitVec.toNat_ofNat, Packet.mk.injEq, true_and]
  omega

/-- The bits between {RS, RW} and the operand byte are clear (log 12). -/
theorem wordC_fields {v : Nat} (h : v < 2 ^ 16) (hpad : field v 2 6 = 0) :
    wordC (field v 0 2) (BitVec.ofNat 8 (field v 8 8)) = ⟨.c, v⟩ := by
  simp only [field] at hpad
  simp only [wordC, field, BitVec.toNat_ofNat, Packet.mk.injEq, true_and]
  omega

theorem wordOp_fields {v : Nat} (h : v < 2 ^ 44) :
    wordOp (field v 40 4) (BitVec.ofNat 16 (field v 24 16)) (BitVec.ofNat 16 (field v 8 16)) (BitVec.ofNat 8 (field v 0 8)) =
      ⟨.op, v⟩ := by
  simp only [wordOp, field, BitVec.toNat_ofNat, Packet.mk.injEq, true_and]
  omega

/-! ### Encoding what was decoded, one lemma per format -/

theorem encode_of_decodeT {v : Nat} {i : Instr} (h : decodeT v = .ok i) (hi : i ≠ .read) : encode i = ⟨.t, v⟩ := by
  unfold decodeT at h
  split at h
  case isTrue hv =>
    cases h
    rw [encode_transactionOf hi, wordT_fields hv]
  case isFalse => cases h

/-- A read cycle is accepted only without an operand byte (log 12). -/
theorem operandByte_of_accepted {b : Nat} {i j : Instr}
    (h : (if b = 0 then .ok j else .error .operandOnRead : Except DecodeError Instr) = .ok i) : b = 0 ∧ i = j := by
  split at h
  case isTrue hb =>
    cases h
    exact ⟨hb, rfl⟩
  case isFalse => cases h

/-- The two bits select the cycle. A read cycle drives no byte, and its packet is accepted only if it carries none (log 12). -/
theorem encode_of_decodeC {v : Nat} {i : Instr} (h : decodeC v = .ok i) : encode i = ⟨.c, v⟩ := by
  unfold decodeC at h
  split at h
  case isTrue => cases h
  case isFalse hv =>
  split at h
  case isTrue => cases h
  case isFalse hpad =>
  rw [← wordC_fields (Nat.not_le.1 hv) (not_not.1 hpad)]
  have hlt := field_lt v 0 2
  obtain hr | hr | hr | hr : field v 0 2 = 0 ∨ field v 0 2 = 1 ∨ field v 0 2 = 2 ∨ field v 0 2 = 3 := by omega
  all_goals rw [hr] at h ⊢
  · cases h
    rfl
  · obtain ⟨hdb, rfl⟩ := operandByte_of_accepted h
    rw [hdb]
    rfl
  · cases h
    rfl
  · obtain ⟨hdb, rfl⟩ := operandByte_of_accepted h
    rw [hdb]
    rfl

theorem encode_of_decodeOp {v : Nat} {i : Instr} (h : decodeOp v = .ok i) : encode i = ⟨.op, v⟩ := by
  unfold decodeOp at h
  split at h
  case isTrue hv =>
    cases h
    rw [encode_operationOf (field_lt v 40 4), wordOp_fields hv]
  case isFalse => cases h

/-! ### The obligations -/

/-- Settles O1, by the format of the encoding (`decode_encode`). -/
theorem decodeOfEncodeIsIdentity : Obligations.DecodeOfEncodeIsIdentity := decode_encode

/-- Settles O2, by the format of the packet. -/
theorem encodeOfDecodeIsIdentity : Obligations.EncodeOfDecodeIsIdentity := by
  rintro ⟨f, v⟩ i h hi
  cases f with
  | t => exact encode_of_decodeT h hi
  | c => exact encode_of_decodeC h
  | op => exact encode_of_decodeOp h

/-- Settles O3: each of the words is the encoding of the instruction it stands for, which is what it decodes to (O1). -/
theorem vectorWordsDecode : Obligations.VectorWordsDecode :=
  ⟨decode_encode (.mode 0x32), decode_encode (.nchr 0x1D), decode_encode (.startHi 0x12), decode_encode (.curLo 0x97),
    decode_encode (.write 0xA5), decode_encode .read, decode_encode (.setBit 0x0F), decode_encode (.irw 0x05),
    decode_encode .drd, decode_encode (.move 232 1 0), decode_encode (.plotByte 8 1 0xA5),
    decode_encode (.plotPixel 11 2 1), decode_encode (.scrollUp 0 65535 0), decode_encode (.reservedOp9 0 0 0)⟩

end Sys2Proof
end
